-- ==== Sys2Proof/Word.lean ====
section
/-! DEFINITION. The word types of the block and bit strings. -/

namespace Sys2Proof

/-- A byte of KBUF, DBUF or a key (00_scope R7). -/
abbrev Byte := BitVec 8

/-- A register or bus data word: every register and bus word has 32 bits (00_scope R6). -/
abbrev Word := BitVec 32

/-- A 4-bit group (00_scope, Glossary: "a 4-bit value (0–15)"). -/
abbrev Nibble := BitVec 4

/-- The stored width of a PTAB entry: 12 bits hold the value DBUF_BITS = 2048 (10_state R39). -/
abbrev Entry := BitVec 12

/-- A byte offset in the block's 1 MiB window: the 20-bit `addr` port (20_memory R77). -/
abbrev Offset := BitVec 20

/-- A bit string `b[0], b[1], …` (00_scope R7). -/
abbrev Bits := List Bool

/-- A permutation table `T[0], …, T[N-1]` with 1-based entries (00_scope R9). -/
abbrev Table := List Nat

end Sys2Proof
end

