-- ==== Sys2Proof/Config.lean ====
section
/-! DEFINITION. What this hardware fixes once (00_scope R6), the open platform parameter BASE, and the free
values the spec leaves open. LATENCY is not here: the place of the engine's turn in `State.schedule` stands for it
(log entry 8). -/

namespace Sys2Proof

/-- DBUF_BYTES, the capacity of the data buffer in bytes (00_scope R6). -/
abbrev Config.dbufBytes : Nat := 256

/-- DBUF_BITS = 8 * DBUF_BYTES, also the number of PTAB entries (00_scope R6). -/
abbrev Config.dbufBits : Nat := 8 * Config.dbufBytes

/-- KBUF_BYTES, the capacity of the key buffer in bytes (00_scope R6). -/
abbrev Config.kbufBytes : Nat := 64

/-- RK_BYTES = KBUF_BYTES + 10, the capacity of the hidden round-key register (00_scope R6). -/
abbrev Config.rkBytes : Nat := Config.kbufBytes + 10

/-- The number of the 1 MiB slot the platform puts the window in: OPEN (00_scope R6, 93 U21; log entry 11). -/
opaque Config.baseIndex : Nat

/-- BASE, the platform address of window offset 0, aligned to 1 MiB by construction (00_scope R6). No definition of
the block uses it: the block's `addr` port carries the offset in the window (20_memory R77). -/
def Config.base : Nat := Config.baseIndex * 0x100000

/-- The arbitrary 32-bit words of 70_reset_and_hazards R218 and 20_memory R66 (93 U4, U5): the word the bus read
number `n` takes where the spec gives no value. It has no body, so nothing can be proved of a value of it
(log entry 3). -/
opaque Config.freeWord : Nat → Word

end Sys2Proof
end

