-- ==== Sys2Proof/Syntax.lean ====
section
/-! DEFINITION. The ten commands of 30_encoding R91 (spec/opcode_table.json), one constructor a row. -/

namespace Sys2Proof

/-- A command. A command word carries no operand field (30_encoding R92), so no constructor has an argument. -/
inductive Instr where
  /-- NOP (40_codec R110). -/
  | nop
  /-- DECODE (40_codec R112). -/
  | decode
  /-- SUBST_FWD (41_substitution R122). -/
  | substFwd
  /-- SUBST_INV (41_substitution R123). -/
  | substInv
  /-- PERM_GEN (42_permutation R135). -/
  | permGen
  /-- PERM_INV (42_permutation R138). -/
  | permInv
  /-- PERM_APPLY (42_permutation R141). -/
  | permApply
  /-- XOR (43_xor R151). -/
  | xor
  /-- ENCRYPT (44_scheduler R163). -/
  | encrypt
  /-- DECRYPT (44_scheduler R165). -/
  | decrypt
  deriving DecidableEq, Repr

/-- The mnemonic of a command, as 30_encoding R91 spells it. -/
def Instr.mnemonic : Instr → String
  | .nop => "NOP"
  | .decode => "DECODE"
  | .substFwd => "SUBST_FWD"
  | .substInv => "SUBST_INV"
  | .permGen => "PERM_GEN"
  | .permInv => "PERM_INV"
  | .permApply => "PERM_APPLY"
  | .xor => "XOR"
  | .encrypt => "ENCRYPT"
  | .decrypt => "DECRYPT"

/-- All commands, in the order of 30_encoding R91. -/
def Instr.all : List Instr :=
  [.nop, .decode, .substFwd, .substInv, .permGen, .permInv, .permApply, .xor, .encrypt, .decrypt]

/-- The command a mnemonic of a host program names; a mnemonic outside the table is refused (93 U9). -/
def Instr.ofMnemonic (m : String) : Option Instr :=
  Instr.all.find? (fun i => i.mnemonic == m)

end Sys2Proof
end

