-- ==== Sys2Proof/WellFormed.lean ====
section
/-! DEFINITION. What makes a command word and a choice of capacities well formed. An `Instr` has no field
(30_encoding R92), so each of its ten terms is well formed; what can be ill formed is a word written to CMD. -/

namespace Sys2Proof

/-- The OPC field, bits 7:0 of a command word (30_encoding R90). -/
def cmdOpc (w : Word) : Byte := w.extractLsb' 0 8

/-- The RSVD field, bits 31:8 of a command word (30_encoding R90). -/
def cmdRsvd (w : Word) : BitVec 24 := w.extractLsb' 8 24

/-- A command word is well formed when RSVD is 0 and OPC is not in 0x0A..0xFF (30_encoding R94). -/
def wellFormedWord (w : Word) : Bool := cmdRsvd w == 0 && decide (cmdOpc w < 0x0A)

/-- The legal range of DBUF_BYTES: 4 to 8192, a multiple of 4 (00_scope R6). -/
def legalDbufBytes (n : Nat) : Bool := decide (4 ≤ n ∧ n ≤ 8192) && n % 4 == 0

/-- The legal range of KBUF_BYTES: 4 to 4096, a multiple of 4 (00_scope R6). -/
def legalKbufBytes (n : Nat) : Bool := decide (4 ≤ n ∧ n ≤ 4096) && n % 4 == 0

end Sys2Proof
end

