-- ==== Sys2Proof/Decode.lean ====
section
/-! DEFINITION. The decoder of command words, then the encoder (30_encoding R90, R91, R94, R95). -/

namespace Sys2Proof

/-- Why a word encodes no command (30_encoding R94). -/
inductive Reject where
  /-- Bits 31:8 are not all 0. -/
  | reservedBits
  /-- OPC is in 0x0A..0xFF. -/
  | reservedOpcode
  deriving DecidableEq, Repr

/-- A row of the opcode map: a word selects the command when `word AND mask = pattern` (30_encoding R91). -/
structure OpRow where
  /-- The bits that are compared. -/
  mask : Word
  /-- Their values. -/
  pattern : Word
  /-- The command the row selects. -/
  instr : Instr
  deriving DecidableEq, Repr

/-- The opcode map of 30_encoding R91. -/
def opcodeTable : List OpRow :=
  [ ⟨0xFFFFFFFF, 0x00000000, .nop⟩,
    ⟨0xFFFFFFFF, 0x00000001, .decode⟩,
    ⟨0xFFFFFFFF, 0x00000002, .substFwd⟩,
    ⟨0xFFFFFFFF, 0x00000003, .substInv⟩,
    ⟨0xFFFFFFFF, 0x00000004, .permGen⟩,
    ⟨0xFFFFFFFF, 0x00000005, .permInv⟩,
    ⟨0xFFFFFFFF, 0x00000006, .permApply⟩,
    ⟨0xFFFFFFFF, 0x00000007, .xor⟩,
    ⟨0xFFFFFFFF, 0x00000008, .encrypt⟩,
    ⟨0xFFFFFFFF, 0x00000009, .decrypt⟩ ]

/-- Whether a word selects a row (30_encoding R91). -/
def OpRow.selects (r : OpRow) (w : Word) : Bool := w &&& r.mask == r.pattern

/-- The command a word encodes, or why it encodes none (30_encoding R91, R94). -/
def decodeWord (w : Word) : Except Reject Instr :=
  match opcodeTable.find? (fun r => r.selects w) with
  | some r => .ok r.instr
  | none => if cmdRsvd w = 0 then .error .reservedOpcode else .error .reservedBits

/-- The command word of a command: `{RSVD = 0, OPC}` (30_encoding R90, R91). -/
def encodeInstr : Instr → Word
  | .nop => 0x00#24 ++ 0x00#8
  | .decode => 0x00#24 ++ 0x01#8
  | .substFwd => 0x00#24 ++ 0x02#8
  | .substInv => 0x00#24 ++ 0x03#8
  | .permGen => 0x00#24 ++ 0x04#8
  | .permInv => 0x00#24 ++ 0x05#8
  | .permApply => 0x00#24 ++ 0x06#8
  | .xor => 0x00#24 ++ 0x07#8
  | .encrypt => 0x00#24 ++ 0x08#8
  | .decrypt => 0x00#24 ++ 0x09#8

/-- The command word whose low `nbits` bits are those of `w` and whose other bits are 0. A command is one 32-bit
word (30_encoding R95), written to CMD in one bus write, so no byte order comes in. -/
def tableWord (nbits w : Nat) : Word := BitVec.ofNat 32 (w % 2 ^ nbits)

/-- What the decoder reads from an instruction whose bits are `w`, numbered as spec/opcode_table.json numbers them. -/
def decodeTableWord (nbits w : Nat) : Option Instr :=
  match decodeWord (tableWord nbits w) with
  | .ok i => some i
  | .error _ => none

end Sys2Proof
end

