-- ==== Sys2Proof/Machine/State.lean ====
section
/-! DEFINITION. The state of the block (10_state R20), plain data, its reset value (R46), the events at its ports,
and the reasons a step stops. -/

namespace Sys2Proof.Machine

/-- The STATUS flags (10_state R25). STATUS[31:5] is RAZ/WI and has no storage. -/
structure Status where
  /-- Bit 0, BUSY: a command has been accepted and has not completed. -/
  busy : Bool
  /-- Bit 1, DONE: a command has completed. -/
  done : Bool
  /-- Bit 2, ERR: it completed with an error. -/
  err : Bool
  /-- Bit 3, WEAK: the document's WeakKeyDegeneration. -/
  weak : Bool
  /-- Bit 4, OVR: a host write was lost because the block was busy. -/
  ovr : Bool
  deriving DecidableEq, Repr

/-- LAT, what the engine latches when a command starts (10_state R41, 60_exceptions R180). -/
structure Latch where
  /-- The command word. -/
  cmd : Word
  /-- DLEN at the start. -/
  dlen : Word
  /-- KLEN at the start. -/
  klen : Word
  /-- ROUNDS at the start. -/
  rounds : Word
  /-- GSIZE at the start. -/
  gsize : Word
  deriving DecidableEq, Repr

/-- One thing that happens next: a host access at the bus port, the level of `rst_n`, or a turn of the engine
(20_memory R68, R69, R72, R77). -/
inductive Event where
  /-- One host read of the word at an offset (20_memory R68). -/
  | busRead (addr : Offset)
  /-- One host write of a word at an offset (20_memory R69). -/
  | busWrite (addr : Offset) (v : Word)
  /-- The platform drives `rst_n` to a level: false is 0, reset asserted (70_reset_and_hazards R210). -/
  | rstN (level : Bool)
  /-- The engine moves: the completion step of the command in progress, if there is one (60_exceptions R181). -/
  | engine
  deriving DecidableEq, Repr

/-- The registers of 10_state R22 to R35. -/
inductive Reg where
  | id | version | ctrl | status | cmd | errcode | dlen | klen | rounds | gsize | psize | ridx | capDbuf | capKbuf
  deriving DecidableEq, Repr

/-- What stands at a word of the window (20_memory R64). -/
inductive Region where
  /-- A register of the register page. -/
  | reg (r : Reg)
  /-- Word `w` of KBUF, below capacity: bytes `4w .. 4w+3`. -/
  | kbuf (w : Nat)
  /-- Word `w` of DBUF, below capacity: bytes `4w .. 4w+3`. -/
  | dbuf (w : Nat)
  /-- Entry `k` of PTAB, below capacity. -/
  | ptab (k : Nat)
  /-- Reserved or beyond capacity: RAZ/WI (20_memory R81). -/
  | reserved
  deriving DecidableEq, Repr

/-- The error kinds a command can end with (60_exceptions R184). These are completions, not stops. -/
inductive ErrKind where
  | malformedBitLength
  | malformedNibbleLength
  | permutationSizeMismatch
  | emptyKeystream
  | invalidRoundsValue
  | illegalCommand
  | lengthOutOfRange
  deriving DecidableEq, Repr

/-- The reasons a step stops with a fault. -/
inductive Fault where
  /-- A command whose hardware checks all pass has an unwritten KBUF or DBUF operand byte. Raised by SUBST_FWD,
  SUBST_INV, PERM_GEN, PERM_APPLY, XOR, ENCRYPT and DECRYPT (20_memory R66, 60_exceptions R187 and R197). Safe: the
  chip goes on with whatever the RAM holds, the model stops (log entries 1 and 2). -/
  | uninitialisedOperand
  /-- `PTAB[0..PSIZE-1]` is no permutation table. Raised by PERM_INV and PERM_APPLY in states no run reaches
  (10_state R39, 93 U15). Safe: the spec gives `invert` no meaning there (log entry 13). -/
  | tableNotBijection
  deriving DecidableEq, Repr

/-- The reasons a step is refused. -/
inductive Refusal where
  /-- The command has no meaning in the model yet. Raised by no command: all ten have their meaning. Safe. -/
  | notModelled (mnemonic : String)
  deriving DecidableEq, Repr

/-- KBUF and DBUF as one memory over the window's byte offsets: the written bytes, offsets strictly rising. An offset
that is not listed is unwritten and has no value (20_memory R66; log entries 1 and 14). -/
abbrev Memory := List Host.Cell

/-- The whole state. -/
structure State where
  /-- CTRL.IE (10_state R24). -/
  ie : Bool
  /-- STATUS (10_state R25). -/
  status : Status
  /-- CMD, the last accepted word (10_state R26). -/
  cmd : Word
  /-- ERRCODE.CODE (10_state R27). -/
  errcode : Byte
  /-- DLEN, in bits (10_state R28). -/
  dlen : Word
  /-- KLEN, in bytes (10_state R29). -/
  klen : Word
  /-- ROUNDS (10_state R30). -/
  rounds : Word
  /-- GSIZE (10_state R31). -/
  gsize : Word
  /-- PSIZE, the size of the table in PTAB (10_state R32). -/
  psize : Word
  /-- RIDX, the round index of the last round run (10_state R33). -/
  ridx : Word
  /-- The written bytes of KBUF and DBUF (10_state R37, R38; 20_memory R64, R66). -/
  mem : Memory
  /-- PTAB, its entries below PSIZE (10_state R39; log entry 12). -/
  ptab : List Entry
  /-- RK, the hidden round-key register; its length is RKLEN (10_state R40; log entry 6). -/
  rk : List Byte
  /-- LAT (10_state R41; log entry 5). -/
  lat : Latch
  /-- The level of the `rst_n` input: true is 1, released (70_reset_and_hazards R210). -/
  rstN : Bool
  /-- The `rdata` port: the answer to the last bus read (20_memory R77; log entry 4). -/
  rdata : Word
  /-- The model's own counter of bus reads, the argument of `Config.freeWord` (log entry 3). -/
  draws : Nat
  /-- The model's own list of what happens next (20_memory R72; log entry 8). -/
  schedule : List Event
  deriving DecidableEq, Repr

/-- The state right after reset (10_state R46), with nothing scheduled. The hidden registers LAT and RK, the `rdata`
port and the model's own fields have no value in the spec (log entries 3 to 6 and 8). -/
def State.reset : State where
  ie := false
  status := ⟨false, false, false, false, false⟩
  cmd := 0
  errcode := 0
  dlen := 0
  klen := 0
  rounds := 0
  gsize := 0
  psize := 0
  ridx := 0
  mem := []
  ptab := []
  rk := []
  lat := ⟨0, 0, 0, 0, 0⟩
  rstN := true
  rdata := 0
  draws := 0
  schedule := []

/-- The `irq` output, a level computed at every step (10_state R43, 60_exceptions R186). -/
def State.irq (s : State) : Bool := s.ie && s.status.done

end Sys2Proof.Machine
end

