-- ==== Sys2Proof/Machine/BitString.lean ====
section
/-! DEFINITION. Bit strings and their packing in bytes, most significant bit first (00_scope R7, 20_memory R61, R62;
40_codec R111). -/

namespace Sys2Proof.Machine

/-- The 8 bits `v[7], …, v[0]` of a byte (00_scope R7). -/
def byteBits (v : Byte) : Bits :=
  [v.getLsbD 7, v.getLsbD 6, v.getLsbD 5, v.getLsbD 4, v.getLsbD 3, v.getLsbD 2, v.getLsbD 1, v.getLsbD 0]

/-- The byte whose bits are given, most significant first (40_codec R111). -/
def byteOfBits (b7 b6 b5 b4 b3 b2 b1 b0 : Bool) : Byte :=
  BitVec.ofBool b7 ++ BitVec.ofBool b6 ++ BitVec.ofBool b5 ++ BitVec.ofBool b4 ++ BitVec.ofBool b3
    ++ BitVec.ofBool b2 ++ BitVec.ofBool b1 ++ BitVec.ofBool b0

/-- `encode(bytes)` (40_codec R111). -/
def encodeBytes (bytes : List Byte) : Bits := bytes.flatMap byteBits

/-- The bytes of a bit string's groups of 8 bits; bits after the last whole group are dropped. -/
def packBytes : Bits → List Byte
  | b7 :: b6 :: b5 :: b4 :: b3 :: b2 :: b1 :: b0 :: rest =>
    byteOfBits b7 b6 b5 b4 b3 b2 b1 b0 :: packBytes rest
  | _ => []

/-- `decode(bits)`, which fails with MalformedBitLength on a partial byte (40_codec R111). -/
def decodeBits (b : Bits) : Except ErrKind (List Byte) :=
  if b.length % 8 ≠ 0 then .error .malformedBitLength else .ok (packBytes b)

/-- The bytes `old` with their first bits replaced by `new` and all later bits kept (20_memory R63). -/
def overlayBits (old : List Byte) (new : Bits) : List Byte :=
  packBytes (new ++ (encodeBytes old).drop new.length)

end Sys2Proof.Machine
end

