-- ==== Sys2Proof/Machine/Flags.lean ====
section
/-! DEFINITION. Every computation of the STATUS flags and the error codes (10_state R25, 60_exceptions R180 to R184). -/

namespace Sys2Proof.Machine

/-- The word a read of STATUS returns: BUSY 0, DONE 1, ERR 2, WEAK 3, OVR 4, the rest 0 (10_state R25). -/
def Status.toWord (f : Status) : Word :=
  0#27 ++ BitVec.ofBool f.ovr ++ BitVec.ofBool f.weak ++ BitVec.ofBool f.err ++ BitVec.ofBool f.done
    ++ BitVec.ofBool f.busy

/-- A host write of `v` to STATUS: each W1C flag whose bit of `v` is 1 is cleared; bit 0 is ignored (10_state R25). -/
def Status.clearW1C (f : Status) (v : Word) : Status where
  busy := f.busy
  done := f.done && !v.getLsbD 1
  err := f.err && !v.getLsbD 2
  weak := f.weak && !v.getLsbD 3
  ovr := f.ovr && !v.getLsbD 4

/-- The flags after a command start: BUSY set, DONE, ERR and WEAK cleared, OVR kept (60_exceptions R180). -/
def Status.started (f : Status) : Status := ⟨true, false, false, false, f.ovr⟩

/-- The flags after a successful completion (60_exceptions R182). -/
def Status.completed (f : Status) (weak : Bool) : Status := ⟨false, true, false, weak, f.ovr⟩

/-- The flags after an error completion (60_exceptions R183). -/
def Status.failed (f : Status) : Status := ⟨false, true, true, false, f.ovr⟩

/-- The flags after a host write that was lost (70_reset_and_hazards R219). -/
def Status.lost (f : Status) : Status := { f with ovr := true }

/-- ERRCODE.CODE of an error kind (60_exceptions R184). -/
def ErrKind.code : ErrKind → Byte
  | .malformedBitLength => 0x01
  | .malformedNibbleLength => 0x02
  | .permutationSizeMismatch => 0x03
  | .emptyKeystream => 0x04
  | .invalidRoundsValue => 0x05
  | .illegalCommand => 0x10
  | .lengthOutOfRange => 0x11

/-- The first check that fails, in the order they are listed (60_exceptions R187). -/
def firstError : List (Bool × ErrKind) → Option ErrKind
  | [] => none
  | (fails, e) :: rest => if fails then some e else firstError rest

end Sys2Proof.Machine
end

