-- ==== Sys2Proof/Machine/Ops.lean ====
section
/-! DEFINITION. The named operations over memory, registers and the command lifecycle. -/

namespace Sys2Proof.Machine

/-! ### Memory (20_memory R64 to R66) -/

/-- The byte at an offset, none where it is unwritten (20_memory R66). -/
def Memory.read : Memory → Nat → Option Byte
  | [], _ => none
  | (b, v) :: m, a => if b = a then some v else Memory.read m a

/-- Writes the byte at an offset, keeping the offsets strictly rising. -/
def Memory.write : Memory → Nat → Byte → Memory
  | [], a, v => [(a, v)]
  | (b, x) :: m, a, v =>
    if a < b then (a, v) :: (b, x) :: m
    else if a = b then (a, v) :: m
    else (b, x) :: Memory.write m a v

/-- Writes consecutive bytes from an offset on. -/
def Memory.writeBytes (m : Memory) (a : Nat) : List Byte → Memory
  | [] => m
  | v :: vs => Memory.writeBytes (Memory.write m a v) (a + 1) vs

/-- The `n` bytes from an offset on, none if one of them is unwritten. -/
def Memory.readBytes (m : Memory) (a : Nat) : Nat → Option (List Byte)
  | 0 => some []
  | n + 1 =>
    match Memory.read m a, Memory.readBytes m (a + 1) n with
    | some v, some vs => some (v :: vs)
    | _, _ => none

/-- The canonical form: offsets strictly rising. An unlisted byte has no value, so no entry can equal it. -/
def Memory.wf (m : Memory) : Bool := decide ((m.map Prod.fst).Pairwise (· < ·))

/-- The window offset of KBUF (20_memory R64). -/
abbrev kbufBase : Nat := 0x01000

/-- The window offset of DBUF (20_memory R64). -/
abbrev dbufBase : Nat := 0x02000

/-- The window offset of PTAB (20_memory R64). -/
abbrev ptabBase : Nat := 0x40000

/-- `KBUF.byte[j]` (00_scope R10); none where it is unwritten. -/
def State.kbufByte (s : State) (j : Nat) : Option Byte := Memory.read s.mem (kbufBase + j)

/-- `DBUF.byte[j]` (00_scope R10); none where it is unwritten. -/
def State.dbufByte (s : State) (j : Nat) : Option Byte := Memory.read s.mem (dbufBase + j)

/-- `DBUF.bit[i] = DBUF.byte[i div 8][7 - (i mod 8)]` (20_memory R62); none where the byte is unwritten. -/
def State.dbufBit (s : State) (i : Nat) : Option Bool :=
  (s.dbufByte (i / 8)).map (fun v => v.getLsbD (7 - i % 8))

/-- `KEY.bit[i] = KBUF.byte[i div 8][7 - (i mod 8)]` (20_memory R62); none where the byte is unwritten. -/
def State.keyBit (s : State) (i : Nat) : Option Bool :=
  (s.kbufByte (i / 8)).map (fun v => v.getLsbD (7 - i % 8))

/-- Lane `j` of a bus word: bits `8j+7 : 8j` (20_memory R65). -/
def lane (w : Word) (j : Nat) : Byte := w.extractLsb' (8 * j) 8

/-- The bus word of four lanes, lane 0 first: `{byte3, byte2, byte1, byte0}` (20_memory R65). -/
def wordOfLanes (b0 b1 b2 b3 : Byte) : Word := b3 ++ b2 ++ b1 ++ b0

/-! ### Registers and the address map (10_state R22 to R36, 20_memory R64) -/

/-- The window offset of a register (10_state R22 to R35). -/
def Reg.offset : Reg → Nat
  | .id => 0x000
  | .version => 0x004
  | .ctrl => 0x008
  | .status => 0x00C
  | .cmd => 0x010
  | .errcode => 0x014
  | .dlen => 0x018
  | .klen => 0x01C
  | .rounds => 0x020
  | .gsize => 0x024
  | .psize => 0x028
  | .ridx => 0x02C
  | .capDbuf => 0x030
  | .capKbuf => 0x034

/-- The registers in the order of their offsets. -/
def Reg.all : List Reg :=
  [.id, .version, .ctrl, .status, .cmd, .errcode, .dlen, .klen, .rounds, .gsize, .psize, .ridx, .capDbuf, .capKbuf]

/-- The register at a word-aligned offset of the register page; none at a reserved offset (10_state R36). -/
def regAt (o : Nat) : Option Reg := Reg.all.find? (fun r => r.offset == o)

/-- What stands at the word that holds an offset; bits 1:0 of the offset are ignored (20_memory R64, R68, R70). -/
def regionOf (a : Offset) : Region :=
  let o := a.toNat / 4 * 4
  if o < kbufBase then
    match regAt o with
    | some r => .reg r
    | none => .reserved
  else if o < kbufBase + Config.kbufBytes then .kbuf ((o - kbufBase) / 4)
  else if o < dbufBase then .reserved
  else if o < dbufBase + Config.dbufBytes then .dbuf ((o - dbufBase) / 4)
  else if o < ptabBase then .reserved
  else if o < ptabBase + 4 * Config.dbufBits then .ptab ((o - ptabBase) / 4)
  else .reserved

/-- The value a read of a register returns while it is defined (10_state R22 to R36). -/
def State.regValue (s : State) : Reg → Word
  | .id => 0x53424F58
  | .version => 0x00070001
  | .ctrl => 0#31 ++ BitVec.ofBool s.ie
  | .status => s.status.toWord
  | .cmd => s.cmd
  | .errcode => 0#24 ++ s.errcode
  | .dlen => s.dlen
  | .klen => s.klen
  | .rounds => s.rounds
  | .gsize => s.gsize
  | .psize => s.psize
  | .ridx => s.ridx
  | .capDbuf => BitVec.ofNat 32 Config.dbufBytes
  | .capKbuf => BitVec.ofNat 32 Config.kbufBytes

/-! ### The lifecycle of a command (60_exceptions R180 to R183) -/

/-- **Start**: a word written to CMD while BUSY = 0 is accepted (60_exceptions R180). -/
def State.accept (s : State) (v : Word) : State :=
  { s with
    cmd := v
    lat := ⟨v, s.dlen, s.klen, s.rounds, s.gsize⟩
    status := s.status.started
    errcode := 0 }

/-- **complete**: the completion state of a command that succeeded (60_exceptions R182). The command's own writes have
been applied to `s`. -/
def State.complete (s : State) (weak : Bool) : State :=
  { s with errcode := 0, status := s.status.completed weak }

/-- **raise E**: the completion state of a command that failed, with nothing else written (60_exceptions R183). It is
the block's only trap-like event (R190): the code and the failed word in CMD are what it saves, and control goes to no
vector. -/
def State.raise (s : State) (e : ErrKind) : State :=
  { s with errcode := e.code, status := s.status.failed }

/-- There is no return from an error and nothing to restore (60_exceptions R191): the host may clear the flags by a
write of ones to STATUS (10_state R25). -/
def State.clearFlags (s : State) (v : Word) : State := { s with status := s.status.clearW1C v }

/-- A host write that is lost because the block is busy (70_reset_and_hazards R219). -/
def State.lost (s : State) : State := { s with status := s.status.lost }

/-- The reset state of 10_state R46 from any state: a soft reset has exactly the effect of a hardware reset
(70_reset_and_hazards R210, R211). The model's own fields and the `rdata` port are not the block's storage and stay
(log entry 15). -/
def State.toReset (s : State) : State :=
  { State.reset with rdata := s.rdata, draws := s.draws, schedule := s.schedule }

/-- The platform drives `rst_n`. Asserted, the state is the reset state and stays it; when it returns to 1 the state is
the reset state; a 1 on a released block changes nothing (70_reset_and_hazards R210, 10_state R46; log entry 10). -/
def State.driveRstN (s : State) (level : Bool) : State :=
  if level && s.rstN then s else { s.toReset with rstN := level }

/-- Stores a bit string's bytes in DBUF from byte 0 on (20_memory R62). -/
def State.storeDbuf (s : State) (bytes : List Byte) : State :=
  { s with mem := Memory.writeBytes s.mem dbufBase bytes }

/-- Stores a permutation table in PTAB (10_state R39). -/
def State.storePtab (s : State) (T : Table) : State :=
  { s with ptab := T.map (BitVec.ofNat 12) }

end Sys2Proof.Machine
end

