-- ==== Sys2Proof/Machine/Operands.lean ====
section
/-! DEFINITION. The implicit operands of the commands (30_encoding R92, R93), read from LAT, KBUF, DBUF and PTAB, and the
common shape of the data commands. -/

namespace Sys2Proof.Machine

/-- DLEN > DBUF_BITS, or GSIZE > DBUF_BITS (60_exceptions R185). -/
def overDbufBits (w : Word) : Bool := decide (Config.dbufBits < w.toNat)

/-- KLEN > KBUF_BYTES (60_exceptions R185). -/
def overKbufBytes (w : Word) : Bool := decide (Config.kbufBytes < w.toNat)

/-- The operand `KBUF.byte[0..KLEN-1]`; none if one of the bytes is unwritten (20_memory R66). -/
def State.keyOperand (s : State) : Option (List Byte) :=
  Memory.readBytes s.mem kbufBase s.lat.klen.toNat

/-- The operand bytes `DBUF.byte[0..ceil(DLEN/8)-1]`; none if one of them is unwritten (20_memory R66). -/
def State.dataOperand (s : State) : Option (List Byte) :=
  Memory.readBytes s.mem dbufBase ((s.lat.dlen.toNat + 7) / 8)

/-- The bit string `DBUF.bit[0..DLEN-1]` in the operand bytes (20_memory R62). -/
def State.dataBits (s : State) (bytes : List Byte) : Bits := (encodeBytes bytes).take s.lat.dlen.toNat

/-- The table `PTAB[0..PSIZE-1]` (10_state R39). -/
def State.table (s : State) : Table := (s.ptab.take s.psize.toNat).map BitVec.toNat

/-- A permutation table: its entries are the integers 1..N, each once (00_scope R9). -/
def isTable (T : Table) : Bool := decide (T.Nodup ∧ ∀ x ∈ T, 1 ≤ x ∧ x ≤ T.length)

/-- The table operand of PERM_INV and PERM_APPLY: none where PTAB holds no table of PSIZE entries, which no reachable
state does (93 U15; log entry 13). -/
def State.tableOperand (s : State) : Option Table :=
  if s.table.length = s.psize.toNat ∧ isTable s.table then some s.table else none

/-- Whether ROUNDS is negative as a two's complement number (30_encoding R93, 10_state R30). -/
def negativeRounds (w : Word) : Bool := w.getLsbD 31

/-- Writes the result bit string to `DBUF.bit[0..len-1]` over the operand bytes, keeping every later bit
(10_state R38, 20_memory R63). -/
def State.storeBits (s : State) (bytes : List Byte) (bits : Bits) : State :=
  s.storeDbuf (overlayBits bytes bits)

/-- A command that replaces DBUF's bit string by a function of it, once its checks have passed: the operand bytes must
be written (60_exceptions R187 item 8), an error of the function ends the command with no write (R183), and a result
is stored and the command completes (R182). -/
def dataCommand (s : State) (f : Bits → Except ErrKind Bits) : Host.Outcome State Fault Refusal :=
  match s.dataOperand with
  | none => .fault .uninitialisedOperand
  | some bytes =>
    match f (s.dataBits bytes) with
    | .error e => .next (s.raise e)
    | .ok bits => .next ((s.storeBits bytes bits).complete false)

end Sys2Proof.Machine
end

