-- ==== Sys2Proof/Machine/Bus.lean ====
section
/-! DEFINITION. Host accesses at the bus port (20_memory R68 to R71, 70_reset_and_hazards R218 to R220) and the other
events at the ports. -/

namespace Sys2Proof.Machine

/-- Whether a read of a register while BUSY = 1 returns an arbitrary value: PSIZE and RIDX (70_reset_and_hazards R218). -/
def Reg.openWhileBusy : Reg → Bool
  | .psize => true
  | .ridx => true
  | .id | .version | .ctrl | .status | .cmd | .errcode | .dlen | .klen | .rounds | .gsize | .capDbuf | .capKbuf => false

/-- Word `w` of a buffer: each written byte in its lane, the free word's lane where the byte is unwritten
(20_memory R65, R66). -/
def bufferWord (m : Memory) (base w : Nat) (free : Word) : Word :=
  let byte (j : Nat) : Byte := (Memory.read m (base + 4 * w + j)).getD (lane free j)
  wordOfLanes (byte 0) (byte 1) (byte 2) (byte 3)

/-- A read of PTAB entry `k`: the entry below PSIZE, else 0 (20_memory R67). -/
def State.ptabWord (s : State) (k : Nat) : Word :=
  if k < s.psize.toNat then (s.ptab.getD k 0).setWidth 32 else 0

/-- The word `MemRead` returns at an offset, `free` where the spec gives no value (20_memory R68,
70_reset_and_hazards R218). -/
def State.readWord (s : State) (a : Offset) (free : Word) : Word :=
  match regionOf a with
  | .reg r => if s.status.busy && r.openWhileBusy then free else s.regValue r
  | .kbuf w => bufferWord s.mem kbufBase w free
  | .dbuf w => if s.status.busy then free else bufferWord s.mem dbufBase w free
  | .ptab k => if s.status.busy then free else s.ptabWord k
  | .reserved => 0

/-- `MemRead`: the word appears on `rdata`; nothing else of the block changes (20_memory R68, R77). -/
def State.busRead (s : State) (a : Offset) : State :=
  { s with rdata := s.readWord a (Config.freeWord s.draws), draws := s.draws + 1 }

/-- Writes the four lanes of `v` to word `w` of a buffer; the bytes become written (20_memory R65, R69). -/
def State.writeBufferWord (s : State) (base w : Nat) (v : Word) : State :=
  { s with mem := Memory.writeBytes s.mem (base + 4 * w) [lane v 0, lane v 1, lane v 2, lane v 3] }

/-- A write to CTRL (10_state R24, 70_reset_and_hazards R211, R220). -/
def State.writeCtrl (s : State) (v : Word) : State :=
  if v.getLsbD 1 then s.toReset else { s with ie := v.getLsbD 0 }

/-- A write while BUSY = 0, and a write to CTRL or STATUS at any time (20_memory R69). -/
def State.writeRegion (s : State) (v : Word) : Region → State
  | .reg .ctrl => s.writeCtrl v
  | .reg .status => s.clearFlags v
  | .reg .cmd => s.accept v
  | .reg .dlen => { s with dlen := v }
  | .reg .klen => { s with klen := v }
  | .reg .rounds => { s with rounds := v }
  | .reg .gsize => { s with gsize := v }
  | .kbuf w => s.writeBufferWord kbufBase w v
  | .dbuf w => s.writeBufferWord dbufBase w v
  | .reg .id | .reg .version | .reg .errcode | .reg .psize | .reg .ridx | .reg .capDbuf | .reg .capKbuf => s
  | .ptab _ => s
  | .reserved => s

/-- `MemWrite` (20_memory R69): while BUSY = 1 a write to anything but CTRL and STATUS is lost
(70_reset_and_hazards R219, R220). -/
def State.busWrite (s : State) (a : Offset) (v : Word) : State :=
  if s.status.busy && regionOf a != .reg .ctrl && regionOf a != .reg .status then s.lost
  else s.writeRegion v (regionOf a)

/-- An event at the ports. While `rst_n` is 0 the block accepts no host access (70_reset_and_hazards R210). -/
def State.portEvent (s : State) : Event → State
  | .busRead a => if s.rstN then s.busRead a else s
  | .busWrite a v => if s.rstN then s.busWrite a v else s
  | .rstN level => s.driveRstN level
  | .engine => s

end Sys2Proof.Machine
end

