-- ==== Sys2Proof/Machine/Codec.lean ====
section
/-! DEFINITION. NOP and DECODE (40_codec). The functions `encode` and `decode` stand in Machine/BitString.lean. -/

namespace Sys2Proof.Machine

/-- NOP completes (40_codec R110). -/
def execNop (s : State) : Host.Outcome State Fault Refusal := .next (s.complete false)

/-- The checks of DECODE, in order (40_codec R112). -/
def decodeChecks (s : State) : List (Bool × ErrKind) :=
  [ (overDbufBits s.lat.dlen, .lengthOutOfRange),
    (s.lat.dlen.toNat % 8 != 0, .malformedBitLength) ]

/-- DECODE checks that DBUF holds whole bytes; it reads and writes no byte (40_codec R112). -/
def execDecode (s : State) : Host.Outcome State Fault Refusal :=
  match firstError (decodeChecks s) with
  | some e => .next (s.raise e)
  | none => .next (s.complete false)

end Sys2Proof.Machine
end

