-- ==== Sys2Proof/Machine/Perm.lean ====
section
/-! DEFINITION. The keyed permutation: PERM_GEN, PERM_INV and PERM_APPLY (42_permutation). -/

namespace Sys2Proof.Machine

/-! ### The reference generator (42_permutation R132, R133) -/

/-- The hash of the round key's bytes before the zero check (42_permutation R132). -/
def seedHash (h : Word) : List Byte → Word
  | [] => h
  | k :: ks => seedHash ((h ^^^ k.setWidth 32) * 0x01000193) ks

/-- `seed32(k)` (42_permutation R132). -/
def seed32 (k : List Byte) : Word :=
  let h := seedHash 0x811C9DC5 k
  if h = 0 then 0x00000001 else h

/-- `next()`: the new generator state, which is also the value drawn (42_permutation R133). -/
def nextDraw (s : Word) : Word :=
  let x := s ^^^ (s <<< 13)
  let x := x ^^^ (x >>> 17)
  x ^^^ (x <<< 5)

/-! ### The functions (42_permutation R134, R137, R140) -/

/-- The identity table on 1..N (42_permutation R134). -/
def identityTable (N : Nat) : Table := (List.range N).map (· + 1)

/-- Exchanges the entries at two array indices (42_permutation R134). -/
def swapEntries (T : Table) (a b : Nat) : Table := (T.set a (T.getD b 0)).set b (T.getD a 0)

/-- The swaps of `generate`, the count first: each takes two draws modulo N (42_permutation R134). The second argument
is the generator state `s`, engine scratch of 10_state R42. -/
def genLoop (N : Nat) : Nat → Word → Table → Table
  | 0, _, T => T
  | r + 1, s, T =>
    let a := nextDraw s
    let b := nextDraw a
    genLoop N r b (swapEntries T (a.toNat % N) (b.toNat % N))

/-- `generate(roundKey, size)` (42_permutation R134). -/
def generate (k : List Byte) (N : Nat) : Table :=
  if k = [] then identityTable N else genLoop N (2 * N) (seed32 k) (identityTable N)

/-- The assignments `U[T[p-1] - 1] <- p` for the entries still to come, `p` the position of the first of them
(42_permutation R137). -/
def invertFrom (p : Nat) (U : Table) : Table → Table
  | [] => U
  | x :: T => invertFrom (p + 1) (U.set (x - 1) p) T

/-- `invert(table)` (42_permutation R137). -/
def invert (T : Table) : Table := invertFrom 1 (List.replicate T.length 0) T

/-- `applyPermutation(bits, table)` (42_permutation R140). -/
def applyPermutation (b : Bits) (T : Table) : Except ErrKind Bits :=
  if T.length ≠ b.length then .error .permutationSizeMismatch
  else .ok (T.map (fun x => b.getD (x - 1) false))

/-! ### The commands -/

/-- The checks of PERM_GEN, in order: KLEN before GSIZE (42_permutation R135, 90_conflicts C9). -/
def permGenChecks (s : State) : List (Bool × ErrKind) :=
  [ (overKbufBytes s.lat.klen, .lengthOutOfRange),
    (overDbufBits s.lat.gsize, .lengthOutOfRange) ]

/-- PERM_GEN (42_permutation R135). -/
def execPermGen (s : State) : Host.Outcome State Fault Refusal :=
  match firstError (permGenChecks s) with
  | some e => .next (s.raise e)
  | none =>
    match s.keyOperand with
    | none => .fault .uninitialisedOperand
    | some key =>
      .next (State.complete { s.storePtab (generate key s.lat.gsize.toNat) with psize := s.lat.gsize }
        (s.lat.klen == 0))

/-- PERM_INV (42_permutation R138). -/
def execPermInv (s : State) : Host.Outcome State Fault Refusal :=
  match s.tableOperand with
  | none => .fault .tableNotBijection
  | some T => .next ((s.storePtab (invert T)).complete false)

/-- The checks of PERM_APPLY, in order (42_permutation R141). -/
def permApplyChecks (s : State) : List (Bool × ErrKind) :=
  [ (overDbufBits s.lat.dlen, .lengthOutOfRange),
    (s.psize != s.lat.dlen, .permutationSizeMismatch) ]

/-- PERM_APPLY (42_permutation R141). -/
def execPermApply (s : State) : Host.Outcome State Fault Refusal :=
  match firstError (permApplyChecks s) with
  | some e => .next (s.raise e)
  | none =>
    match s.tableOperand with
    | none => .fault .tableNotBijection
    | some T => dataCommand s (fun b => applyPermutation b T)

end Sys2Proof.Machine
end

