-- ==== Sys2Proof/Machine/Subst.lean ====
section
/-! DEFINITION. Nibble substitution: SUBST_FWD and SUBST_INV (41_substitution). -/

namespace Sys2Proof.Machine

/-- SF, the document's `forward` (41_substitution R120). -/
def sboxFwd : List Nibble := [14, 4, 13, 1, 2, 15, 11, 8, 3, 10, 6, 12, 5, 9, 0, 7]

/-- SI, the document's `inverse` (41_substitution R120); it undoes SF and SF undoes it (R124). -/
def sboxInv : List Nibble := [14, 3, 4, 8, 1, 12, 10, 15, 7, 13, 9, 6, 11, 2, 0, 5]

/-- `t[x]`. -/
def sboxAt (t : List Nibble) (x : Nibble) : Nibble := t.getD x.toNat 0

/-- The nibble of a 4-bit group, most significant bit first (41_substitution R121). -/
def nibbleOfBits (b3 b2 b1 b0 : Bool) : Nibble :=
  BitVec.ofBool b3 ++ BitVec.ofBool b2 ++ BitVec.ofBool b1 ++ BitVec.ofBool b0

/-- Replaces each 4-bit group in order (41_substitution R121). -/
def substGroups (t : List Nibble) : Bits → Bits
  | b3 :: b2 :: b1 :: b0 :: rest =>
    let y := sboxAt t (nibbleOfBits b3 b2 b1 b0)
    y.getLsbD 3 :: y.getLsbD 2 :: y.getLsbD 1 :: y.getLsbD 0 :: substGroups t rest
  | short => short

/-- `substitute(bits, table)` (41_substitution R121). With SF and then SI, or SI and then SF, it restores every bit string of
whole groups (R124). -/
def substitute (b : Bits) (t : List Nibble) : Except ErrKind Bits :=
  if b.length % 4 ≠ 0 then .error .malformedNibbleLength else .ok (substGroups t b)

/-- The checks of SUBST_FWD and SUBST_INV, in order (41_substitution R122, R123). -/
def substChecks (s : State) : List (Bool × ErrKind) :=
  [ (overDbufBits s.lat.dlen, .lengthOutOfRange),
    (s.lat.dlen.toNat % 4 != 0, .malformedNibbleLength) ]

/-- The common shape of the two commands: their checks, then `substitute` on DBUF's bit string. -/
def substCommand (t : List Nibble) (s : State) : Host.Outcome State Fault Refusal :=
  match firstError (substChecks s) with
  | some e => .next (s.raise e)
  | none => dataCommand s (fun b => substitute b t)

/-- SUBST_FWD (41_substitution R122). -/
def execSubstFwd (s : State) : Host.Outcome State Fault Refusal := substCommand sboxFwd s

/-- SUBST_INV (41_substitution R123). -/
def execSubstInv (s : State) : Host.Outcome State Fault Refusal := substCommand sboxInv s

end Sys2Proof.Machine
end

