-- ==== Sys2Proof/Machine/Xor.lean ====
section
/-! DEFINITION. The keystream XOR (43_xor). -/

namespace Sys2Proof.Machine

/-- The data bits from index `i` on, each with the key bit `k[i mod len(k)]` (43_xor R150). -/
def xorFrom (k : Bits) (i : Nat) : Bits → Bits
  | [] => []
  | b :: rest => (b != k.getD (i % k.length) false) :: xorFrom k (i + 1) rest

/-- `xor(keyBits, dataBits)` (43_xor R150). -/
def xorBits (k d : Bits) : Except ErrKind Bits :=
  if k.length = 0 then .error .emptyKeystream else .ok (xorFrom k 0 d)

/-- The checks of XOR, in order (43_xor R151). -/
def xorChecks (s : State) : List (Bool × ErrKind) :=
  [ (overDbufBits s.lat.dlen, .lengthOutOfRange),
    (overKbufBytes s.lat.klen, .lengthOutOfRange),
    (s.lat.klen == 0, .emptyKeystream) ]

/-- XOR (43_xor R151). -/
def execXor (s : State) : Host.Outcome State Fault Refusal :=
  match firstError (xorChecks s) with
  | some e => .next (s.raise e)
  | none =>
    match s.keyOperand with
    | none => .fault .uninitialisedOperand
    | some key => dataCommand s (fun b => xorBits (encodeBytes key) b)

end Sys2Proof.Machine
end

