-- ==== Sys2Proof/Machine/Sched.lean ====
section
/-! DEFINITION. The round scheduler: ENCRYPT and DECRYPT (44_scheduler). -/

namespace Sys2Proof.Machine

/-- The digits of `i` in base 10 before the digits already found, at most as many as the first argument says. -/
def decimalDigits : Nat → Nat → List Byte → List Byte
  | 0, _, acc => acc
  | n + 1, i, acc =>
    let acc := (0x30#8 + BitVec.ofNat 8 (i % 10)) :: acc
    if i / 10 = 0 then acc else decimalDigits n (i / 10) acc

/-- `decimal(i)`: the ASCII digits, most significant first, with no sign and no leading zero. An index below 2^31 has at
most 10 digits (44_scheduler R161). -/
def decimal (i : Nat) : List Byte := decimalDigits 10 i []

/-- The round key `rk(i) = key ++ decimal(i)` (44_scheduler R161). -/
def roundKey (key : List Byte) (i : Nat) : List Byte := key ++ decimal i

/-- One round of `encrypt`, steps 2a to 2g (44_scheduler R162). -/
def encryptRound (key : List Byte) (i : Nat) (result : List Byte) : Except ErrKind (List Byte) := do
  let rk := roundKey key i
  let binaryKey := encodeBytes rk
  let binaryText := encodeBytes result
  let sub ← substitute binaryText sboxFwd
  let permuted ← applyPermutation sub (generate rk sub.length)
  let cipherBits ← xorBits binaryKey permuted
  decodeBits cipherBits

/-- One round of `decrypt`, steps 2a to 2g (44_scheduler R164). -/
def decryptRound (key : List Byte) (i : Nat) (result : List Byte) : Except ErrKind (List Byte) := do
  let rk := roundKey key i
  let binaryKey := encodeBytes rk
  let binaryText := encodeBytes result
  let xored ← xorBits binaryKey binaryText
  let permuted ← applyPermutation xored (invert (generate rk xored.length))
  let original ← substitute permuted sboxInv
  decodeBits original

/-- Rounds `0 .. n-1` of `encrypt`, in that order (44_scheduler R160, R162). -/
def encryptRounds (key m : List Byte) : Nat → Except ErrKind (List Byte)
  | 0 => .ok m
  | n + 1 => do
    let result ← encryptRounds key m n
    encryptRound key n result

/-- Rounds `n-1` down to `0` of `decrypt`, in that order (44_scheduler R160, R164). -/
def decryptRounds (key : List Byte) : Nat → List Byte → Except ErrKind (List Byte)
  | 0, result => .ok result
  | n + 1, result => do
    let result ← decryptRound key n result
    decryptRounds key n result

/-- `encrypt(key, message, rounds)` (44_scheduler R162). -/
def encrypt (key m : List Byte) (rounds : Nat) : Except ErrKind Bits := do
  let result ← encryptRounds key m rounds
  return encodeBytes result

/-- `decrypt(key, cipherBits, rounds)` (44_scheduler R164). -/
def decrypt (key : List Byte) (c : Bits) (rounds : Nat) : Except ErrKind (List Byte) := do
  let result ← decodeBits c
  decryptRounds key rounds result

/-- The checks of ENCRYPT and DECRYPT, in order (44_scheduler R163, R165). -/
def schedChecks (s : State) : List (Bool × ErrKind) :=
  [ (overDbufBits s.lat.dlen, .lengthOutOfRange),
    (overKbufBytes s.lat.klen, .lengthOutOfRange),
    (negativeRounds s.lat.rounds, .invalidRoundsValue),
    (s.lat.dlen.toNat % 8 != 0, .malformedBitLength) ]

/-- The side effects of a command that ran at least one round: the last round's table in PTAB, its size in PSIZE, the
last round's index in RIDX (44_scheduler R166), and its round key in RK (10_state R40; log entry 6). -/
def State.leaveRound (s : State) (T : Table) (i : Nat) (rk : List Byte) : State :=
  { s.storePtab T with psize := s.lat.dlen, ridx := BitVec.ofNat 32 i, rk := rk }

/-- The side effects of ENCRYPT with `r` rounds (44_scheduler R166). -/
def State.leaveEncrypt (s : State) (key : List Byte) (r : Nat) : State :=
  if r = 0 then s
  else s.leaveRound (generate (roundKey key (r - 1)) s.lat.dlen.toNat) (r - 1) (roundKey key (r - 1))

/-- The side effects of DECRYPT with `r` rounds (44_scheduler R166). -/
def State.leaveDecrypt (s : State) (key : List Byte) (r : Nat) : State :=
  if r = 0 then s
  else s.leaveRound (invert (generate (roundKey key 0) s.lat.dlen.toNat)) 0 (roundKey key 0)

/-- ENCRYPT (44_scheduler R163, R166). -/
def execEncrypt (s : State) : Host.Outcome State Fault Refusal :=
  match firstError (schedChecks s) with
  | some e => .next (s.raise e)
  | none =>
    match s.keyOperand, s.dataOperand with
    | some key, some m =>
      match encrypt key m s.lat.rounds.toNat with
      | .error e => .next (s.raise e)
      | .ok bits => .next (((s.storeBits m bits).leaveEncrypt key s.lat.rounds.toNat).complete false)
    | _, _ => .fault .uninitialisedOperand

/-- DECRYPT (44_scheduler R165, R166). -/
def execDecrypt (s : State) : Host.Outcome State Fault Refusal :=
  match firstError (schedChecks s) with
  | some e => .next (s.raise e)
  | none =>
    match s.keyOperand, s.dataOperand with
    | some key, some c =>
      match decrypt key (s.dataBits c) s.lat.rounds.toNat with
      | .error e => .next (s.raise e)
      | .ok bytes => .next (((s.storeDbuf bytes).leaveDecrypt key s.lat.rounds.toNat).complete false)
    | _, _ => .fault .uninitialisedOperand

end Sys2Proof.Machine
end

