-- ==== Sys2Proof/Machine/Dispatch.lean ====
section
/-! DEFINITION. One arm per command: each calls its meaning. -/

namespace Sys2Proof.Machine

def exec (i : Instr) (s : State) : Host.Outcome State Fault Refusal :=
  match i with
  | .nop => Sys2Proof.Machine.execNop s
  | .decode => Sys2Proof.Machine.execDecode s
  | .substFwd => Sys2Proof.Machine.execSubstFwd s
  | .substInv => Sys2Proof.Machine.execSubstInv s
  | .permGen => Sys2Proof.Machine.execPermGen s
  | .permInv => Sys2Proof.Machine.execPermInv s
  | .permApply => Sys2Proof.Machine.execPermApply s
  | .xor => Sys2Proof.Machine.execXor s
  | .encrypt => Sys2Proof.Machine.execEncrypt s
  | .decrypt => Sys2Proof.Machine.execDecrypt s

end Sys2Proof.Machine
end

