-- ==== Sys2Proof/Machine/Engine.lean ====
section
/-! DEFINITION. The engine's turn (60_exceptions R181) and placing a command where the engine runs it next. -/

namespace Sys2Proof.Machine

/-- Whether the engine has a command to run: BUSY = 1, and `rst_n` is 1 (60_exceptions R181,
70_reset_and_hazards R210). -/
def State.running (s : State) : Bool := s.rstN && s.status.busy

/-- The engine's turn: the command of the latched word runs to its completion in one transition (10_state R42,
60_exceptions R181); an illegal word completes with IllegalCommand (30_encoding R94); an idle engine does nothing. -/
def engineTurn (s : State) : Host.Outcome State Fault Refusal :=
  if s.running then
    match decodeWord s.lat.cmd with
    | .ok i => exec i s
    | .error _ => .next (s.raise .illegalCommand)
  else .next s

/-- A command word accepted as a CMD write accepts it, with the next turn given to the engine (log entry 9). -/
def State.placeCommand (s : State) (w : Word) : State :=
  { s.accept w with rstN := true, schedule := .engine :: s.schedule }

end Sys2Proof.Machine
end

