-- ==== Sys2Proof/Machine/Step.lean ====
section
/-! DEFINITION. One step of the machine: the next event of the schedule happens; with no event left the engine has the
turn (20_memory R72, 60_exceptions R181; log entry 8). -/

namespace Sys2Proof.Machine

/-- One step. -/
def step (s : State) : Host.Outcome State Fault Refusal :=
  match s.schedule with
  | [] => engineTurn s
  | .engine :: rest => engineTurn { s with schedule := rest }
  | .busRead a :: rest => .next (State.portEvent { s with schedule := rest } (.busRead a))
  | .busWrite a v :: rest => .next (State.portEvent { s with schedule := rest } (.busWrite a v))
  | .rstN level :: rest => .next (State.portEvent { s with schedule := rest } (.rstN level))

/-- The state with the command whose bits are `w` started, so that the next step runs it (log entry 9). -/
def State.withFetchWord (s : State) (nbits w : Nat) : State :=
  s.placeCommand (tableWord nbits w)

end Sys2Proof.Machine
end

