-- ==== Sys2Proof/Machine/HostProgram.lean ====
section
/-! DEFINITION. The host-program notation (30_encoding R96 to R98): each statement as the bus operations it stands for,
with the engine's turn placed where the statement waits for it. -/

namespace Sys2Proof.Machine

/-- A statement of a host program (30_encoding R96). -/
inductive Stmt where
  /-- `WR <reg>, <v>`. -/
  | wr (r : Reg) (v : Word)
  /-- `RD <reg>`. -/
  | rd (r : Reg)
  /-- `WRB KBUF, <bytes>`. -/
  | wrbKbuf (bytes : List Byte)
  /-- `WRB DBUF, <bytes>`. -/
  | wrbDbuf (bytes : List Byte)
  /-- `RDB DBUF, <n>`. -/
  | rdbDbuf (n : Nat)
  /-- `CMD <mnemonic>`. -/
  | cmd (i : Instr)
  /-- `WAIT`, with the number of polls that come before the completion: how often `R(0x00C)` is repeated is not fixed
  (70_reset_and_hazards R222; log entry 19). -/
  | wait (polls : Nat)
  /-- `CLR`. -/
  | clr
  deriving DecidableEq, Repr

/-- The offset of a byte position in the window. -/
def offsetAt (n : Nat) : Offset := BitVec.ofNat 20 n

/-- The words of a byte list, four bytes each in little-endian lanes, the last padded with 0x00 bytes
(30_encoding R96, 20_memory R65). -/
def wordsOfBytes : List Byte → List Word
  | [] => []
  | [b0] => [wordOfLanes b0 0 0 0]
  | [b0, b1] => [wordOfLanes b0 b1 0 0]
  | [b0, b1, b2] => [wordOfLanes b0 b1 b2 0]
  | b0 :: b1 :: b2 :: b3 :: rest => wordOfLanes b0 b1 b2 b3 :: wordsOfBytes rest

/-- `W(base + 4w, …)` for the words from `w` on (30_encoding R96). -/
def writeWords (base w : Nat) : List Word → List Event
  | [] => []
  | v :: vs => .busWrite (offsetAt (base + 4 * w)) v :: writeWords base (w + 1) vs

/-- The bus operations of a statement, and the engine's turn inside `WAIT` (30_encoding R96). -/
def Stmt.events : Stmt → List Event
  | .wr r v => [.busWrite (offsetAt r.offset) v]
  | .rd r => [.busRead (offsetAt r.offset)]
  | .wrbKbuf bytes => writeWords kbufBase 0 (wordsOfBytes bytes)
  | .wrbDbuf bytes => writeWords dbufBase 0 (wordsOfBytes bytes)
  | .rdbDbuf n => (List.range ((n + 3) / 4)).map (fun w => .busRead (offsetAt (dbufBase + 4 * w)))
  | .cmd i => [.busWrite (offsetAt Reg.cmd.offset) (encodeInstr i)]
  | .wait polls =>
    List.replicate polls (.busRead (offsetAt Reg.status.offset)) ++ [.engine, .busRead (offsetAt Reg.status.offset)]
  | .clr => [.busWrite (offsetAt Reg.status.offset) 0x0000001E]

/-- The events of a host program, statement after statement. -/
def programEvents (p : List Stmt) : List Event := p.flatMap Stmt.events

/-- A length as an operand register holds it. -/
def lengthWord (n : Nat) : Word := BitVec.ofNat 32 n

/-- `ENC key, msg, r` (30_encoding R97). -/
def encProgram (key msg : List Byte) (r : Word) : List Stmt :=
  [ .wrbKbuf key, .wr .klen (lengthWord key.length), .wrbDbuf msg, .wr .dlen (lengthWord (8 * msg.length)),
    .wr .rounds r, .cmd .encrypt, .wait 0 ]

/-- `DEC key, bits, r`, the bit string packed in bytes with its length in bits (30_encoding R97). -/
def decProgram (key packed : List Byte) (len : Nat) (r : Word) : List Stmt :=
  [ .wrbKbuf key, .wr .klen (lengthWord key.length), .wrbDbuf packed, .wr .dlen (lengthWord len),
    .wr .rounds r, .cmd .decrypt, .wait 0 ]

/-- `ENCSTEP key, i`; `dlen` is the current value of DLEN (30_encoding R98). -/
def encStep (key : List Byte) (i : Nat) (dlen : Word) : List Stmt :=
  [ .wrbKbuf (roundKey key i), .wr .klen (lengthWord (roundKey key i).length), .wr .gsize dlen,
    .cmd .substFwd, .wait 0, .cmd .permGen, .wait 0, .cmd .permApply, .wait 0, .cmd .xor, .wait 0 ]

/-- `DECSTEP key, i`; `dlen` is the current value of DLEN (30_encoding R98). -/
def decStep (key : List Byte) (i : Nat) (dlen : Word) : List Stmt :=
  [ .wrbKbuf (roundKey key i), .wr .klen (lengthWord (roundKey key i).length), .wr .gsize dlen,
    .cmd .xor, .wait 0, .cmd .permGen, .wait 0, .cmd .permInv, .wait 0, .cmd .permApply, .wait 0,
    .cmd .substInv, .wait 0 ]

end Sys2Proof.Machine
end

