-- ==== Sys2Proof/Safety.lean ====
section
/-! DEFINITION. What claims are stated in terms of: the invariant of the block, the completion states, written operands,
and the state a step leaves. -/

namespace Sys2Proof.Machine

/-! ### The invariant -/

/-- The offsets of KBUF and DBUF bytes below capacity (20_memory R64). -/
def bufferOffset (a : Nat) : Bool :=
  decide (kbufBase ≤ a ∧ a < kbufBase + Config.kbufBytes) || decide (dbufBase ≤ a ∧ a < dbufBase + Config.dbufBytes)

/-- The written bytes are in canonical form and belong to KBUF or DBUF (20_memory R64, R66). -/
def State.MemoryInv (s : State) : Prop := Memory.wf s.mem = true ∧ ∀ c ∈ s.mem, bufferOffset c.1 = true

/-- `PTAB[0..PSIZE-1]` is a bijection onto 1..PSIZE, and PSIZE is at most DBUF_BITS (10_state R32, R39). -/
def State.TableInv (s : State) : Prop :=
  s.ptab.length = s.psize.toNat ∧ s.psize.toNat ≤ Config.dbufBits ∧ isTable s.table = true

/-- While BUSY = 1: `rst_n` is released, DONE, ERR and WEAK are clear, ERRCODE is 0, and the latched values equal the
live registers (60_exceptions R180, 10_state R41). -/
def State.BusyInv (s : State) : Prop :=
  s.status.busy = true →
    s.rstN = true ∧ s.status.done = false ∧ s.status.err = false ∧ s.status.weak = false ∧ s.errcode = 0 ∧
      s.lat = ⟨s.cmd, s.dlen, s.klen, s.rounds, s.gsize⟩

/-- ERRCODE holds 0 or the code of an error kind; ERR goes with a code other than 0 and never with WEAK
(60_exceptions R182 to R184). -/
def State.CodeInv (s : State) : Prop :=
  (s.errcode = 0 ∨ ∃ e : ErrKind, s.errcode = e.code) ∧ (s.status.err = true → s.errcode ≠ 0 ∧ s.status.weak = false)

/-- RIDX is at most 2^31 - 2 (10_state R44) and RK fits its register (10_state R40). -/
def State.RoundInv (s : State) : Prop := s.ridx.toNat ≤ 2 ^ 31 - 2 ∧ s.rk.length ≤ Config.rkBytes

/-- The invariant every step keeps. -/
def State.Inv (s : State) : Prop := s.MemoryInv ∧ s.TableInv ∧ s.BusyInv ∧ s.CodeInv ∧ s.RoundInv

/-! ### Operands and completion states -/

/-- The data operand `DBUF.byte[0..ceil(DLEN/8)-1]` is written (20_memory R66). -/
def State.dataWritten (s : State) : Prop := ∀ j < (s.lat.dlen.toNat + 7) / 8, (s.dbufByte j).isSome = true

/-- The key operand `KBUF.byte[0..KLEN-1]` is written (20_memory R66). -/
def State.keyWritten (s : State) : Prop := ∀ j < s.lat.klen.toNat, (s.kbufByte j).isSome = true

/-- `s` with the completion state of a success and nothing else changed (60_exceptions R182). -/
def State.succeeded (s : State) (weak : Bool) : State :=
  { s with errcode := 0x00, status := ⟨false, true, false, weak, s.status.ovr⟩ }

/-- `s` with the completion state of an error and nothing else changed (60_exceptions R183). -/
def State.failedWith (s : State) (code : Byte) : State :=
  { s with errcode := code, status := ⟨false, true, true, false, s.status.ovr⟩ }

/-- The block is out of reset and idle: a CMD write would be accepted (60_exceptions R180). -/
def State.idle (s : State) : Bool := s.rstN && !s.status.busy

/-! ### Safe steps -/

/-- The next state of a step, none where it stops. -/
def nextState (o : Host.Outcome State Fault Refusal) : Option State :=
  match o with
  | .next s => some s
  | .fault _ => none
  | .refused _ => none

/-- A step is safe when it gives a next state: neither a fault nor a refusal. -/
def safeStep (s : State) : Bool := (nextState (step s)).isSome

/-- A command run from an idle block: its word is accepted, then the engine has its turn. -/
def runCommand (i : Instr) (s : State) : Option State := nextState (exec i (s.accept (encodeInstr i)))

/-- Commands run one after the other. -/
def runCommands : List Instr → State → Option State
  | [], s => some s
  | i :: is, s =>
    match runCommand i s with
    | some t => runCommands is t
    | none => none

end Sys2Proof.Machine
end

