-- ==== Sys2Proof/Certificates/Slice0/Obligations.lean ====
section
/-! DEFINITION. The statements about the model. Each docstring names the rules of spec/ it states. Capacities are written
as the numbers of 00_scope R6: 2048 = DBUF_BITS, 64 = KBUF_BYTES; 0x02000 is DBUF's window offset, 0x01000 KBUF's. -/

open Sys2Proof Sys2Proof.Machine

namespace Sys2Proof.Claims

/-- The forward table as 41_substitution R120 lists it. -/
def forwardTable : List Nat := [14, 4, 13, 1, 2, 15, 11, 8, 3, 10, 6, 12, 5, 9, 0, 7]

/-- The inverse table as 41_substitution R120 lists it. -/
def inverseTable : List Nat := [14, 3, 4, 8, 1, 12, 10, 15, 7, 13, 9, 6, 11, 2, 0, 5]

/-- The rows of 30_encoding R91: the word and the command it selects. -/
def opcodeMap : List (Word × Instr) :=
  [(0x00000000, .nop), (0x00000001, .decode), (0x00000002, .substFwd), (0x00000003, .substInv), (0x00000004, .permGen),
    (0x00000005, .permInv), (0x00000006, .permApply), (0x00000007, .xor), (0x00000008, .encrypt), (0x00000009, .decrypt)]

/-- The 4-bit group `g` of DBUF's bit string has the value `x`, most significant bit first (41_substitution R121). -/
def groupIs (s : State) (g x : Nat) : Prop :=
  s.dbufBit (4 * g) = some (x.testBit 3) ∧ s.dbufBit (4 * g + 1) = some (x.testBit 2) ∧
    s.dbufBit (4 * g + 2) = some (x.testBit 1) ∧ s.dbufBit (4 * g + 3) = some (x.testBit 0)

/-- `t` is `s` completed with success and only DBUF bits below the latched DLEN changed: every other field but memory is
as before apart from the completion state, every DBUF bit from DLEN on reads as before, and so does every byte of
memory outside `DBUF.byte[0..ceil(DLEN/8)-1]` (20_memory R63, 60_exceptions R182). -/
def onlyDataChanged (s t : State) : Prop :=
  { t with mem := s.mem } = s.succeeded false ∧
    (∀ i, s.lat.dlen.toNat ≤ i → t.dbufBit i = s.dbufBit i) ∧
    (∀ a, a < 0x02000 ∨ 0x02000 + (s.lat.dlen.toNat + 7) / 8 ≤ a → Memory.read t.mem a = Memory.read s.mem a)

/-- What SUBST_FWD and SUBST_INV do with their table (41_substitution R122, R123). -/
def substBehaviour (table : List Nat) (i : Instr) : Prop :=
  ∀ s : State,
    (2048 < s.lat.dlen.toNat → exec i s = .next (s.failedWith 0x11)) ∧
    (s.lat.dlen.toNat ≤ 2048 → s.lat.dlen.toNat % 4 ≠ 0 → exec i s = .next (s.failedWith 0x02)) ∧
    (s.lat.dlen.toNat ≤ 2048 → s.lat.dlen.toNat % 4 = 0 → ¬s.dataWritten →
      exec i s = .fault .uninitialisedOperand) ∧
    (s.lat.dlen.toNat ≤ 2048 → s.lat.dlen.toNat % 4 = 0 → s.dataWritten →
      ∃ t, exec i s = .next t ∧ onlyDataChanged s t ∧
        ∀ g x, 4 * g < s.lat.dlen.toNat → x < 16 → groupIs s g x → groupIs t g (table.getD x 0))

/-- The checks of ENCRYPT and DECRYPT and the operands they need (44_scheduler R163, R165). -/
def schedulerChecks (i : Instr) : Prop :=
  ∀ s : State,
    (2048 < s.lat.dlen.toNat → exec i s = .next (s.failedWith 0x11)) ∧
    (s.lat.dlen.toNat ≤ 2048 → 64 < s.lat.klen.toNat → exec i s = .next (s.failedWith 0x11)) ∧
    (s.lat.dlen.toNat ≤ 2048 → s.lat.klen.toNat ≤ 64 → s.lat.rounds.getLsbD 31 = true →
      exec i s = .next (s.failedWith 0x05)) ∧
    (s.lat.dlen.toNat ≤ 2048 → s.lat.klen.toNat ≤ 64 → s.lat.rounds.getLsbD 31 = false → s.lat.dlen.toNat % 8 ≠ 0 →
      exec i s = .next (s.failedWith 0x01)) ∧
    (s.lat.dlen.toNat ≤ 2048 → s.lat.klen.toNat ≤ 64 → s.lat.rounds.getLsbD 31 = false → s.lat.dlen.toNat % 8 = 0 →
      ¬(s.dataWritten ∧ s.keyWritten) → exec i s = .fault .uninitialisedOperand)

/-- The operands with which ENCRYPT and DECRYPT run to success: `key` and `bytes` are what KBUF and DBUF hold. -/
def schedulerOperands (s : State) (key bytes : List Byte) : Prop :=
  s.lat.dlen.toNat ≤ 2048 ∧ s.lat.klen.toNat ≤ 64 ∧ s.lat.rounds.getLsbD 31 = false ∧
    s.lat.dlen.toNat = 8 * bytes.length ∧ s.lat.klen.toNat = key.length ∧
    (∀ j < bytes.length, s.dbufByte j = bytes[j]?) ∧ (∀ j < key.length, s.kbufByte j = key[j]?)

/-- `t` is `s` completed with success with `bytes` in DBUF; the results of the round loop are in PTAB, PSIZE, RIDX and RK,
and everything else is as before. -/
def schedulerFrame (s t : State) (bytes : List Byte) : Prop :=
  { t with mem := s.mem, ptab := s.ptab, psize := s.psize, ridx := s.ridx, rk := s.rk } = s.succeeded false ∧
    (∀ j < bytes.length, t.dbufByte j = bytes[j]?) ∧
    (∀ a, a < 0x02000 ∨ 0x02000 + bytes.length ≤ a → Memory.read t.mem a = Memory.read s.mem a)

/-- A state right after reset: the machine's first state, the state a write of CTRL.SRST leaves, and the state after
`rst_n` has gone to 0 and back to 1 (10_state R46). -/
def afterReset (u : State) : Prop :=
  u = State.reset ∨ (∃ (s : State) (a : Offset) (v : Word), a.toNat / 4 = 2 ∧ v.getLsbD 1 = true ∧ u = s.busWrite a v) ∨
    ∃ s : State, u = (s.driveRstN false).driveRstN true

/-- The draws of the generator from a state: draw `n` is the state after `n + 1` steps (42_permutation R133). -/
def draw (seed : Word) : Nat → Word
  | 0 => nextDraw seed
  | n + 1 => nextDraw (draw seed n)

/-- The table `U` is `T` with the entries at `a` and `b` exchanged. -/
def exchanged (T U : Table) (a b : Nat) : Prop :=
  U.length = T.length ∧ ∀ j, U[j]? = if j = a then T[b]? else if j = b then T[a]? else T[j]?

/-- The words whose reads are open while a command runs: the DBUF words, the PTAB words, PSIZE and RIDX
(70_reset_and_hazards R218). -/
def openWhileBusy (a : Offset) : Prop :=
  0x800 ≤ a.toNat / 4 ∧ a.toNat / 4 < 0x840 ∨ 0x10000 ≤ a.toNat / 4 ∧ a.toNat / 4 < 0x10800 ∨ a.toNat / 4 = 10 ∨
    a.toNat / 4 = 11

/-- The block is idle, out of reset, with operand registers and buffers that hold a key and a message for the round
scheduler (44_scheduler R163). -/
def loaded (s : State) (key bytes : List Byte) : Prop :=
  s.idle = true ∧ s.dlen.toNat ≤ 2048 ∧ s.klen.toNat ≤ 64 ∧ s.rounds.getLsbD 31 = false ∧
    s.dlen.toNat = 8 * bytes.length ∧ s.klen.toNat = key.length ∧
    (∀ j < bytes.length, s.dbufByte j = bytes[j]?) ∧ (∀ j < key.length, s.kbufByte j = key[j]?)

/-- The block is idle with data of DLEN bits in DBUF. -/
def dataLoaded (s : State) : Prop :=
  s.idle = true ∧ s.dlen.toNat ≤ 2048 ∧ ∀ j < (s.dlen.toNat + 7) / 8, (s.dbufByte j).isSome = true

/-- The next step is a turn of the engine: it stands first in the schedule, or the schedule is empty (log entry 8). -/
def engineHasTurn (s : State) : Prop := s.schedule = [] ∨ ∃ rest, s.schedule = .engine :: rest

/-- `u` is the outcome `t` of a command but for IE and OVR, which no command writes: they are those of the state `v` the
command ran from. The read port and the model's counter of reads are left out of the comparison. -/
def sameResults (t u v : State) : Prop :=
  u.ie = v.ie ∧ u.status.ovr = v.status.ovr ∧
    { u with ie := t.ie, status := { u.status with ovr := t.status.ovr }, rdata := t.rdata, draws := t.draws } = t

/-- `v` is an idle state with the DBUF bytes and the DLEN of `u`: the host has written neither between them. -/
def sameData (u v : State) : Prop := v.idle = true ∧ v.dlen = u.dlen ∧ ∀ j, v.dbufByte j = u.dbufByte j

/-- Running the commands one after the other from `u` succeeds and gives DBUF.bit[0..DLEN-1] of `s` back, whatever the
host does before each of them that leaves DBUF, DLEN and the operands `same` speaks of alone. -/
def restores (same : State → State → Prop) (s u : State) : List Instr → Prop
  | [] => ∀ i < s.dlen.toNat, u.dbufBit i = s.dbufBit i
  | i :: is => ∀ v, sameData u v → same u v →
      ∃ t, runCommand i v = some t ∧ t.status.err = false ∧ restores same s t is

end Sys2Proof.Claims

open Sys2Proof.Claims

/-! ### Encoding -/

/-- 30_encoding R90, R91: the ten words of the opcode map, written out, and nothing else of their neighbourhood. -/
def Obligations.OpcodeMapWords : Prop :=
  decodeWord 0x00000000 = .ok .nop ∧ decodeWord 0x00000001 = .ok .decode ∧ decodeWord 0x00000002 = .ok .substFwd ∧
    decodeWord 0x00000003 = .ok .substInv ∧ decodeWord 0x00000004 = .ok .permGen ∧ decodeWord 0x00000005 = .ok .permInv ∧
    decodeWord 0x00000006 = .ok .permApply ∧ decodeWord 0x00000007 = .ok .xor ∧ decodeWord 0x00000008 = .ok .encrypt ∧
    decodeWord 0x00000009 = .ok .decrypt ∧ decodeWord 0x0000000A = .error .reservedOpcode ∧
    decodeWord 0x00000108 = .error .reservedBits

/-- 30_encoding R91: a word selects a command only when all 32 bits equal the match of its row; so decoding an encoded
command gives it back, and a word that decodes is its encoding. -/
def Obligations.WordDecodesExactlyWhenEncoded : Prop :=
  (∀ (w : Word) (i : Instr), decodeWord w = .ok i ↔ (w, i) ∈ opcodeMap) ∧
    (∀ (w : Word) (i : Instr), decodeWord w = .ok i ↔ w = encodeInstr i)

/-- 30_encoding R94: a word is refused, by name, exactly when RSVD is not 0 or OPC is in 0x0A..0xFF. -/
def Obligations.DecoderRefusesExactlyIllegalWords : Prop :=
  ∀ w : Word,
    (decodeWord w = .error .reservedBits ↔ w.toNat / 256 ≠ 0) ∧
    (decodeWord w = .error .reservedOpcode ↔ w.toNat / 256 = 0 ∧ 0x0A ≤ w.toNat % 256)

/-- 30_encoding R94: an illegal word written to CMD is accepted and stored, starts, and completes with IllegalCommand; no
operand is checked and nothing else changes. -/
def Obligations.IllegalWordCompletesWithIllegalCommand : Prop :=
  ∀ (s : State) (w : Word) (rest : List Event),
    s.idle = true → (w.toNat / 256 ≠ 0 ∨ 0x0A ≤ w.toNat % 256) →
    s.schedule = .busWrite 0x00010 w :: .engine :: rest →
    ∃ u t, step s = .next u ∧ u.cmd = w ∧ u.status.busy = true ∧ step u = .next t ∧
      t = { s with
        cmd := w, lat := ⟨w, s.dlen, s.klen, s.rounds, s.gsize⟩, errcode := 0x10,
        status := ⟨false, true, true, false, s.status.ovr⟩, schedule := rest }

/-! ### The step -/

/-- A step runs the decoded command: with a command in progress whose latched word decodes to `i`, the engine's turn is
`exec i`, with the turn taken off the schedule; the engine has the turn when the schedule is empty. And the word the host
places runs in the next step, from the state in which its CMD write was accepted (log entry 9). -/
def Obligations.StepRunsDecodedCommand : Prop :=
  (∀ (s : State) (i : Instr), s.rstN = true → s.status.busy = true → decodeWord s.lat.cmd = .ok i →
    (s.schedule = [] → step s = exec i s) ∧
    (∀ rest, s.schedule = .engine :: rest → step s = exec i { s with schedule := rest })) ∧
  (∀ (s : State) (i : Instr),
    step (s.withFetchWord 32 (encodeInstr i).toNat) = exec i { s.accept (encodeInstr i) with rstN := true })

/-- Events at the ports happen one at a time, in order; an idle engine does nothing (20_memory R72; log entry 8). -/
def Obligations.PortEventsHappenInOrder : Prop :=
  ∀ (s : State) (rest : List Event),
    (∀ a, s.rstN = true → s.schedule = .busRead a :: rest →
      step s = .next (State.busRead { s with schedule := rest } a)) ∧
    (∀ a v, s.rstN = true → s.schedule = .busWrite a v :: rest →
      step s = .next (State.busWrite { s with schedule := rest } a v)) ∧
    (s.status.busy = false → s.schedule = .engine :: rest → step s = .next { s with schedule := rest }) ∧
    (s.status.busy = false → s.schedule = [] → step s = .next s)

/-- 60_exceptions R180: what a command start does, for every accepted word, legal or illegal; a CMD write while busy is no
start. -/
def Obligations.CommandStartLatchesAndClears : Prop :=
  ∀ (s : State) (a : Offset) (v : Word), a.toNat / 4 = 4 →
    (s.status.busy = false →
      s.busWrite a v =
        { s with
          cmd := v, lat := ⟨v, s.dlen, s.klen, s.rounds, s.gsize⟩, errcode := 0x00,
          status := ⟨true, false, false, false, s.status.ovr⟩ } ∧
      (s.busWrite a v).irq = false) ∧
    (s.status.busy = true → s.busWrite a v = { s with status := { s.status with ovr := true } })

/-- 60_exceptions R181, 70_reset_and_hazards R222: with its operands written, the command in progress ends in the
engine's next turn, and BUSY is 0 afterwards; an illegal word ends too. (A length over capacity needs no operand: it ends
the command with an error.) -/
def Obligations.AcceptedCommandCompletes : Prop :=
  ∀ s : State, s.Inv → s.status.busy = true → s.schedule = [] → (s.lat.dlen.toNat ≤ 2048 → s.dataWritten) →
    (s.lat.klen.toNat ≤ 64 → s.keyWritten) →
    ∃ t, step s = .next t ∧ t.status.busy = false ∧ t.status.done = true

/-! ### The bus -/

/-- 70_reset_and_hazards R219: while busy a write to anything but CTRL and STATUS changes nothing but OVR, which it sets;
and a step clears OVR only by a write of 1 to STATUS bit 4, a soft reset, or `rst_n`: a command start keeps it. -/
def Obligations.BusyWriteIsLost : Prop :=
  (∀ (s : State) (a : Offset) (v : Word), s.status.busy = true → a.toNat / 4 ≠ 2 → a.toNat / 4 ≠ 3 →
    s.busWrite a v = { s with status := { s.status with ovr := true } }) ∧
  (∀ s t : State, s.status.ovr = true → step s = .next t → t.status.ovr = false →
    ∃ rest, (∃ a v, s.schedule = .busWrite a v :: rest ∧
        (a.toNat / 4 = 3 ∧ v.getLsbD 4 = true ∨ a.toNat / 4 = 2 ∧ v.getLsbD 1 = true)) ∨
      (∃ level, s.schedule = .rstN level :: rest))

/-- 70_reset_and_hazards R220 with 10_state R24, R25, R46: writes to CTRL and STATUS act at once, busy or not, and neither
sets OVR. In the soft reset's state the registers, the flags and the unwritten bytes are R46's; LAT = 0, RK empty and
`rdata` kept, with the empty PTAB and the model's own two fields kept, are the model's choices (log entries 5, 6, 12 and
15). -/
def Obligations.CtrlAndStatusWritesAct : Prop :=
  ∀ (s : State) (a : Offset) (v : Word),
    (a.toNat / 4 = 2 → v.getLsbD 1 = false → s.busWrite a v = { s with ie := v.getLsbD 0 }) ∧
    (a.toNat / 4 = 2 → v.getLsbD 1 = true →
      s.busWrite a v =
        { s with
          ie := false, status := ⟨false, false, false, false, false⟩, cmd := 0, errcode := 0, dlen := 0, klen := 0,
          rounds := 0, gsize := 0, psize := 0, ridx := 0, mem := [], ptab := [], rk := [], lat := ⟨0, 0, 0, 0, 0⟩,
          rstN := true }) ∧
    (a.toNat / 4 = 3 →
      s.busWrite a v =
        { s with
          status :=
            { busy := s.status.busy, done := s.status.done && !v.getLsbD 1, err := s.status.err && !v.getLsbD 2,
              weak := s.status.weak && !v.getLsbD 3, ovr := s.status.ovr && !v.getLsbD 4 } })

/-- 70_reset_and_hazards R211: a soft reset is a hardware reset, busy or not; the write's other bits are discarded and
CTRL reads 0 afterwards. -/
def Obligations.SoftResetIsHardwareReset : Prop :=
  ∀ (s : State) (a : Offset) (v free : Word), s.rstN = true → a.toNat / 4 = 2 → v.getLsbD 1 = true →
    s.busWrite a v = (s.driveRstN false).driveRstN true ∧ (s.busWrite a v).readWord a free = 0 ∧
      (s.busWrite a v).status.done = false ∧ (s.busWrite a v).irq = false

/-- 70_reset_and_hazards R210: while `rst_n` is 0 no host access is accepted and the engine does not run; when it returns
to 1 the state is the reset state, idle, with DONE and irq 0 and every buffer byte unwritten. (LAT, RK and PTAB of that
state, the fields kept over the reset, and the registers while `rst_n` is 0 are the model's: log entries 5, 6, 12, 15 and
10.) -/
def Obligations.HardwareResetHoldsTheBlock : Prop :=
  ∀ (s : State) (rest : List Event),
    (s.rstN = false → ∀ a v, (s.schedule = .busWrite a v :: rest ∨ s.schedule = .busRead a :: rest ∨
        s.schedule = .engine :: rest) → step s = .next { s with schedule := rest }) ∧
    (s.rstN = false → s.schedule = .rstN true :: rest → ∃ t, step s = .next t ∧
      t = { State.reset with rdata := s.rdata, draws := s.draws, schedule := rest } ∧ t.irq = false ∧
        t.status.busy = false ∧ t.status.done = false ∧ ∀ j, t.dbufByte j = none ∧ t.kbufByte j = none) ∧
    (s.schedule = .rstN false :: rest → ∃ t, step s = .next t ∧
      t.rstN = false ∧ t.irq = false ∧ t.status.busy = false ∧ t.status.done = false)

/-- 10_state R46: what a host reads right after the machine's start, after a soft reset and after a hardware reset, and
that every buffer byte is unwritten then; the constant registers read the same in every state. -/
def Obligations.ResetRegisterReads : Prop :=
  (∀ (s : State) (free : Word), s.readWord 0x000 free = 0x53424F58 ∧ s.readWord 0x004 free = 0x00070001 ∧
    s.readWord 0x030 free = 0x100 ∧ s.readWord 0x034 free = 0x40) ∧
  (∀ (u : State) (free : Word), afterReset u →
    u.readWord 0x000 free = 0x53424F58 ∧ u.readWord 0x004 free = 0x00070001 ∧
    u.readWord 0x008 free = 0 ∧ u.readWord 0x00C free = 0 ∧ u.readWord 0x010 free = 0 ∧
    u.readWord 0x014 free = 0 ∧ u.readWord 0x018 free = 0 ∧ u.readWord 0x01C free = 0 ∧
    u.readWord 0x020 free = 0 ∧ u.readWord 0x024 free = 0 ∧ u.readWord 0x028 free = 0 ∧
    u.readWord 0x02C free = 0 ∧ u.readWord 0x030 free = 0x100 ∧ u.readWord 0x034 free = 0x40 ∧ u.irq = false ∧
    (∀ j, u.kbufByte j = none ∧ u.dbufByte j = none) ∧
    (∀ a : Offset, 0x40000 ≤ a.toNat → u.readWord a free = 0))

/-- 20_memory R70: bits 1:0 of an address are ignored, on reads and on writes. -/
def Obligations.LowAddressBitsIgnored : Prop :=
  ∀ (s : State) (a b : Offset) (v free : Word), a.toNat / 4 = b.toNat / 4 →
    s.readWord a free = s.readWord b free ∧ s.busWrite a v = s.busWrite b v

/-- 20_memory R68: a read changes nothing of the block but the `rdata` port (and the model's own counter of reads). -/
def Obligations.ReadChangesOnlyReadData : Prop :=
  ∀ (s t : State) (a : Offset) (rest : List Event), s.rstN = true → s.schedule = .busRead a :: rest → step s = .next t →
    t = { s with rdata := t.rdata, draws := t.draws, schedule := rest } ∧
      t.rdata = s.readWord a (Config.freeWord s.draws)

/-- 20_memory R65, R69: an idle write to a KBUF or DBUF word writes its four bytes in little-endian lanes, changes no
other byte and no other field, and reads back. -/
def Obligations.BufferWordWriteReadsBack : Prop :=
  ∀ (s : State) (a : Offset) (v free : Word), s.status.busy = false →
    (0x400 ≤ a.toNat / 4 ∧ a.toNat / 4 < 0x410 ∨ 0x800 ≤ a.toNat / 4 ∧ a.toNat / 4 < 0x840) →
    { s.busWrite a v with mem := s.mem } = s ∧
      (∀ j < 4, Memory.read (s.busWrite a v).mem (4 * (a.toNat / 4) + j) = some (v.extractLsb' (8 * j) 8)) ∧
      (∀ c, c / 4 ≠ a.toNat / 4 → Memory.read (s.busWrite a v).mem c = Memory.read s.mem c) ∧
      (s.busWrite a v).readWord a free = v

/-- 20_memory R66 (host reads): an idle read of a KBUF or DBUF word returns each written byte in its lane and the free
word's lane for an unwritten byte. -/
def Obligations.UnwrittenByteReadsFree : Prop :=
  ∀ (s : State) (a : Offset) (free : Word) (j : Nat), s.status.busy = false →
    (0x400 ≤ a.toNat / 4 ∧ a.toNat / 4 < 0x410 ∨ 0x800 ≤ a.toNat / 4 ∧ a.toNat / 4 < 0x840) → j < 4 →
    (s.readWord a free).extractLsb' (8 * j) 8 =
      (Memory.read s.mem (4 * (a.toNat / 4) + j)).getD (free.extractLsb' (8 * j) 8)

/-- 20_memory R69 with 10_state R28 to R31: an idle write to an operand register stores all 32 bits, changes nothing else,
and reads back; an idle write to a read-only register changes nothing. -/
def Obligations.OperandRegisterWritesReadBack : Prop :=
  ∀ (s : State) (a : Offset) (v free : Word), s.status.busy = false →
    (a.toNat / 4 = 6 → s.busWrite a v = { s with dlen := v } ∧ (s.busWrite a v).readWord a free = v) ∧
    (a.toNat / 4 = 7 → s.busWrite a v = { s with klen := v } ∧ (s.busWrite a v).readWord a free = v) ∧
    (a.toNat / 4 = 8 → s.busWrite a v = { s with rounds := v } ∧ (s.busWrite a v).readWord a free = v) ∧
    (a.toNat / 4 = 9 → s.busWrite a v = { s with gsize := v } ∧ (s.busWrite a v).readWord a free = v) ∧
    (a.toNat / 4 < 2 ∨ a.toNat / 4 = 5 ∨ 10 ≤ a.toNat / 4 ∧ a.toNat / 4 < 14 → s.busWrite a v = s)

/-- 20_memory R67: reads of the PTAB window, and writes to it. -/
def Obligations.PtabWindowIsReadOnly : Prop :=
  ∀ (s : State) (a : Offset) (k : Nat) (v free : Word), s.TableInv → a.toNat / 4 = 0x10000 + k → k < 2048 →
    (s.status.busy = false → k < s.psize.toNat →
      ∃ e, s.ptab[k]? = some e ∧ s.readWord a free = e.setWidth 32 ∧ 1 ≤ (s.readWord a free).toNat ∧
        (s.readWord a free).toNat ≤ s.psize.toNat) ∧
    (s.status.busy = false → s.psize.toNat ≤ k → s.readWord a free = 0) ∧
    (s.status.busy = false → s.busWrite a v = s) ∧
    (s.status.busy = true → s.busWrite a v = { s with status := { s.status with ovr := true } })

/-- 20_memory R81, 10_state R36: reserved and beyond-capacity offsets read as 0 and ignore writes, except that a write
while busy sets OVR. -/
def Obligations.ReservedOffsetsReadZero : Prop :=
  ∀ (s : State) (a : Offset) (v free : Word),
    (14 ≤ a.toNat / 4 ∧ a.toNat / 4 < 0x400 ∨ 0x410 ≤ a.toNat / 4 ∧ a.toNat / 4 < 0x800 ∨
      0x840 ≤ a.toNat / 4 ∧ a.toNat / 4 < 0x10000 ∨ 0x10800 ≤ a.toNat / 4) →
    s.readWord a free = 0 ∧ (s.status.busy = false → s.busWrite a v = s) ∧
      (s.status.busy = true → s.busWrite a v = { s with status := { s.status with ovr := true } })

/-- 70_reset_and_hazards R218: while busy a read of a DBUF word, a PTAB word, PSIZE or RIDX is a free word; any other read
returns what it would return idle, STATUS with BUSY = 1, ERRCODE 0, and CMD the running command's word. -/
def Obligations.BusyReadsAreFreeOrNormal : Prop :=
  ∀ (s : State) (a : Offset) (free : Word), s.BusyInv → s.status.busy = true →
    (openWhileBusy a → s.readWord a free = free) ∧
    (¬openWhileBusy a → a.toNat / 4 ≠ 3 →
      s.readWord a free = State.readWord { s with status := { s.status with busy := false } } a free) ∧
    (a.toNat / 4 = 3 → (s.readWord a free).getLsbD 0 = true ∧
      s.readWord a free = 0x01 + State.readWord { s with status := { s.status with busy := false } } a free) ∧
    (a.toNat / 4 = 4 → s.readWord a free = s.lat.cmd) ∧
    (a.toNat / 4 = 5 → s.readWord a free = 0) ∧
    (a.toNat / 4 = 6 → s.readWord a free = s.dlen) ∧ (a.toNat / 4 = 7 → s.readWord a free = s.klen) ∧
    (a.toNat / 4 = 8 → s.readWord a free = s.rounds) ∧ (a.toNat / 4 = 9 → s.readWord a free = s.gsize) ∧
    (∀ j < 4, 0x400 ≤ a.toNat / 4 → a.toNat / 4 < 0x410 → (s.readWord a free).extractLsb' (8 * j) 8 =
      (Memory.read s.mem (4 * (a.toNat / 4) + j)).getD (free.extractLsb' (8 * j) 8))

/-- 60_exceptions R186, 10_state R43: irq is IE and DONE in every state; so it is IE after every completion, success or
error, of a command and of an illegal word, and 0 after a command start, a write of 1 to STATUS.DONE, and a reset. That
irq is 0 already while `rst_n` is 0 is the model's reading (log entry 10). -/
def Obligations.InterruptFollowsCompletion : Prop :=
  (∀ s : State, s.irq = (s.ie && s.status.done)) ∧
    (∀ (i : Instr) (s t : State), exec i s = .next t → t.status.done = true ∧ t.irq = s.ie) ∧
    (∀ s t : State, s.rstN = true → s.status.busy = true → engineHasTurn s → step s = .next t →
      t.status.done = true ∧ t.irq = s.ie) ∧
    (∀ (s : State) (v : Word), (s.accept v).irq = false) ∧
    (∀ (s : State) (a : Offset) (v : Word), a.toNat / 4 = 3 → v.getLsbD 1 = true → (s.busWrite a v).irq = false) ∧
    (∀ (s : State) (a : Offset) (v : Word), a.toNat / 4 = 2 → v.getLsbD 1 = true → (s.busWrite a v).irq = false) ∧
    (∀ s : State, (s.driveRstN false).irq = false ∧ ((s.driveRstN false).driveRstN true).irq = false)

/-! ### The commands -/

/-- 40_codec R110: NOP completes from every state and changes nothing but the completion state. -/
def Obligations.NopCompletes : Prop := ∀ s : State, exec .nop s = .next (s.succeeded false)

/-- 40_codec R112: DECODE's checks in order; it reads and writes no byte. -/
def Obligations.DecodeChecksWholeBytes : Prop :=
  ∀ s : State,
    (2048 < s.lat.dlen.toNat → exec .decode s = .next (s.failedWith 0x11)) ∧
    (s.lat.dlen.toNat ≤ 2048 → s.lat.dlen.toNat % 8 ≠ 0 → exec .decode s = .next (s.failedWith 0x01)) ∧
    (s.lat.dlen.toNat ≤ 2048 → s.lat.dlen.toNat % 8 = 0 → exec .decode s = .next (s.succeeded false))

/-- 40_codec R111, R113: `encode` gives 8 bits a byte, most significant first; `decode(encode(B)) = B`; on whole bytes
decode succeeds and encode gives the bit string back; otherwise decode fails with MalformedBitLength; and both are the
identity on the stored bits of DBUF. -/
def Obligations.CodecRoundTrips : Prop :=
  (∀ bytes : List Byte, (encodeBytes bytes).length = 8 * bytes.length ∧
    ∀ i < 8 * bytes.length, ∃ v, bytes[i / 8]? = some v ∧ (encodeBytes bytes)[i]? = some (v.getLsbD (7 - i % 8))) ∧
    (∀ bytes : List Byte, decodeBits (encodeBytes bytes) = .ok bytes) ∧
    (∀ b : Bits, b.length % 8 = 0 →
      ∃ bytes, decodeBits b = .ok bytes ∧ 8 * bytes.length = b.length ∧ encodeBytes bytes = b) ∧
    (∀ b : Bits, b.length % 8 ≠ 0 → decodeBits b = .error .malformedBitLength) ∧
    (∀ (s : State) (bytes : List Byte) (i : Nat), (∀ j < bytes.length, s.dbufByte j = bytes[j]?) →
      i < 8 * bytes.length → (encodeBytes bytes)[i]? = s.dbufBit i)

/-- 41_substitution R122, R123 (with R120, R121, R125): SUBST_FWD and SUBST_INV. -/
def Obligations.SubstitutionsReplaceGroups : Prop :=
  substBehaviour forwardTable .substFwd ∧ substBehaviour inverseTable .substInv

/-- 41_substitution R124: each substitution undoes the other, on bit strings of whole groups and as commands with no write
to DBUF or DLEN between. -/
def Obligations.SubstitutionsUndoEachOther : Prop :=
  (∀ b : Bits, b.length % 4 = 0 →
    (∃ c, substitute b sboxFwd = .ok c ∧ substitute c sboxInv = .ok b) ∧
    (∃ c, substitute b sboxInv = .ok c ∧ substitute c sboxFwd = .ok b)) ∧
  (∀ s : State, dataLoaded s → s.dlen.toNat % 4 = 0 →
    restores (fun _ _ => True) s s [.substFwd, .substInv] ∧ restores (fun _ _ => True) s s [.substInv, .substFwd])

/-- 42_permutation R132, R133: the seed is the hash of the key bytes in order and is never 0; a draw is the three
shift-and-xor steps, in exact arithmetic modulo 2^32, and is never 0 from a state that is not 0. -/
def Obligations.GeneratorSeedsAndDraws : Prop :=
  (∀ k : List Byte,
    let h := k.foldl (fun h b => (Nat.xor h b.toNat * 0x01000193) % 2 ^ 32) 0x811C9DC5
    (seed32 k).toNat = (if h = 0 then 1 else h) ∧ seed32 k ≠ 0) ∧
  (∀ s : Word,
    let x := Nat.xor s.toNat (s.toNat * 2 ^ 13 % 2 ^ 32)
    let y := Nat.xor x (x / 2 ^ 17)
    (nextDraw s).toNat = Nat.xor y (y * 2 ^ 5 % 2 ^ 32) ∧ (s ≠ 0 → nextDraw s ≠ 0))

/-- 42_permutation R134: `generate` starts from the identity, returns it for the empty key, and otherwise makes exactly
2·N swaps, swap `r` of the positions draw `2r` mod N and draw `2r + 1` mod N. -/
def Obligations.GenerateMakesTwoNSwaps : Prop :=
  ∀ (k : List Byte) (N : Nat),
    (k = [] → ∀ j < N, (generate k N)[j]? = some (j + 1)) ∧
    (k ≠ [] → ∃ T : Nat → Table,
      ((T 0).length = N ∧ ∀ j < N, (T 0)[j]? = some (j + 1)) ∧
      (∀ r < 2 * N, exchanged (T r) (T (r + 1)) ((draw (seed32 k) (2 * r)).toNat % N)
        ((draw (seed32 k) (2 * r + 1)).toNat % N)) ∧
      generate k N = T (2 * N)) ∧
    isTable (generate k N) = true ∧ (generate k N).length = N

/-- 42_permutation R135: PERM_GEN. -/
def Obligations.PermGenStoresGeneratedTable : Prop :=
  ∀ s : State,
    (64 < s.lat.klen.toNat → exec .permGen s = .next (s.failedWith 0x11)) ∧
    (s.lat.klen.toNat ≤ 64 → 2048 < s.lat.gsize.toNat → exec .permGen s = .next (s.failedWith 0x11)) ∧
    (s.lat.klen.toNat ≤ 64 → s.lat.gsize.toNat ≤ 2048 → ¬s.keyWritten →
      exec .permGen s = .fault .uninitialisedOperand) ∧
    (∀ key : List Byte, s.lat.klen.toNat ≤ 64 → s.lat.gsize.toNat ≤ 2048 → key.length = s.lat.klen.toNat →
      (∀ j < key.length, s.kbufByte j = key[j]?) →
      ∃ t, exec .permGen s = .next t ∧
        { t with ptab := s.ptab, psize := s.psize } = s.succeeded (decide (s.lat.klen = 0)) ∧
        t.psize = s.lat.gsize ∧ t.ptab.map BitVec.toNat = generate key s.lat.gsize.toNat ∧ t.TableInv ∧
        (s.lat.klen = 0 → ∀ j < s.lat.gsize.toNat, (t.ptab[j]?).map BitVec.toNat = some (j + 1)))

/-- 42_permutation R136: PERM_GEN is a function of the key bytes and GSIZE only. -/
def Obligations.PermGenIsDeterministic : Prop :=
  ∀ s s' t t' : State, s.lat.klen = s'.lat.klen → s.lat.gsize = s'.lat.gsize →
    (∀ j < s.lat.klen.toNat, s.kbufByte j = s'.kbufByte j) →
    exec .permGen s = .next t → exec .permGen s' = .next t' → t.status.err = false →
    t'.status.err = false ∧ t.ptab = t'.ptab ∧ t.psize = t'.psize

/-- 42_permutation R138, R137: PERM_INV from a state whose table is a bijection: the inverse table, PSIZE kept, and
PERM_INV twice restores the table. -/
def Obligations.PermInvStoresInverse : Prop :=
  ∀ s : State, s.TableInv →
    ∃ t, exec .permInv s = .next t ∧ { t with ptab := s.ptab } = s.succeeded false ∧
      t.TableInv ∧
      (∀ j < s.psize.toNat, ∃ e, s.ptab[j]? = some e ∧ (t.ptab[e.toNat - 1]?).map BitVec.toNat = some (j + 1)) ∧
      ∃ u, exec .permInv t = .next u ∧ u.ptab = s.ptab ∧ u.psize = s.psize

/-- 93 U15, 10_state R39 (log entry 13): where PTAB holds no bijection of PSIZE entries, which no reachable state does,
PERM_INV stops by name, and so does PERM_APPLY once its checks pass. -/
def Obligations.NonBijectionStops : Prop :=
  ∀ s : State, ¬(s.table.length = s.psize.toNat ∧ isTable s.table = true) →
    exec .permInv s = .fault .tableNotBijection ∧
      (s.lat.dlen.toNat ≤ 2048 → s.psize = s.lat.dlen → exec .permApply s = .fault .tableNotBijection)

/-- 42_permutation R141, R140: PERM_APPLY. -/
def Obligations.PermApplyReordersBits : Prop :=
  ∀ s : State,
    (2048 < s.lat.dlen.toNat → exec .permApply s = .next (s.failedWith 0x11)) ∧
    (s.lat.dlen.toNat ≤ 2048 → s.psize ≠ s.lat.dlen → exec .permApply s = .next (s.failedWith 0x03)) ∧
    (s.TableInv → s.psize = s.lat.dlen → ¬s.dataWritten → exec .permApply s = .fault .uninitialisedOperand) ∧
    (s.TableInv → s.psize = s.lat.dlen → s.dataWritten →
      ∃ t, exec .permApply s = .next t ∧ onlyDataChanged s t ∧
        ∀ i < s.lat.dlen.toNat, ∃ e, s.ptab[i]? = some e ∧ 1 ≤ e.toNat ∧ e.toNat ≤ s.lat.dlen.toNat ∧
          t.dbufBit i = s.dbufBit (e.toNat - 1))

/-- 42_permutation R139: applying a table and then its inverse gives the bit string back; PERM_APPLY, PERM_INV, PERM_APPLY
with no write to DBUF, DLEN or PTAB between restores DBUF. -/
def Obligations.PermutationInverseLaw : Prop :=
  (∀ (T : Table) (b : Bits), isTable T = true → T.length = b.length →
    ∃ c, applyPermutation b T = .ok c ∧ applyPermutation c (invert T) = .ok b) ∧
  (∀ s : State, dataLoaded s → s.TableInv → s.psize = s.dlen →
    restores (fun u v => v.ptab = u.ptab ∧ v.psize = u.psize) s s [.permApply, .permInv, .permApply])

/-- 43_xor R151, R150: XOR. -/
def Obligations.XorRepeatsTheKey : Prop :=
  ∀ s : State,
    (2048 < s.lat.dlen.toNat → exec .xor s = .next (s.failedWith 0x11)) ∧
    (s.lat.dlen.toNat ≤ 2048 → 64 < s.lat.klen.toNat → exec .xor s = .next (s.failedWith 0x11)) ∧
    (s.lat.dlen.toNat ≤ 2048 → s.lat.klen = 0 → exec .xor s = .next (s.failedWith 0x04)) ∧
    (s.lat.dlen.toNat ≤ 2048 → s.lat.klen.toNat ≤ 64 → s.lat.klen ≠ 0 → ¬(s.dataWritten ∧ s.keyWritten) →
      exec .xor s = .fault .uninitialisedOperand) ∧
    (s.lat.dlen.toNat ≤ 2048 → s.lat.klen.toNat ≤ 64 → s.lat.klen ≠ 0 → s.dataWritten → s.keyWritten →
      ∃ t, exec .xor s = .next t ∧ onlyDataChanged s t ∧
        ∀ i < s.lat.dlen.toNat, ∃ d k, s.dbufBit i = some d ∧ s.keyBit (i % (8 * s.lat.klen.toNat)) = some k ∧
          t.dbufBit i = some (d != k))

/-- 43_xor R152: xor with the same key twice gives the data back; two XOR commands with no write to DBUF, DLEN, KBUF or
KLEN between restore DBUF. -/
def Obligations.XorIsAnInvolution : Prop :=
  (∀ k d : Bits, k ≠ [] → ∃ c, xorBits k d = .ok c ∧ xorBits k c = .ok d) ∧
  (∀ s : State, dataLoaded s → s.klen.toNat ≤ 64 → s.klen ≠ 0 →
    (∀ j < s.klen.toNat, (s.kbufByte j).isSome = true) →
    restores (fun u v => v.klen = u.klen ∧ ∀ j, v.kbufByte j = u.kbufByte j) s s [.xor, .xor])

/-- 44_scheduler R161: `decimal(i)` has 1 to 10 digits 0x30..0x39, no leading zero but for `"0"`, and the value `i`; the
round key is the key bytes followed by it. -/
def Obligations.RoundKeyEndsInDecimalIndex : Prop :=
  ∀ (key : List Byte) (i : Nat), i < 10 ^ 10 →
    roundKey key i = key ++ decimal i ∧ 1 ≤ (decimal i).length ∧ (decimal i).length ≤ 10 ∧
    (∀ d ∈ decimal i, 0x30 ≤ d.toNat ∧ d.toNat ≤ 0x39) ∧
    ((decimal i).head? = some 0x30 → decimal i = [0x30]) ∧
    (decimal i).foldl (fun n d => 10 * n + (d.toNat - 0x30)) 0 = i

/-- 44_scheduler R162, R160, R171: `encrypt` of 0 rounds is the encoding of the message; round `r` substitutes with SF,
permutes by the generated table of rk(r), and xors with the bits of rk(r), in increasing order of the round index. -/
def Obligations.EncryptRoundsCompose : Prop :=
  ∀ (key m : List Byte) (r : Nat),
    encrypt key m 0 = .ok (encodeBytes m) ∧
    ∀ c, encrypt key m r = .ok c →
      ∃ sub permuted out, substitute c sboxFwd = .ok sub ∧
        applyPermutation sub (generate (roundKey key r) sub.length) = .ok permuted ∧
        xorBits (encodeBytes (roundKey key r)) permuted = .ok out ∧ encrypt key m (r + 1) = .ok out

/-- 44_scheduler R164, R160, R171: `decrypt` of 0 rounds decodes its input; with `r + 1` rounds, round `r` comes first: it
xors with the bits of rk(r), permutes by the inverse of the generated table of rk(r), and substitutes with SI, and the
rounds below follow. A bit string of no whole number of bytes fails with MalformedBitLength. -/
def Obligations.DecryptRoundsCompose : Prop :=
  ∀ (key : List Byte) (c : Bits) (r : Nat),
    decrypt key c 0 = decodeBits c ∧
    (c.length % 8 ≠ 0 → decrypt key c r = .error .malformedBitLength) ∧
    (c.length % 8 = 0 →
      ∃ xored permuted out, xorBits (encodeBytes (roundKey key r)) c = .ok xored ∧
        applyPermutation xored (invert (generate (roundKey key r) xored.length)) = .ok permuted ∧
        substitute permuted sboxInv = .ok out ∧ decrypt key c (r + 1) = decrypt key out r)

/-- 44_scheduler R163, R162, R166: ENCRYPT's checks in order; with them passed and its operands written it completes with
the encryption in DBUF; with ROUNDS ≥ 1 the last round's table, its size and its index are in PTAB, PSIZE and RIDX, and
with ROUNDS = 0 those are unchanged. (Nothing is said of RK, log entry 6.) -/
def Obligations.EncryptStoresEncryption : Prop :=
  schedulerChecks .encrypt ∧
  ∀ (s : State) (key m : List Byte), schedulerOperands s key m →
    ∃ t c, exec .encrypt s = .next t ∧ encrypt key m s.lat.rounds.toNat = .ok (encodeBytes c) ∧
      c.length = m.length ∧ schedulerFrame s t c ∧
      (s.lat.rounds = 0 → t.ptab = s.ptab ∧ t.psize = s.psize ∧ t.ridx = s.ridx) ∧
      (s.lat.rounds ≠ 0 → t.psize = s.lat.dlen ∧ t.ridx = s.lat.rounds - 1 ∧
        t.ptab.map BitVec.toNat = generate (roundKey key (s.lat.rounds.toNat - 1)) s.lat.dlen.toNat)

/-- 44_scheduler R165, R164, R166: DECRYPT's checks in order; with them passed and its operands written it completes with
the decryption in DBUF; with ROUNDS ≥ 1 the inverse of round 0's table, its size and index 0 are in PTAB, PSIZE and RIDX,
and with ROUNDS = 0 those are unchanged. (Nothing is said of RK, log entry 6.) -/
def Obligations.DecryptStoresDecryption : Prop :=
  schedulerChecks .decrypt ∧
  ∀ (s : State) (key c : List Byte), schedulerOperands s key c →
    ∃ t m, exec .decrypt s = .next t ∧ decrypt key (encodeBytes c) s.lat.rounds.toNat = .ok m ∧
      m.length = c.length ∧ schedulerFrame s t m ∧
      (s.lat.rounds = 0 → t.ptab = s.ptab ∧ t.psize = s.psize ∧ t.ridx = s.ridx) ∧
      (s.lat.rounds ≠ 0 → t.psize = s.lat.dlen ∧ t.ridx = 0 ∧
        t.ptab.map BitVec.toNat = invert (generate (roundKey key 0) s.lat.dlen.toNat))

/-- 44_scheduler R169: with ROUNDS = 0 a successful ENCRYPT or DECRYPT leaves memory, PTAB, PSIZE and RIDX unchanged, the
encryption of a message is its bit encoding for every key, and the start checks still apply. -/
def Obligations.ZeroRoundsChangeNothing : Prop :=
  (∀ (i : Instr) (s t : State), i = .encrypt ∨ i = .decrypt → s.lat.rounds = 0 → exec i s = .next t →
    (t.status.err = false → (∀ a, Memory.read t.mem a = Memory.read s.mem a) ∧ t.ptab = s.ptab ∧ t.psize = s.psize ∧
      t.ridx = s.ridx) ∧
    (s.lat.dlen = 7 → s.lat.klen.toNat ≤ 64 → t = s.failedWith 0x01)) ∧
  (∀ key m : List Byte, encrypt key m 0 = .ok (encodeBytes m) ∧ decrypt key (encodeBytes m) 0 = .ok m)

/-- 44_scheduler R170: no error arises inside a round, whatever the key, the bytes and the number of rounds, and ENCRYPT
and DECRYPT never set WEAK. -/
def Obligations.RoundsNeverFail : Prop :=
  (∀ (key m : List Byte) (r : Nat), ∃ c, encrypt key m r = .ok c ∧ c.length = 8 * m.length) ∧
    (∀ (key : List Byte) (c : Bits) (r : Nat), c.length % 8 = 0 →
      ∃ m, decrypt key c r = .ok m ∧ 8 * m.length = c.length) ∧
    (∀ (s t : State), exec .encrypt s = .next t ∨ exec .decrypt s = .next t → t.status.weak = false)

/-- 44_scheduler R168: the correctness contract, for every key, message and round count, of the functions and of the
hardware: ENCRYPT succeeds, and DECRYPT from any idle state `v` that holds the same DBUF and KBUF operand bytes, DLEN,
KLEN and ROUNDS as the state `u` ENCRYPT left (so whatever else the host did between them) succeeds and restores DBUF. -/
def Obligations.DecryptUndoesEncrypt : Prop :=
  (∀ (key m : List Byte) (r : Nat), ∃ c, encrypt key m r = .ok c ∧ decrypt key c r = .ok m) ∧
  ∀ (s : State) (key m : List Byte), loaded s key m →
    ∃ u, runCommand .encrypt s = some u ∧ u.status.err = false ∧
      ∀ v : State, v.idle = true → v.dlen = u.dlen → v.klen = u.klen → v.rounds = u.rounds →
        (∀ j < m.length, v.dbufByte j = u.dbufByte j) → (∀ j < key.length, v.kbufByte j = u.kbufByte j) →
        ∃ t, runCommand .decrypt v = some t ∧ t.status.err = false ∧ ∀ j < m.length, t.dbufByte j = m[j]?

/-- 44_scheduler R167 (one round): with rk(i) in KBUF and GSIZE = DLEN, the primitive commands SUBST_FWD, PERM_GEN,
PERM_APPLY, XOR leave in DBUF what encrypt round `i` makes of it, and the round's table in PTAB. -/
def Obligations.PrimitiveCommandsMakeEncryptRound : Prop :=
  ∀ (s : State) (key m : List Byte) (i : Nat), loaded s (roundKey key i) m → s.gsize = s.dlen →
    ∃ t out, runCommands [.substFwd, .permGen, .permApply, .xor] s = some t ∧ encryptRound key i m = .ok out ∧
      t.status.err = false ∧ (∀ j < m.length, t.dbufByte j = out[j]?) ∧ t.psize = s.dlen ∧
      t.ptab.map BitVec.toNat = generate (roundKey key i) s.dlen.toNat

/-- 44_scheduler R167 (one round): XOR, PERM_GEN, PERM_INV, PERM_APPLY, SUBST_INV leave in DBUF what decrypt round `i`
makes of it, and the inverse of the round's table in PTAB. -/
def Obligations.PrimitiveCommandsMakeDecryptRound : Prop :=
  ∀ (s : State) (key c : List Byte) (i : Nat), loaded s (roundKey key i) c → s.gsize = s.dlen →
    ∃ t m, runCommands [.xor, .permGen, .permInv, .permApply, .substInv] s = some t ∧ decryptRound key i c = .ok m ∧
      t.status.err = false ∧ (∀ j < c.length, t.dbufByte j = m[j]?) ∧ t.psize = s.dlen ∧
      t.ptab.map BitVec.toNat = invert (generate (roundKey key i) s.dlen.toNat)

/-- 30_encoding R96, 20_memory R69: the bus operations of `WRB KBUF, <bytes>` and `WRB DBUF, <bytes>` on an idle block
leave the bytes in the buffer from byte 0 on, and every byte of the window outside the words written as before. -/
def Obligations.WrbLoadsTheBuffer : Prop :=
  ∀ (s : State) (bytes : List Byte) (rest : List Event), s.idle = true →
    (bytes.length ≤ 64 → s.schedule = (Stmt.wrbKbuf bytes).events ++ rest →
      ∃ t, core.run (Stmt.wrbKbuf bytes).events.length s = .next t ∧
        { t with mem := s.mem } = { s with schedule := rest } ∧
        (∀ j < bytes.length, t.kbufByte j = bytes[j]?) ∧
        (∀ a, a < 0x01000 ∨ 0x01000 + 4 * ((bytes.length + 3) / 4) ≤ a → Memory.read t.mem a = Memory.read s.mem a)) ∧
    (bytes.length ≤ 256 → s.schedule = (Stmt.wrbDbuf bytes).events ++ rest →
      ∃ t, core.run (Stmt.wrbDbuf bytes).events.length s = .next t ∧
        { t with mem := s.mem } = { s with schedule := rest } ∧
        (∀ j < bytes.length, t.dbufByte j = bytes[j]?) ∧
        (∀ a, a < 0x02000 ∨ 0x02000 + 4 * ((bytes.length + 3) / 4) ≤ a → Memory.read t.mem a = Memory.read s.mem a))

/-! ### Rules about every command and every step -/

/-- 60_exceptions R181 to R183, R188: every command that gives a next state has completed, BUSY 0, DONE 1, OVR kept; with
an error it ends with the code of one error kind and changes nothing else, and otherwise ERRCODE is 0. -/
def Obligations.EveryCommandEndsInOneCompletion : Prop :=
  ∀ (i : Instr) (s t : State), exec i s = .next t →
    t.status.busy = false ∧ t.status.done = true ∧ t.status.ovr = s.status.ovr ∧
      (t.status.err = true → ∃ e : ErrKind, t = s.failedWith e.code ∧ t.errcode ≠ 0) ∧
      (t.status.err = false → t.errcode = 0)

/-- 30_encoding R92, 10_state R28 to R31, R37: no command writes KBUF, an operand register, CMD, CTRL, or anything at the
ports. -/
def Obligations.CommandsWriteOnlyResults : Prop :=
  ∀ (i : Instr) (s t : State), exec i s = .next t →
    t.ie = s.ie ∧ t.cmd = s.cmd ∧ t.dlen = s.dlen ∧ t.klen = s.klen ∧ t.rounds = s.rounds ∧ t.gsize = s.gsize ∧
      t.lat = s.lat ∧ t.rstN = s.rstN ∧ t.rdata = s.rdata ∧ t.draws = s.draws ∧ t.schedule = s.schedule ∧
      ∀ a, a < 0x02000 → Memory.read t.mem a = Memory.read s.mem a

/-- 20_memory R63, R66: no command changes a DBUF bit at an index from the latched DLEN on, or makes a byte written or
unwritten. -/
def Obligations.NoBitPastDlenChanges : Prop :=
  ∀ (i : Instr) (s t : State), exec i s = .next t →
    (∀ j, s.lat.dlen.toNat ≤ j → t.dbufBit j = s.dbufBit j) ∧
      (∀ a, (Memory.read t.mem a).isSome = (Memory.read s.mem a).isSome)

/-- 10_state R25, R45, 42_permutation R135: in one step WEAK becomes 1 only by a turn of the engine that runs PERM_GEN with
KLEN = 0. -/
def Obligations.OnlyPermGenSetsWeak : Prop :=
  ∀ s t : State, step s = .next t → s.status.weak = false → t.status.weak = true →
    decodeWord s.lat.cmd = .ok .permGen ∧ s.lat.klen = 0 ∧ s.status.busy = true ∧ engineHasTurn s

/-- 10_state R39, R32: in one step PTAB or PSIZE changes only by a reset or a turn of the engine that runs PERM_GEN,
PERM_INV, ENCRYPT or DECRYPT. -/
def Obligations.OnlyTableCommandsWritePtab : Prop :=
  ∀ s t : State, step s = .next t → (t.ptab ≠ s.ptab ∨ t.psize ≠ s.psize) →
    (∃ i, decodeWord s.lat.cmd = .ok i ∧ s.rstN = true ∧ s.status.busy = true ∧ engineHasTurn s ∧
      (i = .permGen ∨ i = .permInv ∨ i = .encrypt ∨ i = .decrypt)) ∨
    (∃ rest a v, s.schedule = .busWrite a v :: rest ∧ a.toNat / 4 = 2 ∧ v.getLsbD 1 = true) ∨
    (∃ rest level, s.schedule = .rstN level :: rest)

/-- 10_state R37: in one step a KBUF byte changes only by a host write to its word while idle, or by a reset. -/
def Obligations.OnlyHostWritesKbuf : Prop :=
  ∀ (s t : State) (j : Nat), j < 64 → step s = .next t → t.kbufByte j ≠ s.kbufByte j →
    (∃ rest a v, s.schedule = .busWrite a v :: rest ∧
      (s.status.busy = false ∧ a.toNat / 4 = 0x400 + j / 4 ∨ a.toNat / 4 = 2 ∧ v.getLsbD 1 = true)) ∨
    (∃ rest level, s.schedule = .rstN level :: rest)

/-- 60_exceptions R197, 20_memory R66: from a state whose table is a bijection a command stops only with
UninitialisedOperand, and only when a KBUF byte below KLEN or a DBUF byte below ceil(DLEN/8) is unwritten; no command is
refused. -/
def Obligations.StopsOnlyOnUnwrittenOperand : Prop :=
  ∀ (i : Instr) (s : State), s.TableInv →
    (∀ f, exec i s = .fault f → f = .uninitialisedOperand ∧ ¬(s.dataWritten ∧ s.keyWritten)) ∧
    (∀ r, exec i s ≠ .refused r)

/-- 20_memory R75, 70_reset_and_hazards R218 to R220: a host access between the start and the completion, a read or a
write of any word, STATUS and CTRL with SRST = 0 among them, reaches nothing of the running command: it completes with the
same results, apart from IE and OVR, which are what the access left, and the read port. A soft reset aborts the command
(R211) and is left out. -/
def Obligations.HostAccessDoesNotReachCommand : Prop :=
  ∀ (i : Instr) (s t : State) (e : Event), s.rstN = true → s.status.busy = true →
    ((∃ a, e = .busRead a) ∨ ∃ a v, e = .busWrite a v ∧ ¬(a.toNat / 4 = 2 ∧ v.getLsbD 1 = true)) →
    exec i s = .next t →
    ∃ u, exec i (s.portEvent e) = .next u ∧ sameResults t u (s.portEvent e)

/-- 10_state R45: no command reads a flag of STATUS, or CTRL.IE, and none changes what a command computes: with any other
flags it stops with the same fault, or completes with the same results. -/
def Obligations.NoFlagChangesACommand : Prop :=
  ∀ (i : Instr) (s : State) (flags : Status) (ie : Bool),
    (∀ t, exec i s = .next t →
      ∃ u, exec i { s with status := flags, ie := ie } = .next u ∧
        sameResults t u { s with status := flags, ie := ie }) ∧
    (∀ f, exec i s = .fault f → exec i { s with status := flags, ie := ie } = .fault f)

/-- The invariant of the block holds at reset. -/
def Obligations.InvariantHoldsAtReset : Prop := State.reset.Inv

/-- Every step keeps the invariant of the block: the written bytes canonical and inside KBUF and DBUF (20_memory R64, R66),
PTAB a bijection onto 1..PSIZE with PSIZE at most DBUF_BITS (10_state R32, R39), the latched values equal to the live
registers while busy (10_state R41), only listed error codes (60_exceptions R184), RIDX and RK in range (10_state R40,
R44). -/
def Obligations.StepKeepsInvariant : Prop :=
  ∀ s t : State, s.Inv → step s = .next t → t.Inv
end

