-- ==== Sys2Proof/Laws/Memory.lean ====
section
/-! SUPPORT. The laws of the byte memory that holds KBUF and DBUF: a read after a write, and the canonical form. -/

namespace Sys2Proof.Machine

/-- A read after a write: the written byte at its offset, every other byte as before. -/
theorem Memory.read_write (m : Memory) (a c : Nat) (v : Byte) :
    Memory.read (Memory.write m a v) c = if c = a then some v else Memory.read m c := by
  induction m with
  | nil => simp only [Memory.write, Memory.read, eq_comm (a := a)]
  | cons cell m ih =>
    obtain ⟨b, x⟩ := cell
    simp only [Memory.write]
    split
    · simp only [Memory.read, eq_comm (a := c)]
    · split
      · next h => subst h; by_cases hc : a = c <;> simp [Memory.read, hc, eq_comm]
      · simp only [Memory.read, ih]
        by_cases hb : b = c
        · subst hb; simp [Ne.symm ‹¬a = b›]
        · simp [hb]

/-- An entry after a write is the written one or an old one. -/
theorem Memory.mem_write {m : Memory} {a : Nat} {v : Byte} {c : Host.Cell} (h : c ∈ Memory.write m a v) :
    c = (a, v) ∨ c ∈ m := by
  induction m with
  | nil => simpa [Memory.write] using h
  | cons cell m ih =>
    obtain ⟨b, x⟩ := cell
    simp only [Memory.write] at h
    split at h
    · simpa using h
    · split at h
      · rcases List.mem_cons.1 h with h | h
        · exact .inl h
        · exact .inr (List.mem_cons_of_mem _ h)
      · rcases List.mem_cons.1 h with h | h
        · exact .inr (h ▸ List.mem_cons_self)
        · exact (ih h).imp id (List.mem_cons_of_mem _)

/-- The canonical form, one entry at a time. -/
theorem Memory.wf_cons {b : Nat} {x : Byte} {m : Memory} :
    Memory.wf ((b, x) :: m) = true ↔ (∀ c ∈ m, b < c.1) ∧ Memory.wf m = true := by
  simp only [Memory.wf, List.map_cons, List.pairwise_cons, List.mem_map, decide_eq_true_eq]
  grind

/-- A write keeps the canonical form. -/
theorem Memory.write_wf {m : Memory} (h : Memory.wf m = true) (a : Nat) (v : Byte) :
    Memory.wf (Memory.write m a v) = true := by
  induction m with
  | nil => simp [Memory.write, Memory.wf]
  | cons cell m ih =>
    obtain ⟨b, x⟩ := cell
    have ⟨hb, hm⟩ := Memory.wf_cons.1 h
    simp only [Memory.write]
    split
    · refine Memory.wf_cons.2 ⟨fun c hc => ?_, h⟩
      rcases List.mem_cons.1 hc with rfl | hc
      · assumption
      · exact lt_trans ‹a < b› (hb c hc)
    · split
      · next hab => exact Memory.wf_cons.2 ⟨fun c hc => hab ▸ hb c hc, hm⟩
      · refine Memory.wf_cons.2 ⟨fun c hc => ?_, ih hm⟩
        rcases Memory.mem_write hc with rfl | hc
        · exact lt_of_le_of_ne (not_lt.1 ‹¬a < b›) (Ne.symm ‹¬a = b›)
        · exact hb c hc

/-- Writing consecutive bytes keeps the canonical form. -/
theorem Memory.writeBytes_wf {m : Memory} (h : Memory.wf m = true) (a : Nat) (vs : List Byte) :
    Memory.wf (Memory.writeBytes m a vs) = true := by
  induction vs generalizing m a with
  | nil => exact h
  | cons v vs ih => exact ih (Memory.write_wf h a v) (a + 1)

/-- An entry after writing consecutive bytes lies among them or is an old one. -/
theorem Memory.mem_writeBytes {m : Memory} {a : Nat} {vs : List Byte} {c : Host.Cell}
    (h : c ∈ Memory.writeBytes m a vs) : (a ≤ c.1 ∧ c.1 < a + vs.length) ∨ c ∈ m := by
  induction vs generalizing m a with
  | nil => exact .inr h
  | cons v vs ih =>
    rcases ih h with h | h
    · left; simp only [List.length_cons]; omega
    · rcases Memory.mem_write h with rfl | h
      · left; simp only [List.length_cons]; omega
      · exact .inr h

/-- A read after writing consecutive bytes. -/
theorem Memory.read_writeBytes (m : Memory) (a c : Nat) (vs : List Byte) :
    Memory.read (Memory.writeBytes m a vs) c =
      if a ≤ c ∧ c < a + vs.length then vs[c - a]? else Memory.read m c := by
  induction vs generalizing m a with
  | nil => simp only [Memory.writeBytes, List.length_nil]; rw [if_neg (by omega)]
  | cons v vs ih =>
    simp only [Memory.writeBytes, ih, Memory.read_write, List.length_cons]
    by_cases h1 : c = a
    · subst h1; rw [if_neg (by omega)]; simp
    · by_cases h2 : a + 1 ≤ c ∧ c < a + 1 + vs.length
      · rw [if_pos h2, if_pos (by omega), show c - a = (c - (a + 1)) + 1 by omega]; simp
      · rw [if_neg h2, if_neg h1, if_neg (by omega)]

/-- Reading consecutive bytes gives their values in order, and gives them exactly when all are written. -/
theorem Memory.readBytes_eq_some {m : Memory} {a n : Nat} {vs : List Byte} :
    Memory.readBytes m a n = some vs ↔ vs.length = n ∧ ∀ j < n, Memory.read m (a + j) = vs[j]? := by
  induction n generalizing a vs with
  | zero =>
    simp only [Memory.readBytes, Option.some.injEq, Nat.not_lt_zero, false_imp_iff, implies_true, and_true]
    exact ⟨fun h => h ▸ rfl, fun h => (List.length_eq_zero_iff.1 h).symm⟩
  | succ n ih =>
    simp only [Memory.readBytes]
    constructor
    · intro h
      split at h
      · next v ws hv hws =>
        cases h
        obtain ⟨hl, hr⟩ := ih.1 hws
        refine ⟨by simp [hl], fun j hj => ?_⟩
        cases j with
        | zero => simpa using hv
        | succ j => simpa [Nat.add_assoc, Nat.add_comm 1] using hr j (by omega)
      · cases h
    · rintro ⟨hl, hr⟩
      cases vs with
      | nil => simp at hl
      | cons v vs =>
        have h0 : Memory.read m a = some v := by simpa using hr 0 (by omega)
        have h1 : Memory.readBytes m (a + 1) n = some vs :=
          ih.2 ⟨by simpa using hl, fun j hj => by
            simpa [Nat.add_assoc, Nat.add_comm 1] using hr (j + 1) (by omega)⟩
        simp [h0, h1]

/-- Reading consecutive bytes fails exactly when one of them is unwritten. -/
theorem Memory.readBytes_eq_none {m : Memory} {a n : Nat} :
    Memory.readBytes m a n = none ↔ ∃ j < n, Memory.read m (a + j) = none := by
  induction n generalizing a with
  | zero => simp [Memory.readBytes]
  | succ n ih =>
    simp only [Memory.readBytes]
    constructor
    · intro h
      cases hv : Memory.read m a with
      | none => exact ⟨0, by omega, by simpa using hv⟩
      | some v =>
        cases hws : Memory.readBytes m (a + 1) n with
        | none =>
          obtain ⟨j, hj, hr⟩ := ih.1 hws
          exact ⟨j + 1, by omega, by simpa [Nat.add_assoc, Nat.add_comm 1] using hr⟩
        | some ws => simp [hv, hws] at h
    · rintro ⟨j, hj, hr⟩
      cases j with
      | zero => simp [show Memory.read m a = none by simpa using hr]
      | succ j =>
        have : Memory.readBytes m (a + 1) n = none :=
          ih.2 ⟨j, by omega, by simpa [Nat.add_assoc, Nat.add_comm 1] using hr⟩
        cases Memory.read m a <;> simp [this]

/-- In canonical form a byte reads as some value exactly when its offset is listed. -/
theorem Memory.read_eq_none {m : Memory} {a : Nat} : Memory.read m a = none ↔ ∀ c ∈ m, c.1 ≠ a := by
  induction m with
  | nil => simp [Memory.read]
  | cons cell m ih =>
    obtain ⟨b, x⟩ := cell
    by_cases h : b = a <;> simp [Memory.read, h, ih]

end Sys2Proof.Machine
end

