-- ==== Sys2Proof/Laws/BitString.lean ====
section
/-! SUPPORT. The packing of bit strings in bytes (20_memory R62, 40_codec R111), and what storing a bit string in DBUF
does to each of its bits. -/

namespace Sys2Proof.Machine

@[simp] theorem byteBits_length (v : Byte) : (byteBits v).length = 8 := rfl

@[simp] theorem encodeBytes_nil : encodeBytes [] = [] := rfl

@[simp] theorem encodeBytes_cons (v : Byte) (vs : List Byte) : encodeBytes (v :: vs) = byteBits v ++ encodeBytes vs := rfl

/-- The output length of `encode` is 8 times the number of bytes. -/
@[simp] theorem encodeBytes_length (bs : List Byte) : (encodeBytes bs).length = 8 * bs.length := by
  induction bs with
  | nil => rfl
  | cons v vs ih => simp [ih]; omega

/-- Bit `k` of a byte's encoding is bit `7 - k` of the byte. -/
theorem byteBits_getElem? (v : Byte) {k : Nat} (hk : k < 8) : (byteBits v)[k]? = some (v.getLsbD (7 - k)) := by
  match k, hk with
  | 0, _ | 1, _ | 2, _ | 3, _ | 4, _ | 5, _ | 6, _ | 7, _ => rfl

/-- Bit `i` of `encode(B)` is bit `7 - (i mod 8)` of byte `B[i div 8]` (00_scope R7). -/
theorem encodeBytes_getElem? (bs : List Byte) (i : Nat) :
    (encodeBytes bs)[i]? = (bs[i / 8]?).map (fun v => v.getLsbD (7 - i % 8)) := by
  induction bs generalizing i with
  | nil => simp
  | cons v vs ih =>
    rw [encodeBytes_cons]
    by_cases h : i < 8
    · rw [List.getElem?_append_left (by simpa using h), byteBits_getElem? v h]
      simp [Nat.div_eq_of_lt h, Nat.mod_eq_of_lt h]
    · rw [List.getElem?_append_right (by simpa using h), ih]
      obtain ⟨k, rfl⟩ : ∃ k, i = k + 8 := ⟨i - 8, by omega⟩
      simp

/-- The byte of a byte's own bits. -/
theorem byteOfBits_byteBits (v : Byte) :
    byteOfBits (v.getLsbD 7) (v.getLsbD 6) (v.getLsbD 5) (v.getLsbD 4) (v.getLsbD 3) (v.getLsbD 2) (v.getLsbD 1)
      (v.getLsbD 0) = v := by
  revert v; decide

/-- The bits of the byte made of eight bits. -/
theorem byteBits_byteOfBits (b7 b6 b5 b4 b3 b2 b1 b0 : Bool) :
    byteBits (byteOfBits b7 b6 b5 b4 b3 b2 b1 b0) = [b7, b6, b5, b4, b3, b2, b1, b0] := by
  revert b7 b6 b5 b4 b3 b2 b1 b0; decide

/-- Packing an encoding gives the bytes back. -/
@[simp] theorem packBytes_encodeBytes (bs : List Byte) : packBytes (encodeBytes bs) = bs := by
  induction bs with
  | nil => rfl
  | cons v vs ih => simpa [byteBits, packBytes, ih] using byteOfBits_byteBits v

/-- Encoding a packed bit string of whole bytes gives the bit string back. -/
theorem encodeBytes_packBytes (b : Bits) (h : b.length % 8 = 0) : encodeBytes (packBytes b) = b := by
  induction b using packBytes.induct with
  | case1 b7 b6 b5 b4 b3 b2 b1 b0 rest ih =>
    simp [packBytes, byteBits_byteOfBits, ih (by simp at h; omega)]
  | case2 b hb =>
    match b, hb with
    | [], _ => rfl
    | [_], _ | [_, _], _ | [_, _, _], _ | [_, _, _, _], _ | [_, _, _, _, _], _ | [_, _, _, _, _, _], _
    | [_, _, _, _, _, _, _], _ => simp at h
    | _ :: _ :: _ :: _ :: _ :: _ :: _ :: _ :: _, hb => exact absurd rfl (hb _ _ _ _ _ _ _ _ _)

/-- The number of packed bytes. -/
theorem packBytes_length (b : Bits) (h : b.length % 8 = 0) : (packBytes b).length = b.length / 8 := by
  have := congrArg List.length (encodeBytes_packBytes b h)
  simp at this; omega

/-- `decode` of a bit string of whole bytes. -/
theorem decodeBits_ok {b : Bits} (h : b.length % 8 = 0) : decodeBits b = .ok (packBytes b) := by
  simp [decodeBits, h]

/-- Overlaying keeps the number of bytes. -/
theorem encodeBytes_overlayBits (old : List Byte) (new : Bits) (h : new.length ≤ 8 * old.length) :
    encodeBytes (overlayBits old new) = new ++ (encodeBytes old).drop new.length := by
  apply encodeBytes_packBytes
  simp
  omega

@[simp] theorem overlayBits_length (old : List Byte) (new : Bits) (h : new.length ≤ 8 * old.length) :
    (overlayBits old new).length = old.length := by
  have := congrArg List.length (encodeBytes_overlayBits old new h)
  simp at this; omega

/-- A whole byte string overlaid with its own bits packed. -/
theorem overlayBits_full (old : List Byte) (new : Bits) (h : new.length = 8 * old.length) :
    overlayBits old new = packBytes new := by
  rw [overlayBits, List.drop_eq_nil_of_le (by simp [h]), List.append_nil]

/-! ### DBUF's bits -/

/-- What the data operand holds, byte by byte. -/
theorem State.dataOperand_eq_some {s : State} {bs : List Byte} :
    s.dataOperand = some bs ↔
      bs.length = (s.lat.dlen.toNat + 7) / 8 ∧ ∀ j < (s.lat.dlen.toNat + 7) / 8, s.dbufByte j = bs[j]? :=
  Memory.readBytes_eq_some

/-- What the key operand holds, byte by byte. -/
theorem State.keyOperand_eq_some {s : State} {ks : List Byte} :
    s.keyOperand = some ks ↔
      ks.length = s.lat.klen.toNat ∧ ∀ j < s.lat.klen.toNat, s.kbufByte j = ks[j]? :=
  Memory.readBytes_eq_some

theorem State.dataOperand_eq_none {s : State} :
    s.dataOperand = none ↔ ∃ j < (s.lat.dlen.toNat + 7) / 8, s.dbufByte j = none :=
  Memory.readBytes_eq_none

theorem State.keyOperand_eq_none {s : State} :
    s.keyOperand = none ↔ ∃ j < s.lat.klen.toNat, s.kbufByte j = none :=
  Memory.readBytes_eq_none

/-- The data bit string has DLEN bits. -/
theorem State.dataBits_length {s : State} {bs : List Byte} (h : s.dataOperand = some bs) :
    (s.dataBits bs).length = s.lat.dlen.toNat := by
  have := (State.dataOperand_eq_some.1 h).1
  simp [State.dataBits]; omega

/-- Bit `i` of the data bit string is `DBUF.bit[i]`. -/
theorem State.dataBits_getElem? {s : State} {bs : List Byte} (h : s.dataOperand = some bs) {i : Nat}
    (hi : i < s.lat.dlen.toNat) : (s.dataBits bs)[i]? = s.dbufBit i := by
  have ⟨hl, hb⟩ := State.dataOperand_eq_some.1 h
  rw [State.dataBits, List.getElem?_take, if_pos hi, encodeBytes_getElem?, State.dbufBit, hb (i / 8) (by omega)]

/-- A byte of DBUF after bytes are stored from byte 0 on. -/
theorem State.storeDbuf_dbufByte (s : State) (bs : List Byte) (j : Nat) :
    (s.storeDbuf bs).dbufByte j = if j < bs.length then bs[j]? else s.dbufByte j := by
  simp only [State.dbufByte, State.storeDbuf, Memory.read_writeBytes]
  by_cases h : j < bs.length
  · rw [if_pos (by omega), if_pos h]; simp
  · rw [if_neg (by omega), if_neg h]

/-- A byte of the memory outside the stored ones. -/
theorem State.storeDbuf_read_other (s : State) (bs : List Byte) {a : Nat} (h : a < dbufBase ∨ dbufBase + bs.length ≤ a) :
    Memory.read (s.storeDbuf bs).mem a = Memory.read s.mem a := by
  simp only [State.storeDbuf, Memory.read_writeBytes]
  rw [if_neg (by omega)]

/-- Each bit of DBUF after a result bit string is stored over the operand: the result's bits below its length, the old
bits from there on (20_memory R63). -/
theorem State.storeBits_dbufBit {s : State} {bs : List Byte} (h : s.dataOperand = some bs) {bits : Bits}
    (hl : bits.length = s.lat.dlen.toNat) (i : Nat) :
    (s.storeBits bs bits).dbufBit i = if i < s.lat.dlen.toNat then bits[i]? else s.dbufBit i := by
  have ⟨hn, hb⟩ := State.dataOperand_eq_some.1 h
  have hle : bits.length ≤ 8 * bs.length := by omega
  rw [State.dbufBit, State.storeBits, State.storeDbuf_dbufByte, overlayBits_length _ _ hle]
  by_cases hi : i / 8 < bs.length
  · rw [if_pos hi, ← encodeBytes_getElem?, encodeBytes_overlayBits _ _ hle]
    by_cases hd : i < s.lat.dlen.toNat
    · rw [if_pos hd, List.getElem?_append_left (by omega)]
    · rw [if_neg hd, List.getElem?_append_right (by omega), List.getElem?_drop,
        show bits.length + (i - bits.length) = i by omega, encodeBytes_getElem?, State.dbufBit, hb _ (by omega)]
  · rw [if_neg hi, if_neg (by omega), State.dbufBit]

end Sys2Proof.Machine
end

