-- ==== Sys2Proof/Laws/State.lean ====
section
/-! SUPPORT. What each named update of the state does to each field, and what reset holds: one lemma a field, true by
computation, so that no proof unfolds an update. -/

namespace Sys2Proof.Machine

@[simp] theorem State.accept_ie (s : State) (v : Word) : (s.accept v).ie = s.ie := rfl
@[simp] theorem State.accept_status (s : State) (v : Word) : (s.accept v).status = s.status.started := rfl
@[simp] theorem State.accept_cmd (s : State) (v : Word) : (s.accept v).cmd = v := rfl
@[simp] theorem State.accept_errcode (s : State) (v : Word) : (s.accept v).errcode = 0 := rfl
@[simp] theorem State.accept_dlen (s : State) (v : Word) : (s.accept v).dlen = s.dlen := rfl
@[simp] theorem State.accept_klen (s : State) (v : Word) : (s.accept v).klen = s.klen := rfl
@[simp] theorem State.accept_rounds (s : State) (v : Word) : (s.accept v).rounds = s.rounds := rfl
@[simp] theorem State.accept_gsize (s : State) (v : Word) : (s.accept v).gsize = s.gsize := rfl
@[simp] theorem State.accept_psize (s : State) (v : Word) : (s.accept v).psize = s.psize := rfl
@[simp] theorem State.accept_ridx (s : State) (v : Word) : (s.accept v).ridx = s.ridx := rfl
@[simp] theorem State.accept_mem (s : State) (v : Word) : (s.accept v).mem = s.mem := rfl
@[simp] theorem State.accept_ptab (s : State) (v : Word) : (s.accept v).ptab = s.ptab := rfl
@[simp] theorem State.accept_rk (s : State) (v : Word) : (s.accept v).rk = s.rk := rfl
@[simp] theorem State.accept_lat (s : State) (v : Word) : (s.accept v).lat = ⟨v, s.dlen, s.klen, s.rounds, s.gsize⟩ := rfl
@[simp] theorem State.accept_rstN (s : State) (v : Word) : (s.accept v).rstN = s.rstN := rfl
@[simp] theorem State.accept_rdata (s : State) (v : Word) : (s.accept v).rdata = s.rdata := rfl
@[simp] theorem State.accept_draws (s : State) (v : Word) : (s.accept v).draws = s.draws := rfl
@[simp] theorem State.accept_schedule (s : State) (v : Word) : (s.accept v).schedule = s.schedule := rfl

@[simp] theorem State.complete_ie (s : State) (w : Bool) : (s.complete w).ie = s.ie := rfl
@[simp] theorem State.complete_status (s : State) (w : Bool) : (s.complete w).status = s.status.completed w := rfl
@[simp] theorem State.complete_cmd (s : State) (w : Bool) : (s.complete w).cmd = s.cmd := rfl
@[simp] theorem State.complete_errcode (s : State) (w : Bool) : (s.complete w).errcode = 0 := rfl
@[simp] theorem State.complete_dlen (s : State) (w : Bool) : (s.complete w).dlen = s.dlen := rfl
@[simp] theorem State.complete_klen (s : State) (w : Bool) : (s.complete w).klen = s.klen := rfl
@[simp] theorem State.complete_rounds (s : State) (w : Bool) : (s.complete w).rounds = s.rounds := rfl
@[simp] theorem State.complete_gsize (s : State) (w : Bool) : (s.complete w).gsize = s.gsize := rfl
@[simp] theorem State.complete_psize (s : State) (w : Bool) : (s.complete w).psize = s.psize := rfl
@[simp] theorem State.complete_ridx (s : State) (w : Bool) : (s.complete w).ridx = s.ridx := rfl
@[simp] theorem State.complete_mem (s : State) (w : Bool) : (s.complete w).mem = s.mem := rfl
@[simp] theorem State.complete_ptab (s : State) (w : Bool) : (s.complete w).ptab = s.ptab := rfl
@[simp] theorem State.complete_rk (s : State) (w : Bool) : (s.complete w).rk = s.rk := rfl
@[simp] theorem State.complete_lat (s : State) (w : Bool) : (s.complete w).lat = s.lat := rfl
@[simp] theorem State.complete_rstN (s : State) (w : Bool) : (s.complete w).rstN = s.rstN := rfl
@[simp] theorem State.complete_rdata (s : State) (w : Bool) : (s.complete w).rdata = s.rdata := rfl
@[simp] theorem State.complete_draws (s : State) (w : Bool) : (s.complete w).draws = s.draws := rfl
@[simp] theorem State.complete_schedule (s : State) (w : Bool) : (s.complete w).schedule = s.schedule := rfl

@[simp] theorem State.raise_ie (s : State) (e : ErrKind) : (s.raise e).ie = s.ie := rfl
@[simp] theorem State.raise_status (s : State) (e : ErrKind) : (s.raise e).status = s.status.failed := rfl
@[simp] theorem State.raise_cmd (s : State) (e : ErrKind) : (s.raise e).cmd = s.cmd := rfl
@[simp] theorem State.raise_errcode (s : State) (e : ErrKind) : (s.raise e).errcode = e.code := rfl
@[simp] theorem State.raise_dlen (s : State) (e : ErrKind) : (s.raise e).dlen = s.dlen := rfl
@[simp] theorem State.raise_klen (s : State) (e : ErrKind) : (s.raise e).klen = s.klen := rfl
@[simp] theorem State.raise_rounds (s : State) (e : ErrKind) : (s.raise e).rounds = s.rounds := rfl
@[simp] theorem State.raise_gsize (s : State) (e : ErrKind) : (s.raise e).gsize = s.gsize := rfl
@[simp] theorem State.raise_psize (s : State) (e : ErrKind) : (s.raise e).psize = s.psize := rfl
@[simp] theorem State.raise_ridx (s : State) (e : ErrKind) : (s.raise e).ridx = s.ridx := rfl
@[simp] theorem State.raise_mem (s : State) (e : ErrKind) : (s.raise e).mem = s.mem := rfl
@[simp] theorem State.raise_ptab (s : State) (e : ErrKind) : (s.raise e).ptab = s.ptab := rfl
@[simp] theorem State.raise_rk (s : State) (e : ErrKind) : (s.raise e).rk = s.rk := rfl
@[simp] theorem State.raise_lat (s : State) (e : ErrKind) : (s.raise e).lat = s.lat := rfl
@[simp] theorem State.raise_rstN (s : State) (e : ErrKind) : (s.raise e).rstN = s.rstN := rfl
@[simp] theorem State.raise_rdata (s : State) (e : ErrKind) : (s.raise e).rdata = s.rdata := rfl
@[simp] theorem State.raise_draws (s : State) (e : ErrKind) : (s.raise e).draws = s.draws := rfl
@[simp] theorem State.raise_schedule (s : State) (e : ErrKind) : (s.raise e).schedule = s.schedule := rfl

@[simp] theorem State.clearFlags_ie (s : State) (v : Word) : (s.clearFlags v).ie = s.ie := rfl
@[simp] theorem State.clearFlags_status (s : State) (v : Word) : (s.clearFlags v).status = s.status.clearW1C v := rfl
@[simp] theorem State.clearFlags_cmd (s : State) (v : Word) : (s.clearFlags v).cmd = s.cmd := rfl
@[simp] theorem State.clearFlags_errcode (s : State) (v : Word) : (s.clearFlags v).errcode = s.errcode := rfl
@[simp] theorem State.clearFlags_dlen (s : State) (v : Word) : (s.clearFlags v).dlen = s.dlen := rfl
@[simp] theorem State.clearFlags_klen (s : State) (v : Word) : (s.clearFlags v).klen = s.klen := rfl
@[simp] theorem State.clearFlags_rounds (s : State) (v : Word) : (s.clearFlags v).rounds = s.rounds := rfl
@[simp] theorem State.clearFlags_gsize (s : State) (v : Word) : (s.clearFlags v).gsize = s.gsize := rfl
@[simp] theorem State.clearFlags_psize (s : State) (v : Word) : (s.clearFlags v).psize = s.psize := rfl
@[simp] theorem State.clearFlags_ridx (s : State) (v : Word) : (s.clearFlags v).ridx = s.ridx := rfl
@[simp] theorem State.clearFlags_mem (s : State) (v : Word) : (s.clearFlags v).mem = s.mem := rfl
@[simp] theorem State.clearFlags_ptab (s : State) (v : Word) : (s.clearFlags v).ptab = s.ptab := rfl
@[simp] theorem State.clearFlags_rk (s : State) (v : Word) : (s.clearFlags v).rk = s.rk := rfl
@[simp] theorem State.clearFlags_lat (s : State) (v : Word) : (s.clearFlags v).lat = s.lat := rfl
@[simp] theorem State.clearFlags_rstN (s : State) (v : Word) : (s.clearFlags v).rstN = s.rstN := rfl
@[simp] theorem State.clearFlags_rdata (s : State) (v : Word) : (s.clearFlags v).rdata = s.rdata := rfl
@[simp] theorem State.clearFlags_draws (s : State) (v : Word) : (s.clearFlags v).draws = s.draws := rfl
@[simp] theorem State.clearFlags_schedule (s : State) (v : Word) : (s.clearFlags v).schedule = s.schedule := rfl

@[simp] theorem State.lost_ie (s : State) : (s.lost).ie = s.ie := rfl
@[simp] theorem State.lost_status (s : State) : (s.lost).status = s.status.lost := rfl
@[simp] theorem State.lost_cmd (s : State) : (s.lost).cmd = s.cmd := rfl
@[simp] theorem State.lost_errcode (s : State) : (s.lost).errcode = s.errcode := rfl
@[simp] theorem State.lost_dlen (s : State) : (s.lost).dlen = s.dlen := rfl
@[simp] theorem State.lost_klen (s : State) : (s.lost).klen = s.klen := rfl
@[simp] theorem State.lost_rounds (s : State) : (s.lost).rounds = s.rounds := rfl
@[simp] theorem State.lost_gsize (s : State) : (s.lost).gsize = s.gsize := rfl
@[simp] theorem State.lost_psize (s : State) : (s.lost).psize = s.psize := rfl
@[simp] theorem State.lost_ridx (s : State) : (s.lost).ridx = s.ridx := rfl
@[simp] theorem State.lost_mem (s : State) : (s.lost).mem = s.mem := rfl
@[simp] theorem State.lost_ptab (s : State) : (s.lost).ptab = s.ptab := rfl
@[simp] theorem State.lost_rk (s : State) : (s.lost).rk = s.rk := rfl
@[simp] theorem State.lost_lat (s : State) : (s.lost).lat = s.lat := rfl
@[simp] theorem State.lost_rstN (s : State) : (s.lost).rstN = s.rstN := rfl
@[simp] theorem State.lost_rdata (s : State) : (s.lost).rdata = s.rdata := rfl
@[simp] theorem State.lost_draws (s : State) : (s.lost).draws = s.draws := rfl
@[simp] theorem State.lost_schedule (s : State) : (s.lost).schedule = s.schedule := rfl

@[simp] theorem State.storeDbuf_ie (s : State) (bs : List Byte) : (s.storeDbuf bs).ie = s.ie := rfl
@[simp] theorem State.storeDbuf_status (s : State) (bs : List Byte) : (s.storeDbuf bs).status = s.status := rfl
@[simp] theorem State.storeDbuf_cmd (s : State) (bs : List Byte) : (s.storeDbuf bs).cmd = s.cmd := rfl
@[simp] theorem State.storeDbuf_errcode (s : State) (bs : List Byte) : (s.storeDbuf bs).errcode = s.errcode := rfl
@[simp] theorem State.storeDbuf_dlen (s : State) (bs : List Byte) : (s.storeDbuf bs).dlen = s.dlen := rfl
@[simp] theorem State.storeDbuf_klen (s : State) (bs : List Byte) : (s.storeDbuf bs).klen = s.klen := rfl
@[simp] theorem State.storeDbuf_rounds (s : State) (bs : List Byte) : (s.storeDbuf bs).rounds = s.rounds := rfl
@[simp] theorem State.storeDbuf_gsize (s : State) (bs : List Byte) : (s.storeDbuf bs).gsize = s.gsize := rfl
@[simp] theorem State.storeDbuf_psize (s : State) (bs : List Byte) : (s.storeDbuf bs).psize = s.psize := rfl
@[simp] theorem State.storeDbuf_ridx (s : State) (bs : List Byte) : (s.storeDbuf bs).ridx = s.ridx := rfl
@[simp] theorem State.storeDbuf_mem (s : State) (bs : List Byte) : (s.storeDbuf bs).mem = Memory.writeBytes s.mem dbufBase bs := rfl
@[simp] theorem State.storeDbuf_ptab (s : State) (bs : List Byte) : (s.storeDbuf bs).ptab = s.ptab := rfl
@[simp] theorem State.storeDbuf_rk (s : State) (bs : List Byte) : (s.storeDbuf bs).rk = s.rk := rfl
@[simp] theorem State.storeDbuf_lat (s : State) (bs : List Byte) : (s.storeDbuf bs).lat = s.lat := rfl
@[simp] theorem State.storeDbuf_rstN (s : State) (bs : List Byte) : (s.storeDbuf bs).rstN = s.rstN := rfl
@[simp] theorem State.storeDbuf_rdata (s : State) (bs : List Byte) : (s.storeDbuf bs).rdata = s.rdata := rfl
@[simp] theorem State.storeDbuf_draws (s : State) (bs : List Byte) : (s.storeDbuf bs).draws = s.draws := rfl
@[simp] theorem State.storeDbuf_schedule (s : State) (bs : List Byte) : (s.storeDbuf bs).schedule = s.schedule := rfl

@[simp] theorem State.storePtab_ie (s : State) (T : Table) : (s.storePtab T).ie = s.ie := rfl
@[simp] theorem State.storePtab_status (s : State) (T : Table) : (s.storePtab T).status = s.status := rfl
@[simp] theorem State.storePtab_cmd (s : State) (T : Table) : (s.storePtab T).cmd = s.cmd := rfl
@[simp] theorem State.storePtab_errcode (s : State) (T : Table) : (s.storePtab T).errcode = s.errcode := rfl
@[simp] theorem State.storePtab_dlen (s : State) (T : Table) : (s.storePtab T).dlen = s.dlen := rfl
@[simp] theorem State.storePtab_klen (s : State) (T : Table) : (s.storePtab T).klen = s.klen := rfl
@[simp] theorem State.storePtab_rounds (s : State) (T : Table) : (s.storePtab T).rounds = s.rounds := rfl
@[simp] theorem State.storePtab_gsize (s : State) (T : Table) : (s.storePtab T).gsize = s.gsize := rfl
@[simp] theorem State.storePtab_psize (s : State) (T : Table) : (s.storePtab T).psize = s.psize := rfl
@[simp] theorem State.storePtab_ridx (s : State) (T : Table) : (s.storePtab T).ridx = s.ridx := rfl
@[simp] theorem State.storePtab_mem (s : State) (T : Table) : (s.storePtab T).mem = s.mem := rfl
@[simp] theorem State.storePtab_ptab (s : State) (T : Table) : (s.storePtab T).ptab = T.map (BitVec.ofNat 12) := rfl
@[simp] theorem State.storePtab_rk (s : State) (T : Table) : (s.storePtab T).rk = s.rk := rfl
@[simp] theorem State.storePtab_lat (s : State) (T : Table) : (s.storePtab T).lat = s.lat := rfl
@[simp] theorem State.storePtab_rstN (s : State) (T : Table) : (s.storePtab T).rstN = s.rstN := rfl
@[simp] theorem State.storePtab_rdata (s : State) (T : Table) : (s.storePtab T).rdata = s.rdata := rfl
@[simp] theorem State.storePtab_draws (s : State) (T : Table) : (s.storePtab T).draws = s.draws := rfl
@[simp] theorem State.storePtab_schedule (s : State) (T : Table) : (s.storePtab T).schedule = s.schedule := rfl

@[simp] theorem State.leaveRound_ie (s : State) (T : Table) (i : Nat) (rk : List Byte) : (s.leaveRound T i rk).ie = s.ie := rfl
@[simp] theorem State.leaveRound_status (s : State) (T : Table) (i : Nat) (rk : List Byte) : (s.leaveRound T i rk).status = s.status := rfl
@[simp] theorem State.leaveRound_cmd (s : State) (T : Table) (i : Nat) (rk : List Byte) : (s.leaveRound T i rk).cmd = s.cmd := rfl
@[simp] theorem State.leaveRound_errcode (s : State) (T : Table) (i : Nat) (rk : List Byte) : (s.leaveRound T i rk).errcode = s.errcode := rfl
@[simp] theorem State.leaveRound_dlen (s : State) (T : Table) (i : Nat) (rk : List Byte) : (s.leaveRound T i rk).dlen = s.dlen := rfl
@[simp] theorem State.leaveRound_klen (s : State) (T : Table) (i : Nat) (rk : List Byte) : (s.leaveRound T i rk).klen = s.klen := rfl
@[simp] theorem State.leaveRound_rounds (s : State) (T : Table) (i : Nat) (rk : List Byte) : (s.leaveRound T i rk).rounds = s.rounds := rfl
@[simp] theorem State.leaveRound_gsize (s : State) (T : Table) (i : Nat) (rk : List Byte) : (s.leaveRound T i rk).gsize = s.gsize := rfl
@[simp] theorem State.leaveRound_psize (s : State) (T : Table) (i : Nat) (rk : List Byte) : (s.leaveRound T i rk).psize = s.lat.dlen := rfl
@[simp] theorem State.leaveRound_ridx (s : State) (T : Table) (i : Nat) (rk : List Byte) : (s.leaveRound T i rk).ridx = BitVec.ofNat 32 i := rfl
@[simp] theorem State.leaveRound_mem (s : State) (T : Table) (i : Nat) (rk : List Byte) : (s.leaveRound T i rk).mem = s.mem := rfl
@[simp] theorem State.leaveRound_ptab (s : State) (T : Table) (i : Nat) (rk : List Byte) : (s.leaveRound T i rk).ptab = T.map (BitVec.ofNat 12) := rfl
@[simp] theorem State.leaveRound_rk (s : State) (T : Table) (i : Nat) (rk : List Byte) : (s.leaveRound T i rk).rk = rk := rfl
@[simp] theorem State.leaveRound_lat (s : State) (T : Table) (i : Nat) (rk : List Byte) : (s.leaveRound T i rk).lat = s.lat := rfl
@[simp] theorem State.leaveRound_rstN (s : State) (T : Table) (i : Nat) (rk : List Byte) : (s.leaveRound T i rk).rstN = s.rstN := rfl
@[simp] theorem State.leaveRound_rdata (s : State) (T : Table) (i : Nat) (rk : List Byte) : (s.leaveRound T i rk).rdata = s.rdata := rfl
@[simp] theorem State.leaveRound_draws (s : State) (T : Table) (i : Nat) (rk : List Byte) : (s.leaveRound T i rk).draws = s.draws := rfl
@[simp] theorem State.leaveRound_schedule (s : State) (T : Table) (i : Nat) (rk : List Byte) : (s.leaveRound T i rk).schedule = s.schedule := rfl

@[simp] theorem State.writeBufferWord_ie (s : State) (b w : Nat) (v : Word) : (s.writeBufferWord b w v).ie = s.ie := rfl
@[simp] theorem State.writeBufferWord_status (s : State) (b w : Nat) (v : Word) : (s.writeBufferWord b w v).status = s.status := rfl
@[simp] theorem State.writeBufferWord_cmd (s : State) (b w : Nat) (v : Word) : (s.writeBufferWord b w v).cmd = s.cmd := rfl
@[simp] theorem State.writeBufferWord_errcode (s : State) (b w : Nat) (v : Word) : (s.writeBufferWord b w v).errcode = s.errcode := rfl
@[simp] theorem State.writeBufferWord_dlen (s : State) (b w : Nat) (v : Word) : (s.writeBufferWord b w v).dlen = s.dlen := rfl
@[simp] theorem State.writeBufferWord_klen (s : State) (b w : Nat) (v : Word) : (s.writeBufferWord b w v).klen = s.klen := rfl
@[simp] theorem State.writeBufferWord_rounds (s : State) (b w : Nat) (v : Word) : (s.writeBufferWord b w v).rounds = s.rounds := rfl
@[simp] theorem State.writeBufferWord_gsize (s : State) (b w : Nat) (v : Word) : (s.writeBufferWord b w v).gsize = s.gsize := rfl
@[simp] theorem State.writeBufferWord_psize (s : State) (b w : Nat) (v : Word) : (s.writeBufferWord b w v).psize = s.psize := rfl
@[simp] theorem State.writeBufferWord_ridx (s : State) (b w : Nat) (v : Word) : (s.writeBufferWord b w v).ridx = s.ridx := rfl
@[simp] theorem State.writeBufferWord_mem (s : State) (b w : Nat) (v : Word) : (s.writeBufferWord b w v).mem = Memory.writeBytes s.mem (b + 4 * w) [lane v 0, lane v 1, lane v 2, lane v 3] := rfl
@[simp] theorem State.writeBufferWord_ptab (s : State) (b w : Nat) (v : Word) : (s.writeBufferWord b w v).ptab = s.ptab := rfl
@[simp] theorem State.writeBufferWord_rk (s : State) (b w : Nat) (v : Word) : (s.writeBufferWord b w v).rk = s.rk := rfl
@[simp] theorem State.writeBufferWord_lat (s : State) (b w : Nat) (v : Word) : (s.writeBufferWord b w v).lat = s.lat := rfl
@[simp] theorem State.writeBufferWord_rstN (s : State) (b w : Nat) (v : Word) : (s.writeBufferWord b w v).rstN = s.rstN := rfl
@[simp] theorem State.writeBufferWord_rdata (s : State) (b w : Nat) (v : Word) : (s.writeBufferWord b w v).rdata = s.rdata := rfl
@[simp] theorem State.writeBufferWord_draws (s : State) (b w : Nat) (v : Word) : (s.writeBufferWord b w v).draws = s.draws := rfl
@[simp] theorem State.writeBufferWord_schedule (s : State) (b w : Nat) (v : Word) : (s.writeBufferWord b w v).schedule = s.schedule := rfl

@[simp] theorem State.busRead_ie (s : State) (a : Offset) : (s.busRead a).ie = s.ie := rfl
@[simp] theorem State.busRead_status (s : State) (a : Offset) : (s.busRead a).status = s.status := rfl
@[simp] theorem State.busRead_cmd (s : State) (a : Offset) : (s.busRead a).cmd = s.cmd := rfl
@[simp] theorem State.busRead_errcode (s : State) (a : Offset) : (s.busRead a).errcode = s.errcode := rfl
@[simp] theorem State.busRead_dlen (s : State) (a : Offset) : (s.busRead a).dlen = s.dlen := rfl
@[simp] theorem State.busRead_klen (s : State) (a : Offset) : (s.busRead a).klen = s.klen := rfl
@[simp] theorem State.busRead_rounds (s : State) (a : Offset) : (s.busRead a).rounds = s.rounds := rfl
@[simp] theorem State.busRead_gsize (s : State) (a : Offset) : (s.busRead a).gsize = s.gsize := rfl
@[simp] theorem State.busRead_psize (s : State) (a : Offset) : (s.busRead a).psize = s.psize := rfl
@[simp] theorem State.busRead_ridx (s : State) (a : Offset) : (s.busRead a).ridx = s.ridx := rfl
@[simp] theorem State.busRead_mem (s : State) (a : Offset) : (s.busRead a).mem = s.mem := rfl
@[simp] theorem State.busRead_ptab (s : State) (a : Offset) : (s.busRead a).ptab = s.ptab := rfl
@[simp] theorem State.busRead_rk (s : State) (a : Offset) : (s.busRead a).rk = s.rk := rfl
@[simp] theorem State.busRead_lat (s : State) (a : Offset) : (s.busRead a).lat = s.lat := rfl
@[simp] theorem State.busRead_rstN (s : State) (a : Offset) : (s.busRead a).rstN = s.rstN := rfl
@[simp] theorem State.busRead_rdata (s : State) (a : Offset) : (s.busRead a).rdata = s.readWord a (Config.freeWord s.draws) := rfl
@[simp] theorem State.busRead_draws (s : State) (a : Offset) : (s.busRead a).draws = s.draws + 1 := rfl
@[simp] theorem State.busRead_schedule (s : State) (a : Offset) : (s.busRead a).schedule = s.schedule := rfl

@[simp] theorem State.toReset_ie (s : State) : (s.toReset).ie = State.reset.ie := rfl
@[simp] theorem State.toReset_status (s : State) : (s.toReset).status = State.reset.status := rfl
@[simp] theorem State.toReset_cmd (s : State) : (s.toReset).cmd = State.reset.cmd := rfl
@[simp] theorem State.toReset_errcode (s : State) : (s.toReset).errcode = State.reset.errcode := rfl
@[simp] theorem State.toReset_dlen (s : State) : (s.toReset).dlen = State.reset.dlen := rfl
@[simp] theorem State.toReset_klen (s : State) : (s.toReset).klen = State.reset.klen := rfl
@[simp] theorem State.toReset_rounds (s : State) : (s.toReset).rounds = State.reset.rounds := rfl
@[simp] theorem State.toReset_gsize (s : State) : (s.toReset).gsize = State.reset.gsize := rfl
@[simp] theorem State.toReset_psize (s : State) : (s.toReset).psize = State.reset.psize := rfl
@[simp] theorem State.toReset_ridx (s : State) : (s.toReset).ridx = State.reset.ridx := rfl
@[simp] theorem State.toReset_mem (s : State) : (s.toReset).mem = State.reset.mem := rfl
@[simp] theorem State.toReset_ptab (s : State) : (s.toReset).ptab = State.reset.ptab := rfl
@[simp] theorem State.toReset_rk (s : State) : (s.toReset).rk = State.reset.rk := rfl
@[simp] theorem State.toReset_lat (s : State) : (s.toReset).lat = State.reset.lat := rfl
@[simp] theorem State.toReset_rstN (s : State) : (s.toReset).rstN = State.reset.rstN := rfl
@[simp] theorem State.toReset_rdata (s : State) : (s.toReset).rdata = s.rdata := rfl
@[simp] theorem State.toReset_draws (s : State) : (s.toReset).draws = s.draws := rfl
@[simp] theorem State.toReset_schedule (s : State) : (s.toReset).schedule = s.schedule := rfl

@[simp] theorem Status.started_eq (f : Status) : f.started = ⟨true, false, false, false, f.ovr⟩ := rfl

@[simp] theorem Status.completed_eq (f : Status) (w : Bool) : f.completed w = ⟨false, true, false, w, f.ovr⟩ := rfl

@[simp] theorem Status.failed_eq (f : Status) : f.failed = ⟨false, true, true, false, f.ovr⟩ := rfl

@[simp] theorem Status.lost_eq (f : Status) : f.lost = ⟨f.busy, f.done, f.err, f.weak, true⟩ := rfl

/-- Every error code is one of the nonzero codes of 60_exceptions R184. -/
theorem ErrKind.code_ne_zero (e : ErrKind) : e.code ≠ 0 := by cases e <;> decide

/-- The first failing check is one of the listed ones, and it fails. -/
theorem firstError_some {l : List (Bool × ErrKind)} {e : ErrKind} (h : firstError l = some e) : (true, e) ∈ l := by
  induction l with
  | nil => simp [firstError] at h
  | cons c l ih =>
    obtain ⟨f, k⟩ := c
    cases f <;> simp [firstError] at h
    · exact List.mem_cons_of_mem _ (ih h)
    · simp [h]

/-- With no failing check, every listed check passes. -/
theorem firstError_none {l : List (Bool × ErrKind)} : firstError l = none ↔ ∀ c ∈ l, c.1 = false := by
  induction l with
  | nil => simp [firstError]
  | cons c l ih =>
    obtain ⟨f, k⟩ := c
    cases f <;> simp [firstError, ih]

end Sys2Proof.Machine
end

