-- ==== Sys2Proof/Laws/Bus.lean ====
section
/-! SUPPORT. The address map (20_memory R64) and what the bus operations do (R65 to R69). -/

namespace Sys2Proof.Machine

/-- Every register sits below the buffers. -/
theorem Reg.offset_lt (r : Reg) : r.offset < 0x38 := by cases r <;> decide

/-- The register page finds each register at its offset, and nothing anywhere else. -/
theorem regAt_eq_some {o : Nat} {r : Reg} : regAt o = some r ↔ o = r.offset := by
  constructor
  · intro h
    have := List.find?_some h
    exact (beq_iff_eq.1 this).symm
  · rintro rfl
    cases r <;> rfl

theorem regAt_eq_none {o : Nat} : regAt o = none ↔ ∀ r : Reg, o ≠ r.offset := by
  constructor
  · intro h r hr
    rw [regAt_eq_some.2 hr] at h
    cases h
  · intro h
    cases hr : regAt o with
    | none => rfl
    | some r => exact absurd (regAt_eq_some.1 hr) (h r)

/-- What stands at each word of the window (20_memory R64), one equation a region. -/
theorem regionOf_reg {a : Offset} {r : Reg} : regionOf a = .reg r ↔ a.toNat / 4 * 4 = r.offset := by
  have hr := r.offset_lt
  simp only [regionOf, kbufBase, dbufBase, ptabBase, Config.kbufBytes, Config.dbufBytes, Config.dbufBits]
  by_cases hlt : a.toNat / 4 * 4 < 0x1000
  · rw [if_pos hlt, ← regAt_eq_some]
    cases regAt (a.toNat / 4 * 4) <;> simp
  · rw [if_neg hlt]
    have : a.toNat / 4 * 4 ≠ r.offset := by omega
    (repeat' split) <;> simpa using this

theorem regionOf_kbuf {a : Offset} {w : Nat} : regionOf a = .kbuf w ↔ a.toNat / 4 = 0x400 + w ∧ w < 16 := by
  simp only [regionOf, kbufBase, dbufBase, ptabBase, Config.kbufBytes, Config.dbufBytes, Config.dbufBits]
  (repeat' split) <;> simp only [reduceCtorEq, Region.kbuf.injEq, false_iff] <;> omega

theorem regionOf_dbuf {a : Offset} {w : Nat} : regionOf a = .dbuf w ↔ a.toNat / 4 = 0x800 + w ∧ w < 64 := by
  simp only [regionOf, kbufBase, dbufBase, ptabBase, Config.kbufBytes, Config.dbufBytes, Config.dbufBits]
  (repeat' split) <;> simp only [reduceCtorEq, Region.dbuf.injEq, false_iff] <;> omega

theorem regionOf_ptab {a : Offset} {k : Nat} : regionOf a = .ptab k ↔ a.toNat / 4 = 0x10000 + k ∧ k < 2048 := by
  simp only [regionOf, kbufBase, dbufBase, ptabBase, Config.kbufBytes, Config.dbufBytes, Config.dbufBits]
  (repeat' split) <;> simp only [reduceCtorEq, Region.ptab.injEq, false_iff] <;> omega

/-- A write while busy to anything but CTRL and STATUS is lost (70_reset_and_hazards R219). -/
theorem State.busWrite_busy {s : State} {a : Offset} (v : Word) (hb : s.status.busy = true)
    (hc : a.toNat / 4 ≠ 2) (hs : a.toNat / 4 ≠ 3) : s.busWrite a v = s.lost := by
  have h1 : regionOf a ≠ .reg .ctrl := fun h => by
    have := regionOf_reg.1 h; simp only [Reg.offset] at this; omega
  have h2 : regionOf a ≠ .reg .status := fun h => by
    have := regionOf_reg.1 h; simp only [Reg.offset] at this; omega
  simp [State.busWrite, hb, h1, h2]

/-- A write while idle acts on the region it addresses (20_memory R69). -/
theorem State.busWrite_idle {s : State} (a : Offset) (v : Word) (hb : s.status.busy = false) :
    s.busWrite a v = s.writeRegion v (regionOf a) := by
  simp [State.busWrite, hb]

/-- A write to CTRL acts at any time (70_reset_and_hazards R220). -/
theorem State.busWrite_ctrl {s : State} {a : Offset} (v : Word) (ha : a.toNat / 4 = 2) :
    s.busWrite a v = s.writeCtrl v := by
  have h : regionOf a = .reg .ctrl := regionOf_reg.2 (by simp only [Reg.offset]; omega)
  simp [State.busWrite, h, State.writeRegion]

/-- A write to STATUS acts at any time (70_reset_and_hazards R220). -/
theorem State.busWrite_status {s : State} {a : Offset} (v : Word) (ha : a.toNat / 4 = 3) :
    s.busWrite a v = s.clearFlags v := by
  have h : regionOf a = .reg .status := regionOf_reg.2 (by simp only [Reg.offset]; omega)
  simp [State.busWrite, h, State.writeRegion]

/-- Each bit of a word put together from four lanes. -/
theorem wordOfLanes_getLsbD (b0 b1 b2 b3 : Byte) (i : Nat) : (wordOfLanes b0 b1 b2 b3).getLsbD i =
    if i < 8 then b0.getLsbD i else if i < 16 then b1.getLsbD (i - 8) else if i < 24 then b2.getLsbD (i - 16)
    else b3.getLsbD (i - 24) := by
  unfold wordOfLanes
  rw [show (b3 ++ b2 ++ b1 ++ b0 : BitVec 32).getLsbD i = ((b3 ++ b2 ++ b1 ++ b0 : BitVec (8+8+8+8))).getLsbD i from rfl]
  rw [BitVec.getLsbD_append, BitVec.getLsbD_append, BitVec.getLsbD_append]
  by_cases h1 : i < 8
  · simp [h1]
  · by_cases h2 : i < 16
    · simp [h1, h2, show i - 8 < 8 by omega]
    · by_cases h3 : i < 24
      · simp [h1, h2, h3, show ¬(i - 8 < 8) by omega, show i - 8 - 8 = i - 16 by omega, show i - 16 < 8 by omega]
      · simp [h1, h2, h3, show ¬(i - 8 < 8) by omega, show ¬(i - 8 - 8 < 8) by omega, show i - 8 - 8 - 8 = i - 24 by omega]

/-- Putting a word's lanes together gives the word (20_memory R65). -/
theorem wordOfLanes_lane (v : Word) : wordOfLanes (lane v 0) (lane v 1) (lane v 2) (lane v 3) = v := by
  refine BitVec.eq_of_getLsbD_eq fun i hi => ?_
  rw [wordOfLanes_getLsbD]
  simp only [lane, BitVec.getLsbD_extractLsb']
  (repeat' split) <;> rw [decide_eq_true (by omega), Bool.true_and] <;> congr 1 <;> omega

/-- A lane of the word put together is that byte (20_memory R65). -/
theorem lane_wordOfLanes (b0 b1 b2 b3 : Byte) :
    lane (wordOfLanes b0 b1 b2 b3) 0 = b0 ∧ lane (wordOfLanes b0 b1 b2 b3) 1 = b1 ∧
      lane (wordOfLanes b0 b1 b2 b3) 2 = b2 ∧ lane (wordOfLanes b0 b1 b2 b3) 3 = b3 := by
  refine ⟨?_, ?_, ?_, ?_⟩ <;>
    (refine BitVec.eq_of_getLsbD_eq fun i hi => ?_
     simp only [lane, BitVec.getLsbD_extractLsb', hi, decide_true, Bool.true_and, wordOfLanes_getLsbD]
     (repeat' split) <;> first | omega | (congr 1; omega))

end Sys2Proof.Machine
end

