-- ==== Sys2Proof/Laws/Perm.lean ====
section
/-! SUPPORT. The laws of the keyed permutation (42_permutation): generated tables and inverses are permutation tables, and
the inverse law R139. -/

namespace Sys2Proof.Machine

theorem isTable_iff {T : Table} : isTable T = true ↔ T.Nodup ∧ ∀ x ∈ T, 1 ≤ x ∧ x ≤ T.length := by
  simp [isTable]

@[simp] theorem identityTable_length (N : Nat) : (identityTable N).length = N := by simp [identityTable]

/-- The identity on 1..N is a permutation table (42_permutation R134). -/
theorem isTable_identityTable (N : Nat) : isTable (identityTable N) = true := by
  refine isTable_iff.2 ⟨List.nodup_range.map (fun a b h => by simpa using h), fun x hx => ?_⟩
  simp [identityTable] at hx ⊢
  omega

/-- Reordering the entries of a permutation table leaves a permutation table. -/
theorem isTable_of_perm {T U : Table} (h : T.Perm U) (hU : isTable U = true) : isTable T = true := by
  obtain ⟨hn, hb⟩ := isTable_iff.1 hU
  exact isTable_iff.2 ⟨h.nodup_iff.2 hn, fun x hx => h.length_eq ▸ hb x (h.mem_iff.1 hx)⟩

@[simp] theorem swapEntries_length (T : Table) (a b : Nat) : (swapEntries T a b).length = T.length := by
  simp [swapEntries]

/-- A swap of two entries in range reorders the table (42_permutation R134). -/
theorem swapEntries_perm {T : Table} {a b : Nat} (ha : a < T.length) (hb : b < T.length) :
    (swapEntries T a b).Perm T := by
  simp only [swapEntries, List.getD_eq_getElem?_getD, List.getElem?_eq_getElem, ha, hb, Option.getD_some]
  exact List.set_set_perm ha hb

@[simp] theorem genLoop_length (N r : Nat) (s : Word) (T : Table) : (genLoop N r s T).length = T.length := by
  induction r generalizing s T with
  | zero => rfl
  | succ r ih => simp [genLoop, ih]

theorem genLoop_perm {N : Nat} (r : Nat) (s : Word) {T : Table} (h : T.length = N) : (genLoop N r s T).Perm T := by
  induction r generalizing s T with
  | zero => rfl
  | succ r ih =>
    simp only [genLoop]
    rcases Nat.eq_zero_or_pos N with hN | hN
    · have hT : T = [] := List.length_eq_zero_iff.1 (h.trans hN)
      refine (ih _ (by simp [h])).trans ?_
      simp [hT, swapEntries]
    · exact (ih _ (by simp [h])).trans
        (swapEntries_perm (by rw [h]; exact Nat.mod_lt _ hN) (by rw [h]; exact Nat.mod_lt _ hN))

@[simp] theorem generate_length (k : List Byte) (N : Nat) : (generate k N).length = N := by
  unfold generate
  split <;> simp

/-- `generate` always gives a permutation table (42_permutation R134). -/
theorem isTable_generate (k : List Byte) (N : Nat) : isTable (generate k N) = true := by
  unfold generate
  split
  · exact isTable_identityTable N
  · exact isTable_of_perm (genLoop_perm _ _ (by simp)) (isTable_identityTable N)

@[simp] theorem invertFrom_length (p : Nat) (U T : Table) : (invertFrom p U T).length = U.length := by
  induction T generalizing p U with
  | nil => rfl
  | cons x T ih => simp [invertFrom, ih]

@[simp] theorem invert_length (T : Table) : (invert T).length = T.length := by simp [invert]

/-- An index no remaining entry names keeps its value. -/
theorem invertFrom_other (p : Nat) (U T : Table) {k : Nat} (h : ∀ x ∈ T, x - 1 ≠ k) :
    (invertFrom p U T)[k]? = U[k]? := by
  induction T generalizing p U with
  | nil => rfl
  | cons x T ih =>
    rw [invertFrom, ih _ _ (fun y hy => h y (List.mem_cons_of_mem _ hy)),
      List.getElem?_set_ne (h x List.mem_cons_self)]

/-- The index an entry names holds the entry's position. -/
theorem invertFrom_entry (p : Nat) (U : Table) {T : Table} (hn : T.Nodup)
    (hb : ∀ x ∈ T, 1 ≤ x ∧ x ≤ U.length) {j : Nat} (hj : j < T.length) :
    (invertFrom p U T)[T[j] - 1]? = some (p + j) := by
  induction T generalizing p U j with
  | nil => simp at hj
  | cons x T ih =>
    have hx := hb x List.mem_cons_self
    obtain ⟨hxT, hn⟩ := List.nodup_cons.1 hn
    cases j with
    | zero =>
      rw [invertFrom, invertFrom_other]
      · rw [List.getElem_cons_zero, List.getElem?_set_self (by omega)]; rfl
      · intro y hy
        have := hb y (List.mem_cons_of_mem _ hy)
        have : y ≠ x := fun h => hxT (h ▸ hy)
        simp; omega
    | succ j =>
      have := ih (p + 1) (U.set (x - 1) p) hn (fun y hy => by simpa using hb y (List.mem_cons_of_mem _ hy))
        (by simpa using hj)
      rw [invertFrom]
      simpa [Nat.add_assoc, Nat.add_comm 1] using this

/-- The defining property of the inverse: `U[T[j] - 1] = j + 1` (42_permutation R137). -/
theorem invert_entry {T : Table} (h : isTable T = true) {j : Nat} (hj : j < T.length) :
    (invert T)[T[j] - 1]? = some (j + 1) := by
  obtain ⟨hn, hb⟩ := isTable_iff.1 h
  rw [invert, invertFrom_entry 1 _ hn (by simpa using hb) hj, Nat.add_comm]

/-- Every number of 1..N is an entry of a permutation table of size N. -/
theorem isTable_surjective {T : Table} (h : isTable T = true) {k : Nat} (hk : k < T.length) :
    ∃ j, ∃ hj : j < T.length, T[j] = k + 1 := by
  obtain ⟨hn, hb⟩ := isTable_iff.1 h
  have hsub : T ⊆ identityTable T.length := fun x hx => by
    have := hb x hx
    simp only [identityTable, List.mem_map, List.mem_range]
    exact ⟨x - 1, by omega, by omega⟩
  have hperm : T.Perm (identityTable T.length) := (hn.subperm hsub).perm_of_length_le (by simp)
  have hm : k + 1 ∈ T := hperm.mem_iff.2 (by simp [identityTable, hk])
  obtain ⟨j, hj, e⟩ := List.getElem_of_mem hm
  exact ⟨j, hj, e⟩

/-- The table's entry at the inverse's entry: `T[U[k] - 1] = k + 1` (42_permutation R139). -/
theorem entry_invert {T : Table} (h : isTable T = true) {k : Nat} (hk : k < T.length) :
    ∃ j, ∃ hj : j < T.length, (invert T)[k]? = some (j + 1) ∧ T[j] = k + 1 := by
  obtain ⟨j, hj, e⟩ := isTable_surjective h hk
  have := invert_entry h hj
  rw [e] at this
  exact ⟨j, hj, by simpa using this, e⟩

/-- The inverse of a permutation table is a permutation table (42_permutation R137). -/
theorem isTable_invert {T : Table} (h : isTable T = true) : isTable (invert T) = true := by
  refine isTable_iff.2 ⟨?_, fun x hx => ?_⟩
  · rw [List.nodup_iff_getElem?_ne_getElem?]
    intro i j hij hj he
    rw [invert_length] at hj
    obtain ⟨a, ha, e1, f1⟩ := entry_invert h (k := i) (by omega)
    obtain ⟨b, hb, e2, f2⟩ := entry_invert h hj
    have : a = b := by simpa [e1, e2] using he
    subst this
    omega
  · obtain ⟨k, hk, rfl⟩ := List.getElem_of_mem hx
    rw [invert_length] at hk
    obtain ⟨j, hj, e, -⟩ := entry_invert h hk
    rw [List.getElem?_eq_getElem (by simpa using hk), Option.some.injEq] at e
    simp [e]; omega

/-- The inverse of the inverse is the table (42_permutation R138). -/
theorem invert_invert {T : Table} (h : isTable T = true) : invert (invert T) = T := by
  refine List.ext_getElem? fun k => ?_
  by_cases hk : k < T.length
  · have hU := isTable_invert h
    have h1 := invert_entry h hk
    have hb := (isTable_iff.1 h).2 _ (List.getElem_mem hk)
    have hlt : T[k] - 1 < (invert T).length := by simp; omega
    have h2 := invert_entry hU hlt
    rw [List.getElem?_eq_getElem hlt, Option.some.injEq] at h1
    rw [h1] at h2
    rw [List.getElem?_eq_getElem hk]
    simpa [show T[k] - 1 + 1 = T[k] by omega] using h2
  · rw [List.getElem?_eq_none (by simpa using hk), List.getElem?_eq_none (by simpa using hk)]

/-- The reordered bit string itself. -/
def permuteBits (b : Bits) (T : Table) : Bits := T.map (fun x => b.getD (x - 1) false)

@[simp] theorem permuteBits_length (b : Bits) (T : Table) : (permuteBits b T).length = T.length := by
  simp [permuteBits]

/-- `applyPermutation` with a table of the right size. -/
theorem applyPermutation_ok {b : Bits} {T : Table} (h : T.length = b.length) :
    applyPermutation b T = .ok (permuteBits b T) := by
  simp [applyPermutation, h, permuteBits]

/-- Output bit `i` is the input bit at 1-based index `T[i]` (42_permutation R140). -/
theorem permuteBits_getElem? {b : Bits} {T : Table} (hT : isTable T = true) (hl : T.length = b.length) {i : Nat}
    (hi : i < T.length) : (permuteBits b T)[i]? = b[T[i] - 1]? := by
  have := (isTable_iff.1 hT).2 _ (List.getElem_mem hi)
  simp [permuteBits, hi, List.getElem?_eq_getElem (show T[i] - 1 < b.length by omega)]

/-- The permutation inverse law (42_permutation R139). -/
theorem permuteBits_invert {b : Bits} {T : Table} (hT : isTable T = true) (hl : T.length = b.length) :
    permuteBits (permuteBits b T) (invert T) = b := by
  refine List.ext_getElem? fun k => ?_
  by_cases hk : k < T.length
  · obtain ⟨j, hj, e, f⟩ := entry_invert hT hk
    have hk' : k < (invert T).length := by simpa using hk
    rw [permuteBits_getElem? (isTable_invert hT) (by simp) hk']
    rw [List.getElem?_eq_getElem hk', Option.some.injEq] at e
    rw [e, Nat.add_sub_cancel, permuteBits_getElem? hT hl hj, f, Nat.add_sub_cancel]
  · rw [List.getElem?_eq_none (by simpa using hk), List.getElem?_eq_none (by omega)]

end Sys2Proof.Machine
end

