-- ==== Sys2Proof/Laws/Subst.lean ====
section
/-! SUPPORT. The laws of nibble substitution (41_substitution R120, R121, R124). -/

namespace Sys2Proof.Machine

/-- SI undoes SF and SF undoes SI on every nibble (41_substitution R120). -/
theorem sbox_inverse : ∀ x : Nibble, sboxAt sboxInv (sboxAt sboxFwd x) = x ∧ sboxAt sboxFwd (sboxAt sboxInv x) = x := by
  decide

/-- The nibble of a nibble's own bits. -/
theorem nibbleOfBits_bits : ∀ y : Nibble,
    nibbleOfBits (y.getLsbD 3) (y.getLsbD 2) (y.getLsbD 1) (y.getLsbD 0) = y := by
  decide

/-- The bits of the nibble made of four bits. -/
theorem bits_nibbleOfBits : ∀ b3 b2 b1 b0 : Bool,
    (nibbleOfBits b3 b2 b1 b0).getLsbD 3 = b3 ∧ (nibbleOfBits b3 b2 b1 b0).getLsbD 2 = b2 ∧
      (nibbleOfBits b3 b2 b1 b0).getLsbD 1 = b1 ∧ (nibbleOfBits b3 b2 b1 b0).getLsbD 0 = b0 := by
  decide

/-- Substitution is length-preserving (41_substitution R121). -/
@[simp] theorem substGroups_length (t : List Nibble) (b : Bits) : (substGroups t b).length = b.length := by
  induction b using substGroups.induct t with
  | case1 b3 b2 b1 b0 rest ih => simp [substGroups, ih]
  | case2 b hb => rw [substGroups.eq_2 _ _ hb]

/-- Substituting with a table that undoes another restores the bit string (41_substitution R124). -/
theorem substGroups_substGroups {t u : List Nibble} (h : ∀ x, sboxAt u (sboxAt t x) = x) (b : Bits) :
    substGroups u (substGroups t b) = b := by
  induction b using substGroups.induct t with
  | case1 b3 b2 b1 b0 rest ih =>
    obtain ⟨h3, h2, h1, h0⟩ := bits_nibbleOfBits b3 b2 b1 b0
    simp only [substGroups, ih, nibbleOfBits_bits, h, h3, h2, h1, h0]
  | case2 b hb => rw [substGroups.eq_2 t _ hb, substGroups.eq_2 u _ hb]

/-- Each 4-bit group of the result is the table's entry at the group's value (41_substitution R121). -/
theorem substGroups_group (t : List Nibble) (b : Bits) (g : Nat) {b3 b2 b1 b0 : Bool}
    (h3 : b[4 * g]? = some b3) (h2 : b[4 * g + 1]? = some b2) (h1 : b[4 * g + 2]? = some b1)
    (h0 : b[4 * g + 3]? = some b0) :
    let y := sboxAt t (nibbleOfBits b3 b2 b1 b0)
    (substGroups t b)[4 * g]? = some (y.getLsbD 3) ∧ (substGroups t b)[4 * g + 1]? = some (y.getLsbD 2) ∧
      (substGroups t b)[4 * g + 2]? = some (y.getLsbD 1) ∧ (substGroups t b)[4 * g + 3]? = some (y.getLsbD 0) := by
  induction b using substGroups.induct t generalizing g with
  | case1 c3 c2 c1 c0 rest ih =>
    cases g with
    | zero =>
      simp at h3 h2 h1 h0
      subst h3 h2 h1 h0
      simp [substGroups]
    | succ g =>
      simp only [Nat.mul_succ, Nat.add_right_comm _ 4, List.getElem?_cons_succ] at h3 h2 h1 h0
      simpa [substGroups, Nat.mul_succ, Nat.add_right_comm _ 4] using ih g h3 h2 h1 h0
  | case2 b hb =>
    match b, hb with
    | [], _ | [_], _ | [_, _], _ | [_, _, _], _ =>
      exfalso
      have := (List.getElem?_eq_some_iff.1 h0).1
      simp only [List.length_nil, List.length_cons] at this
      omega
    | _ :: _ :: _ :: _ :: _, hb => exact absurd rfl (hb _ _ _ _ _)

/-- `substitute` on a bit string of whole groups. -/
theorem substitute_ok {b : Bits} (h : b.length % 4 = 0) (t : List Nibble) : substitute b t = .ok (substGroups t b) := by
  simp [substitute, h]

end Sys2Proof.Machine
end

