-- ==== Sys2Proof/Laws/Xor.lean ====
section
/-! SUPPORT. The laws of the keystream XOR (43_xor R150, R152). -/

namespace Sys2Proof.Machine

@[simp] theorem xorFrom_length (k : Bits) (i : Nat) (d : Bits) : (xorFrom k i d).length = d.length := by
  induction d generalizing i with
  | nil => rfl
  | cons b d ih => simp [xorFrom, ih]

/-- Bit `j` of the result is the data bit with the key bit of its index modulo the key length (43_xor R150). -/
theorem xorFrom_getElem? (k : Bits) (i : Nat) (d : Bits) (j : Nat) :
    (xorFrom k i d)[j]? = (d[j]?).map (fun b => b != k.getD ((i + j) % k.length) false) := by
  induction d generalizing i j with
  | nil => simp [xorFrom]
  | cons b d ih =>
    cases j with
    | zero => simp [xorFrom]
    | succ j => simp [xorFrom, ih, Nat.add_assoc, Nat.add_comm 1]

/-- The XOR involution on bit strings (43_xor R152). -/
theorem xorFrom_xorFrom (k : Bits) (i : Nat) (d : Bits) : xorFrom k i (xorFrom k i d) = d := by
  induction d generalizing i with
  | nil => rfl
  | cons b d ih => simp [xorFrom, ih]

/-- `xor` with a non-empty key. -/
theorem xorBits_ok {k : Bits} (h : k.length ≠ 0) (d : Bits) : xorBits k d = .ok (xorFrom k 0 d) := by
  simp [xorBits, h]

end Sys2Proof.Machine
end

