-- ==== Sys2Proof/Laws/Sched.lean ====
section
/-! SUPPORT. The laws of one round (44_scheduler R161, R162, R164, R170): a round never fails, keeps the number of bytes,
and a decrypt round undoes the encrypt round of the same index. -/

namespace Sys2Proof.Machine

/-- `decimal(i)` adds at least one digit and at most as many as it is given room for. -/
theorem decimalDigits_length (n i : Nat) (acc : List Byte) :
    acc.length + min n 1 ≤ (decimalDigits n i acc).length ∧ (decimalDigits n i acc).length ≤ acc.length + n := by
  induction n generalizing i acc with
  | zero => simp [decimalDigits]
  | succ n ih =>
    simp only [decimalDigits]
    split
    · simp
    · have := ih (i / 10) ((0x30#8 + BitVec.ofNat 8 (i % 10)) :: acc)
      simp only [List.length_cons] at this
      omega

/-- A round key is KLEN bytes and 1 to 10 digits long (44_scheduler R161). -/
theorem roundKey_length (key : List Byte) (i : Nat) :
    key.length + 1 ≤ (roundKey key i).length ∧ (roundKey key i).length ≤ key.length + 10 := by
  have := decimalDigits_length 10 i []
  simp only [roundKey, decimal, List.length_append, List.length_nil] at this ⊢
  omega

/-- The bits of a round key are never empty (44_scheduler R170). -/
theorem roundKey_bits_ne (key : List Byte) (i : Nat) : (encodeBytes (roundKey key i)).length ≠ 0 := by
  have := roundKey_length key i
  rw [encodeBytes_length]; omega

/-- The byte string one encrypt round makes. -/
def encRound (key : List Byte) (i : Nat) (m : List Byte) : List Byte :=
  packBytes (xorFrom (encodeBytes (roundKey key i)) 0
    (permuteBits (substGroups sboxFwd (encodeBytes m)) (generate (roundKey key i) (8 * m.length))))

/-- The byte string one decrypt round makes. -/
def decRound (key : List Byte) (i : Nat) (c : List Byte) : List Byte :=
  packBytes (substGroups sboxInv
    (permuteBits (xorFrom (encodeBytes (roundKey key i)) 0 (encodeBytes c))
      (invert (generate (roundKey key i) (8 * c.length)))))

/-- An encrypt round never fails (44_scheduler R170). -/
theorem encryptRound_ok (key : List Byte) (i : Nat) (m : List Byte) :
    encryptRound key i m = .ok (encRound key i m) := by
  have h1 : substitute (encodeBytes m) sboxFwd = .ok (substGroups sboxFwd (encodeBytes m)) :=
    substitute_ok (by simp; omega) _
  have h2 : applyPermutation (substGroups sboxFwd (encodeBytes m)) (generate (roundKey key i) (8 * m.length)) =
      .ok (permuteBits (substGroups sboxFwd (encodeBytes m)) (generate (roundKey key i) (8 * m.length))) :=
    applyPermutation_ok (by simp)
  simp only [encryptRound, h1, bind, Except.bind, substGroups_length, encodeBytes_length, h2,
    xorBits_ok (roundKey_bits_ne key i)]
  exact decodeBits_ok (by simp)

/-- A decrypt round never fails (44_scheduler R170). -/
theorem decryptRound_ok (key : List Byte) (i : Nat) (c : List Byte) :
    decryptRound key i c = .ok (decRound key i c) := by
  have h2 : applyPermutation (xorFrom (encodeBytes (roundKey key i)) 0 (encodeBytes c))
      (invert (generate (roundKey key i) (8 * c.length))) =
      .ok (permuteBits (xorFrom (encodeBytes (roundKey key i)) 0 (encodeBytes c))
        (invert (generate (roundKey key i) (8 * c.length)))) :=
    applyPermutation_ok (by simp)
  have h3 (T : Table) (b : Bits) (h : T.length = 8 * c.length) :
      substitute (permuteBits b T) sboxInv = .ok (substGroups sboxInv (permuteBits b T)) :=
    substitute_ok (by simp [h]; omega) _
  simp only [decryptRound, xorBits_ok (roundKey_bits_ne key i), bind, Except.bind, xorFrom_length, encodeBytes_length,
    h2, h3 (invert (generate (roundKey key i) (8 * c.length))) _ (by simp)]
  exact decodeBits_ok (by simp)

@[simp] theorem encRound_length (key : List Byte) (i : Nat) (m : List Byte) : (encRound key i m).length = m.length := by
  rw [encRound, packBytes_length _ (by simp)]; simp

@[simp] theorem decRound_length (key : List Byte) (i : Nat) (c : List Byte) : (decRound key i c).length = c.length := by
  rw [decRound, packBytes_length _ (by simp)]; simp

/-- The decrypt round of index `i` undoes the encrypt round of index `i` (44_scheduler R168). -/
theorem decRound_encRound (key : List Byte) (i : Nat) (m : List Byte) : decRound key i (encRound key i m) = m := by
  rw [decRound, encRound_length]
  conv => lhs; rw [encRound]
  rw [encodeBytes_packBytes _ (by simp), xorFrom_xorFrom, permuteBits_invert (isTable_generate _ _) (by simp),
    substGroups_substGroups (fun x => (sbox_inverse x).1), packBytes_encodeBytes]

/-- The byte string `n` encrypt rounds make, rounds 0 to n-1 in order. -/
def encRounds (key m : List Byte) : Nat → List Byte
  | 0 => m
  | n + 1 => encRound key n (encRounds key m n)

/-- The byte string `n` decrypt rounds make, rounds n-1 down to 0. -/
def decRounds (key : List Byte) : Nat → List Byte → List Byte
  | 0, c => c
  | n + 1, c => decRounds key n (decRound key n c)

theorem encryptRounds_ok (key m : List Byte) (n : Nat) : encryptRounds key m n = .ok (encRounds key m n) := by
  induction n with
  | zero => rfl
  | succ n ih => simp [encryptRounds, ih, bind, Except.bind, encryptRound_ok, encRounds]

theorem decryptRounds_ok (key : List Byte) (n : Nat) (c : List Byte) :
    decryptRounds key n c = .ok (decRounds key n c) := by
  induction n generalizing c with
  | zero => rfl
  | succ n ih => simp [decryptRounds, ih, bind, Except.bind, decryptRound_ok, decRounds]

@[simp] theorem encRounds_length (key m : List Byte) (n : Nat) : (encRounds key m n).length = m.length := by
  induction n with
  | zero => rfl
  | succ n ih => simp [encRounds, ih]

@[simp] theorem decRounds_length (key : List Byte) (n : Nat) (c : List Byte) :
    (decRounds key n c).length = c.length := by
  induction n generalizing c with
  | zero => rfl
  | succ n ih => simp [decRounds, ih]

/-- All the rounds of decrypt undo all the rounds of encrypt, the last one first. -/
theorem decRounds_encRounds (key m : List Byte) (n : Nat) : decRounds key n (encRounds key m n) = m := by
  induction n with
  | zero => rfl
  | succ n ih => rw [encRounds, decRounds, decRound_encRound, ih]

/-- What `encrypt` gives: it never fails. -/
theorem encrypt_ok (key m : List Byte) (n : Nat) : encrypt key m n = .ok (encodeBytes (encRounds key m n)) := by
  simp [encrypt, encryptRounds_ok, bind, Except.bind, pure, Except.pure]

/-- What `decrypt` gives on a bit string of whole bytes: it never fails. -/
theorem decrypt_ok (key : List Byte) {c : Bits} (h : c.length % 8 = 0) (n : Nat) :
    decrypt key c n = .ok (decRounds key n (packBytes c)) := by
  simp [decrypt, decodeBits_ok h, bind, Except.bind, decryptRounds_ok]

end Sys2Proof.Machine
end

