-- ==== Sys2Proof/Laws/Exec.lean ====
section
/-! SUPPORT. Everything a command can do, said once: it ends with an error and nothing else written, or it completes over
a state that differs from the one before in its results only. -/

namespace Sys2Proof.Machine

/-- What a command may write before it completes: DBUF bits below DLEN, a permutation table in PTAB with its size in
PSIZE, RIDX and RK. -/
structure ResultsOnly (s u : State) : Prop where
  /-- Every other field is as before. -/
  rest : u = { s with mem := u.mem, ptab := u.ptab, psize := u.psize, ridx := u.ridx, rk := u.rk }
  /-- The memory is as before, or the operand bytes were rewritten with the bits from DLEN on kept. -/
  mem : u.mem = s.mem ∨ ∃ bytes bits, s.dataOperand = some bytes ∧ bits.length = s.lat.dlen.toNat ∧
    s.lat.dlen.toNat ≤ Config.dbufBits ∧ u.mem = (s.storeBits bytes bits).mem
  /-- The table is as before, or a permutation table of PSIZE entries was stored. -/
  table : (u.ptab = s.ptab ∧ u.psize = s.psize) ∨ ∃ T : Table, isTable T = true ∧ T.length = u.psize.toNat ∧
    (u.psize = s.psize ∨ u.psize.toNat ≤ Config.dbufBits) ∧ u.ptab = T.map (BitVec.ofNat 12)
  /-- RIDX and RK are as before, or hold the index and the key of a round. -/
  round : (u.ridx = s.ridx ∧ u.rk = s.rk) ∨ (u.ridx.toNat ≤ 2 ^ 31 - 2 ∧ u.rk.length ≤ Config.rkBytes)

theorem ResultsOnly.refl (s : State) : ResultsOnly s s := ⟨rfl, .inl rfl, .inl ⟨rfl, rfl⟩, .inl ⟨rfl, rfl⟩⟩

/-- Storing a result bit string of DLEN bits writes results only. -/
theorem ResultsOnly.storeBits {s : State} {bytes : List Byte} {bits : Bits} (h : s.dataOperand = some bytes)
    (hl : bits.length = s.lat.dlen.toNat) (hd : s.lat.dlen.toNat ≤ Config.dbufBits) :
    ResultsOnly s (s.storeBits bytes bits) :=
  ⟨rfl, .inr ⟨bytes, bits, h, hl, hd, rfl⟩, .inl ⟨rfl, rfl⟩, .inl ⟨rfl, rfl⟩⟩

/-- A data command ends with an error or stores the function's result over the operand bytes. -/
theorem dataCommand_next {s t : State} {f : Bits → Except ErrKind Bits} (h : dataCommand s f = .next t) :
    (∃ e, t = s.raise e) ∨ ∃ bytes bits, s.dataOperand = some bytes ∧ f (s.dataBits bytes) = .ok bits ∧
      t = (s.storeBits bytes bits).complete false := by
  unfold dataCommand at h
  split at h
  · cases h
  · next bytes hb =>
    split at h
    · next e _ => cases h; exact .inl ⟨e, rfl⟩
    · next bits hf => cases h; exact .inr ⟨bytes, bits, hb, hf, rfl⟩

/-- A data command whose function keeps the length writes results only. -/
theorem dataCommand_results {s t : State} {f : Bits → Except ErrKind Bits} (h : dataCommand s f = .next t)
    (hd : s.lat.dlen.toNat ≤ Config.dbufBits) (hf : ∀ b c, f b = .ok c → c.length = b.length) :
    (∃ e, t = s.raise e) ∨ ∃ u, t = u.complete false ∧ ResultsOnly s u := by
  rcases dataCommand_next h with h | ⟨bytes, bits, hb, hfb, rfl⟩
  · exact .inl h
  · exact .inr ⟨_, rfl, .storeBits hb ((hf _ _ hfb).trans (State.dataBits_length hb)) hd⟩

theorem overDbufBits_false {w : Word} : overDbufBits w = false ↔ w.toNat ≤ Config.dbufBits := by
  simp [overDbufBits]

theorem overKbufBytes_false {w : Word} : overKbufBytes w = false ↔ w.toNat ≤ Config.kbufBytes := by
  simp [overKbufBytes]

theorem negativeRounds_false {w : Word} : negativeRounds w = false ↔ w.toNat < 2 ^ 31 := by
  simp only [negativeRounds, ← BitVec.msb_eq_getLsbD_last (x := w)]
  rw [BitVec.msb_eq_decide]
  simp

/-- The checks of SUBST_FWD and SUBST_INV all pass. -/
theorem substChecks_none {s : State} :
    firstError (substChecks s) = none ↔ s.lat.dlen.toNat ≤ Config.dbufBits ∧ s.lat.dlen.toNat % 4 = 0 := by
  simp [firstError_none, substChecks, overDbufBits_false]

theorem decodeChecks_none {s : State} :
    firstError (decodeChecks s) = none ↔ s.lat.dlen.toNat ≤ Config.dbufBits ∧ s.lat.dlen.toNat % 8 = 0 := by
  simp [firstError_none, decodeChecks, overDbufBits_false]

theorem permGenChecks_none {s : State} :
    firstError (permGenChecks s) = none ↔ s.lat.klen.toNat ≤ Config.kbufBytes ∧ s.lat.gsize.toNat ≤ Config.dbufBits := by
  simp [firstError_none, permGenChecks, overDbufBits_false, overKbufBytes_false]

theorem permApplyChecks_none {s : State} :
    firstError (permApplyChecks s) = none ↔ s.lat.dlen.toNat ≤ Config.dbufBits ∧ s.psize = s.lat.dlen := by
  simp [firstError_none, permApplyChecks, overDbufBits_false]

theorem xorChecks_none {s : State} :
    firstError (xorChecks s) = none ↔
      s.lat.dlen.toNat ≤ Config.dbufBits ∧ s.lat.klen.toNat ≤ Config.kbufBytes ∧ s.lat.klen ≠ 0 := by
  simp [firstError_none, xorChecks, overDbufBits_false, overKbufBytes_false]

theorem schedChecks_none {s : State} :
    firstError (schedChecks s) = none ↔
      s.lat.dlen.toNat ≤ Config.dbufBits ∧ s.lat.klen.toNat ≤ Config.kbufBytes ∧ s.lat.rounds.toNat < 2 ^ 31 ∧
        s.lat.dlen.toNat % 8 = 0 := by
  simp [firstError_none, schedChecks, overDbufBits_false, overKbufBytes_false, negativeRounds_false]

/-- A permutation table's entries are at most DBUF_BITS, so storing them in 12 bits loses nothing. -/
theorem stored_table {T : Table} (h : isTable T = true) (hl : T.length ≤ Config.dbufBits) :
    (T.map (BitVec.ofNat 12)).map BitVec.toNat = T := by
  rw [List.map_map, List.map_congr_left (g := id), List.map_id]
  intro x hx
  have := (isTable_iff.1 h).2 x hx
  have : Config.dbufBits = 2048 := rfl
  simp only [Function.comp_apply, BitVec.toNat_ofNat, id_eq]
  omega

/-- What the table operand holds: the table in PTAB, a permutation table of PSIZE entries. -/
theorem State.tableOperand_eq_some {s : State} {T : Table} :
    s.tableOperand = some T ↔ T = s.table ∧ s.table.length = s.psize.toNat ∧ isTable s.table = true := by
  unfold State.tableOperand
  split
  · next h => simp [h, eq_comm]
  · next h => simpa using fun _ hl => Bool.eq_false_iff.2 fun ht => h ⟨hl, ht⟩

theorem xorBits_length {k d r : Bits} (h : xorBits k d = .ok r) : r.length = d.length := by
  unfold xorBits at h
  split at h
  · cases h
  · cases h; simp

theorem substitute_length {t : List Nibble} {b r : Bits} (h : substitute b t = .ok r) : r.length = b.length := by
  unfold substitute at h
  split at h
  · cases h
  · cases h; simp

theorem applyPermutation_length {T : Table} {b r : Bits} (h : applyPermutation b T = .ok r) : r.length = b.length := by
  unfold applyPermutation at h
  split at h
  · cases h
  · cases h; simp; omega

/-- What SUBST_FWD and SUBST_INV can do. -/
theorem substCommand_next {t : List Nibble} {s u : State} (h : substCommand t s = .next u) :
    (∃ e, u = s.raise e) ∨ ∃ v, u = v.complete false ∧ ResultsOnly s v := by
  unfold substCommand at h
  split at h
  · next e _ => cases h; exact .inl ⟨e, rfl⟩
  · next hc => exact dataCommand_results h (substChecks_none.1 hc).1 fun _ _ => substitute_length

/-- Writing whole bytes to the operand is storing their bits. -/
theorem storeBits_encodeBytes {s : State} {m bytes : List Byte} (h : bytes.length = m.length) :
    s.storeBits m (encodeBytes bytes) = s.storeDbuf bytes := by
  rw [State.storeBits, overlayBits_full _ _ (by simp [h]), packBytes_encodeBytes]

/-- A last round's side effects are results only. -/
theorem ResultsOnly.leaveRound {s u : State} (h : ResultsOnly s u)
    {T : Table} (hT : isTable T = true) (hl : T.length = s.lat.dlen.toNat) (hd : s.lat.dlen.toNat ≤ Config.dbufBits)
    {i : Nat} (hi : i ≤ 2 ^ 31 - 2) {rk : List Byte} (hk : rk.length ≤ Config.rkBytes) :
    ResultsOnly s (u.leaveRound T i rk) := by
  have hlat : u.lat = s.lat := by rw [h.rest]
  refine ⟨?_, h.mem, .inr ⟨T, hT, ?_, .inr ?_, rfl⟩, .inr ⟨?_, hk⟩⟩
  · conv => lhs; rw [h.rest]
    simp [State.leaveRound, State.storePtab, hlat]
  · simp [hlat, hl]
  · simp [hlat, hd]
  · simp; omega

/-- What ENCRYPT's operands and result are when it completes with success. -/
theorem execEncrypt_next {s t : State} (h : execEncrypt s = .next t) :
    (∃ e, t = s.raise e) ∨ ∃ u, t = u.complete false ∧ ResultsOnly s u := by
  unfold execEncrypt at h
  split at h
  · next e _ => cases h; exact .inl ⟨e, rfl⟩
  · next hc =>
    obtain ⟨hd, hk, hr, h8⟩ := schedChecks_none.1 hc
    split at h
    · next key m hkey hm =>
      have hkl := (State.keyOperand_eq_some.1 hkey).1
      have hml := (State.dataOperand_eq_some.1 hm).1
      rw [encrypt_ok] at h
      cases h
      refine .inr ⟨_, rfl, ?_⟩
      have hs := ResultsOnly.storeBits (bits := encodeBytes (encRounds key m s.lat.rounds.toNat)) hm
        (by simp; omega) hd
      unfold State.leaveEncrypt
      split
      · exact hs
      · next h0 =>
        have := roundKey_length key (s.lat.rounds.toNat - 1)
        exact hs.leaveRound (isTable_generate _ _) (by simp [State.storeBits]) hd (by omega)
          (by simp only [Config.rkBytes, Config.kbufBytes] at *; omega)
    · cases h

/-- What DECRYPT's operands and result are when it completes with success. -/
theorem execDecrypt_next {s t : State} (h : execDecrypt s = .next t) :
    (∃ e, t = s.raise e) ∨ ∃ u, t = u.complete false ∧ ResultsOnly s u := by
  unfold execDecrypt at h
  split at h
  · next e _ => cases h; exact .inl ⟨e, rfl⟩
  · next hc =>
    obtain ⟨hd, hk, hr, h8⟩ := schedChecks_none.1 hc
    split at h
    · next key c hkey hm =>
      have hkl := (State.keyOperand_eq_some.1 hkey).1
      have hml := (State.dataOperand_eq_some.1 hm).1
      have hbl := State.dataBits_length hm
      rw [decrypt_ok _ (by omega)] at h
      cases h
      refine .inr ⟨_, rfl, ?_⟩
      have hlen : (decRounds key s.lat.rounds.toNat (packBytes (s.dataBits c))).length = c.length := by
        rw [decRounds_length, packBytes_length _ (by omega)]; omega
      have hs := ResultsOnly.storeBits
        (bits := encodeBytes (decRounds key s.lat.rounds.toNat (packBytes (s.dataBits c)))) hm
        (by rw [encodeBytes_length, hlen]; omega) hd
      rw [storeBits_encodeBytes hlen] at hs
      unfold State.leaveDecrypt
      split
      · exact hs
      · next h0 =>
        have := roundKey_length key 0
        exact hs.leaveRound (isTable_invert (isTable_generate _ _)) (by simp) hd (by omega)
          (by simp only [Config.rkBytes, Config.kbufBytes] at *; omega)
    · cases h

/-- Everything a command can do when it gives a next state: end with an error and nothing else written, or complete over
a state in which only results were written; WEAK only for PERM_GEN with KLEN = 0. -/
theorem exec_next {i : Instr} {s t : State} (h : exec i s = .next t) :
    (∃ e, t = s.raise e) ∨ ∃ u w, t = u.complete w ∧ ResultsOnly s u ∧
      (w = true ↔ i = .permGen ∧ s.lat.klen = 0) := by
  have lift : ∀ {P : Prop}, ((∃ e, t = s.raise e) ∨ ∃ u, t = u.complete false ∧ ResultsOnly s u) → ¬P →
      (∃ e, t = s.raise e) ∨ ∃ u w, t = u.complete w ∧ ResultsOnly s u ∧ (w = true ↔ P) := by
    rintro P (h | ⟨u, ht, hu⟩) hP
    · exact .inl h
    · exact .inr ⟨u, false, ht, hu, by simp [hP]⟩
  cases i with
  | nop => cases h; exact lift (.inr ⟨s, rfl, .refl s⟩) (by simp)
  | decode =>
    refine lift ?_ (by simp)
    simp only [exec, execDecode] at h
    split at h
    · next e _ => cases h; exact .inl ⟨e, rfl⟩
    · cases h; exact .inr ⟨s, rfl, .refl s⟩
  | substFwd => exact lift (substCommand_next h) (by simp)
  | substInv => exact lift (substCommand_next h) (by simp)
  | permGen =>
    simp only [exec, execPermGen] at h
    split at h
    · next e _ => cases h; exact .inl ⟨e, rfl⟩
    · next hc =>
      obtain ⟨hk, hg⟩ := permGenChecks_none.1 hc
      split at h
      · cases h
      · next key hkey =>
        cases h
        exact .inr ⟨_, _, rfl, ⟨rfl, .inl rfl, .inr ⟨_, isTable_generate key _, by simp, .inr hg, rfl⟩,
          .inl ⟨rfl, rfl⟩⟩, by simp⟩
  | permInv =>
    refine lift ?_ (by simp)
    simp only [exec, execPermInv] at h
    split at h
    · cases h
    · next T hT =>
      obtain ⟨rfl, hl, ht⟩ := State.tableOperand_eq_some.1 hT
      cases h
      exact .inr ⟨_, rfl, ⟨rfl, .inl rfl, .inr ⟨_, isTable_invert ht, by simpa using hl, .inl rfl, rfl⟩,
        .inl ⟨rfl, rfl⟩⟩⟩
  | permApply =>
    refine lift ?_ (by simp)
    simp only [exec, execPermApply] at h
    split at h
    · next e _ => cases h; exact .inl ⟨e, rfl⟩
    · next hc =>
      split at h
      · cases h
      · exact dataCommand_results h (permApplyChecks_none.1 hc).1 fun _ _ => applyPermutation_length
  | xor =>
    refine lift ?_ (by simp)
    simp only [exec, execXor] at h
    split at h
    · next e _ => cases h; exact .inl ⟨e, rfl⟩
    · next hc =>
      split at h
      · cases h
      · exact dataCommand_results h (xorChecks_none.1 hc).1 fun _ _ => xorBits_length
  | encrypt => exact lift (execEncrypt_next h) (by simp)
  | decrypt => exact lift (execDecrypt_next h) (by simp)

end Sys2Proof.Machine
end

