-- ==== Sys2Proof/Laws/HostProgram.lean ====
section
/-! SUPPORT. What the words of a `WRB` statement are (30_encoding R96), and the runs of the machine behind the host's
interface one step at a time. -/

namespace Sys2Proof.Machine

/-- A byte list of `n` bytes is written in `ceil(n/4)` words. -/
theorem wordsOfBytes_length (bs : List Byte) : (wordsOfBytes bs).length = (bs.length + 3) / 4 := by
  induction bs using wordsOfBytes.induct with
  | case5 b0 b1 b2 b3 rest ih => simp [wordsOfBytes, ih]; omega
  | _ => simp [wordsOfBytes]

/-- Byte `j` of the list is lane `j mod 4` of word `j div 4`. -/
theorem wordsOfBytes_lane (bs : List Byte) (j : Nat) (hj : j < bs.length) :
    ∃ w, (wordsOfBytes bs)[j / 4]? = some w ∧ bs[j]? = some (lane w (j % 4)) := by
  induction bs using wordsOfBytes.induct generalizing j with
  | case1 => simp at hj
  | case2 b0 =>
    obtain rfl : j = 0 := by simp at hj; omega
    exact ⟨_, rfl, by rw [(lane_wordOfLanes b0 0 0 0).1]; rfl⟩
  | case3 b0 b1 =>
    have l := lane_wordOfLanes b0 b1 0 0
    have : j = 0 ∨ j = 1 := by simp at hj; omega
    rcases this with rfl | rfl
    · exact ⟨_, rfl, by rw [l.1]; rfl⟩
    · exact ⟨_, rfl, by rw [l.2.1]; rfl⟩
  | case4 b0 b1 b2 =>
    have l := lane_wordOfLanes b0 b1 b2 0
    have : j = 0 ∨ j = 1 ∨ j = 2 := by simp at hj; omega
    rcases this with rfl | rfl | rfl
    · exact ⟨_, rfl, by rw [l.1]; rfl⟩
    · exact ⟨_, rfl, by rw [l.2.1]; rfl⟩
    · exact ⟨_, rfl, by rw [l.2.2.1]; rfl⟩
  | case5 b0 b1 b2 b3 rest ih =>
    have l := lane_wordOfLanes b0 b1 b2 b3
    by_cases h4 : j < 4
    · have : j = 0 ∨ j = 1 ∨ j = 2 ∨ j = 3 := by omega
      rcases this with rfl | rfl | rfl | rfl
      · exact ⟨_, rfl, by rw [l.1]; rfl⟩
      · exact ⟨_, rfl, by rw [l.2.1]; rfl⟩
      · exact ⟨_, rfl, by rw [l.2.2.1]; rfl⟩
      · exact ⟨_, rfl, by rw [l.2.2.2]; rfl⟩
    · obtain ⟨w, h1, h2⟩ := ih (j - 4) (by simp at hj; omega)
      refine ⟨w, ?_, ?_⟩
      · rw [wordsOfBytes, show j / 4 = (j - 4) / 4 + 1 by omega]; simpa using h1
      · rw [show j = (j - 4) + 4 by omega]; simpa using h2

/-- A run of one step more. -/
theorem run_succ {n : Nat} {s t : State} (h : step s = .next t) : core.run (n + 1) s = core.run n t := by
  have gen : ∀ (M : Host.Core) (n : Nat) (s t : M.State), M.step s = .next t → M.run (n + 1) s = M.run n t := by
    intro M n s t h
    simp only [Host.Core.run, h]
  exact gen core n s t h

end Sys2Proof.Machine
end

