-- ==== Sys2Proof/Laws/Operands.lean ====
section
/-! SUPPORT. What the operands of a command are in terms of the written bytes and of PTAB's invariant (20_memory R66,
10_state R39), and what the common shape of the data commands answers. -/

namespace Sys2Proof.Machine

theorem State.dataWritten_iff {s : State} : s.dataWritten ↔ ∃ bs, s.dataOperand = some bs := by
  cases h : s.dataOperand with
  | none =>
    obtain ⟨j, hj, hn⟩ := State.dataOperand_eq_none.1 h
    simp only [reduceCtorEq, exists_false, iff_false]
    intro hw; have := hw j hj; simp [hn] at this
  | some bs =>
    obtain ⟨hl, hb⟩ := State.dataOperand_eq_some.1 h
    simp only [Option.some.injEq, exists_eq', iff_true]
    intro j hj; rw [hb j hj]; simp; omega

theorem State.keyWritten_iff {s : State} : s.keyWritten ↔ ∃ ks, s.keyOperand = some ks := by
  cases h : s.keyOperand with
  | none =>
    obtain ⟨j, hj, hn⟩ := State.keyOperand_eq_none.1 h
    simp only [reduceCtorEq, exists_false, iff_false]
    intro hw; have := hw j hj; simp [hn] at this
  | some ks =>
    obtain ⟨hl, hb⟩ := State.keyOperand_eq_some.1 h
    simp only [Option.some.injEq, exists_eq', iff_true]
    intro j hj; rw [hb j hj]; simp; omega

theorem State.dataOperand_none {s : State} (h : ¬s.dataWritten) : s.dataOperand = none := by
  cases hd : s.dataOperand with
  | none => rfl
  | some bs => exact absurd (State.dataWritten_iff.2 ⟨bs, hd⟩) h

theorem State.keyOperand_none {s : State} (h : ¬s.keyWritten) : s.keyOperand = none := by
  cases hd : s.keyOperand with
  | none => rfl
  | some ks => exact absurd (State.keyWritten_iff.2 ⟨ks, hd⟩) h

/-- The bytes KBUF holds are the key operand. -/
theorem State.keyOperand_of {s : State} {key : List Byte} (hl : s.lat.klen.toNat = key.length)
    (h : ∀ j < key.length, s.kbufByte j = key[j]?) : s.keyOperand = some key :=
  State.keyOperand_eq_some.2 ⟨hl.symm, fun j hj => h j (by omega)⟩

/-- The bytes DBUF holds are the data operand of a whole number of bytes. -/
theorem State.dataOperand_of {s : State} {bytes : List Byte} (hl : s.lat.dlen.toNat = 8 * bytes.length)
    (h : ∀ j < bytes.length, s.dbufByte j = bytes[j]?) : s.dataOperand = some bytes :=
  State.dataOperand_eq_some.2 ⟨by omega, fun j hj => h j (by omega)⟩

/-- The data bit string of whole bytes is their encoding. -/
theorem State.dataBits_whole {s : State} {bytes : List Byte} (hl : s.lat.dlen.toNat = 8 * bytes.length) :
    s.dataBits bytes = encodeBytes bytes := by
  rw [State.dataBits, List.take_of_length_le (by simp [hl])]

/-- Bit `i` of the key operand's encoding is `KEY.bit[i]`. -/
theorem State.keyBit_eq {s : State} {key : List Byte} (h : s.keyOperand = some key) {i : Nat}
    (hi : i < 8 * s.lat.klen.toNat) : s.keyBit i = some ((encodeBytes key).getD i false) := by
  obtain ⟨hl, hk⟩ := State.keyOperand_eq_some.1 h
  have : (encodeBytes key)[i]? = s.keyBit i := by rw [encodeBytes_getElem?, State.keyBit, hk _ (by omega)]
  rw [← this, List.getD_eq_getElem?_getD, List.getElem?_eq_getElem (by simp; omega)]; rfl

/-- A data command whose function succeeds stores the result and completes. -/
theorem dataCommand_ok {s : State} {f : Bits → Except ErrKind Bits} {bs : List Byte} {bits : Bits}
    (h : s.dataOperand = some bs) (hf : f (s.dataBits bs) = .ok bits) :
    dataCommand s f = .next ((s.storeBits bs bits).complete false) := by
  simp [dataCommand, h, hf]

/-- A data command stops on an unwritten operand byte. -/
theorem dataCommand_fault {s : State} {f : Bits → Except ErrKind Bits} (h : ¬s.dataWritten) :
    dataCommand s f = .fault .uninitialisedOperand := by
  simp [dataCommand, State.dataOperand_none h]

/-- Under the invariant the table is the whole of PTAB. -/
theorem State.TableInv.table_eq {s : State} (h : s.TableInv) : s.table = s.ptab.map BitVec.toNat := by
  rw [State.table, List.take_of_length_le (by rw [h.1])]

/-- Under the invariant PTAB is the table operand, of PSIZE entries. -/
theorem State.TableInv.tableOperand {s : State} (h : s.TableInv) :
    s.table.length = s.psize.toNat ∧ s.tableOperand = some s.table := by
  have hl : s.table.length = s.psize.toNat := by rw [h.table_eq]; simpa using h.1
  exact ⟨hl, State.tableOperand_eq_some.2 ⟨rfl, hl, h.2.2⟩⟩

/-- Under the invariant each entry below PSIZE is in 1..PSIZE. -/
theorem State.TableInv.entry {s : State} (h : s.TableInv) {k : Nat} (hk : k < s.psize.toNat) :
    ∃ e, s.ptab[k]? = some e ∧ s.table[k]? = some e.toNat ∧ 1 ≤ e.toNat ∧ e.toNat ≤ s.psize.toNat := by
  have hk' : k < s.ptab.length := by rw [h.1]; exact hk
  have ht : s.table[k]? = some s.ptab[k].toNat := by rw [h.table_eq]; simp [hk']
  have hr := (isTable_iff.1 h.2.2).2 _ (List.mem_of_getElem? ht)
  rw [h.tableOperand.1] at hr
  exact ⟨s.ptab[k], List.getElem?_eq_getElem hk', ht, hr⟩

/-- Storing a permutation table establishes the invariant. -/
theorem State.TableInv.of_stored {t : State} {T : Table} (h : t.ptab = T.map (BitVec.ofNat 12)) (hT : isTable T = true)
    (hl : T.length = t.psize.toNat) (hd : t.psize.toNat ≤ Config.dbufBits) : t.TableInv ∧ t.table = T := by
  have e : t.table = T := by
    rw [State.table, List.take_of_length_le (by rw [h]; simp [hl]), h, stored_table hT (by rw [hl]; exact hd)]
  exact ⟨⟨by rw [h]; simpa using hl, hd, e ▸ hT⟩, e⟩

/-- ENCRYPT with its checks passed and its operands written: the rounds' result in DBUF, the last round left behind. -/
theorem execEncrypt_ok {s : State} {key m : List Byte} (hc : firstError (schedChecks s) = none)
    (hk : s.keyOperand = some key) (hm : s.dataOperand = some m) :
    execEncrypt s = .next (((s.storeDbuf (encRounds key m s.lat.rounds.toNat)).leaveEncrypt key
      s.lat.rounds.toNat).complete false) := by
  simp only [execEncrypt, hc, hk, hm, encrypt_ok]
  rw [storeBits_encodeBytes (by simp)]

/-- DECRYPT with its checks passed and its operands written: the rounds' result in DBUF, the last round left behind. -/
theorem execDecrypt_ok {s : State} {key c : List Byte} (hc : firstError (schedChecks s) = none)
    (hl : s.lat.dlen.toNat = 8 * c.length) (hk : s.keyOperand = some key) (hm : s.dataOperand = some c) :
    execDecrypt s = .next (((s.storeDbuf (decRounds key s.lat.rounds.toNat c)).leaveDecrypt key
      s.lat.rounds.toNat).complete false) := by
  simp only [execDecrypt, hc, hk, hm, State.dataBits_whole hl,
    decrypt_ok key (show (encodeBytes c).length % 8 = 0 by simp), packBytes_encodeBytes]

/-- No error kind has the code of success. -/
theorem ErrKind.code_ne (e : ErrKind) : e.code ≠ 0 := by cases e <;> decide

end Sys2Proof.Machine
end

