-- ==== Sys2Proof/Laws/PerInstr.lean ====
section
/-! SUPPORT. The statement made of every command as what a host program writes: its encoding and its mnemonic
(30_encoding R90, R91, R96). -/

/-- The word of a command is well formed, has RSVD = 0 and an OPC below 0x0A, and the command's mnemonic names it and no
other command. -/
def Sys2Proof.Laws.EncodingForm.Statement (i : Sys2Proof.Instr) : Prop :=
  Sys2Proof.wellFormedWord (Sys2Proof.encodeInstr i) = true ∧ Sys2Proof.cmdRsvd (Sys2Proof.encodeInstr i) = 0 ∧
    Sys2Proof.cmdOpc (Sys2Proof.encodeInstr i) < 0x0A ∧ Sys2Proof.Instr.ofMnemonic i.mnemonic = some i

namespace Sys2Proof.Laws.EncodingForm

theorem nop : Statement .nop := by unfold Statement; decide

theorem decode : Statement .decode := by unfold Statement; decide

theorem substFwd : Statement .substFwd := by unfold Statement; decide

theorem substInv : Statement .substInv := by unfold Statement; decide

theorem permGen : Statement .permGen := by unfold Statement; decide

theorem permInv : Statement .permInv := by unfold Statement; decide

theorem permApply : Statement .permApply := by unfold Statement; decide

theorem xor : Statement .xor := by unfold Statement; decide

theorem encrypt : Statement .encrypt := by unfold Statement; decide

theorem decrypt : Statement .decrypt := by unfold Statement; decide

end Sys2Proof.Laws.EncodingForm
end

