-- ==== Sys2Proof/Laws/Step.lean ====
section
/-! SUPPORT. Everything a step can do, said once. -/

namespace Sys2Proof.Machine

/-- Taking the first event off the schedule. -/
def State.popped (s : State) : State := { s with schedule := s.schedule.tail }

/-- The engine's turn with a command in progress runs it or ends it with IllegalCommand. -/
theorem engineTurn_running {s : State} (h : s.running = true) :
    engineTurn s = match decodeWord s.lat.cmd with
      | .ok i => exec i s
      | .error _ => .next (s.raise .illegalCommand) := by
  unfold engineTurn
  exact (if_pos h).trans (by cases decodeWord s.lat.cmd <;> rfl)

theorem engineTurn_idle {s : State} (h : s.running = false) : engineTurn s = .next s := by
  simp [engineTurn, h]

/-- What the engine's turn can do when it gives a next state: run the decoded command, end an illegal word, or nothing. -/
theorem engineTurn_next {s t : State} (h : engineTurn s = .next t) :
    (s.running = true ∧ ∃ i, decodeWord s.lat.cmd = .ok i ∧ exec i s = .next t) ∨
      (s.running = true ∧ t = s.raise .illegalCommand) ∨ (s.running = false ∧ t = s) := by
  unfold engineTurn at h
  split at h
  · next hr =>
    split at h
    · next i hi => exact .inl ⟨hr, i, hi, h⟩
    · cases h; exact .inr (.inl ⟨hr, rfl⟩)
  · next hr => cases h; exact .inr (.inr ⟨Bool.eq_false_iff.2 hr, rfl⟩)

/-- Everything a step can do when it gives a next state: the engine's turn (the schedule empty, or the engine at its
head), or one event at the ports. -/
theorem step_next {s t : State} (h : step s = .next t) :
    ((s.schedule = [] ∨ ∃ rest, s.schedule = .engine :: rest) ∧ engineTurn s.popped = .next t) ∨
      ∃ e rest, e ≠ .engine ∧ s.schedule = e :: rest ∧ t = s.popped.portEvent e := by
  unfold step at h
  split at h
  · next hs =>
    have : s.popped = s := by cases s; simp_all [State.popped]
    exact .inl ⟨.inl hs, by rw [this]; exact h⟩
  · next rest hs => exact .inl ⟨.inr ⟨rest, hs⟩, by simpa [State.popped, hs] using h⟩
  · next a rest hs => cases h; exact .inr ⟨_, rest, by simp, hs, by simp [State.popped, hs]⟩
  · next a v rest hs => cases h; exact .inr ⟨_, rest, by simp, hs, by simp [State.popped, hs]⟩
  · next l rest hs => cases h; exact .inr ⟨_, rest, by simp, hs, by simp [State.popped, hs]⟩

/-- A host write that changes the block: what it can be, by the word it addresses (20_memory R69). -/
theorem State.busWrite_cases (s : State) (a : Offset) (v : Word) :
    (s.busWrite a v = s ∨ s.busWrite a v = s.lost) ∨
    (a.toNat / 4 = 2 ∧ s.busWrite a v = s.writeCtrl v) ∨
    (a.toNat / 4 = 3 ∧ s.busWrite a v = s.clearFlags v) ∨
    (s.status.busy = false ∧
      ((a.toNat / 4 = 4 ∧ s.busWrite a v = s.accept v) ∨
        (a.toNat / 4 = 6 ∧ s.busWrite a v = { s with dlen := v }) ∨
        (a.toNat / 4 = 7 ∧ s.busWrite a v = { s with klen := v }) ∨
        (a.toNat / 4 = 8 ∧ s.busWrite a v = { s with rounds := v }) ∨
        (a.toNat / 4 = 9 ∧ s.busWrite a v = { s with gsize := v }) ∨
        (∃ w < 16, a.toNat / 4 = 0x400 + w ∧ s.busWrite a v = s.writeBufferWord kbufBase w v) ∨
        (∃ w < 64, a.toNat / 4 = 0x800 + w ∧ s.busWrite a v = s.writeBufferWord dbufBase w v))) := by
  by_cases h2 : a.toNat / 4 = 2
  · exact .inr (.inl ⟨h2, State.busWrite_ctrl v h2⟩)
  by_cases h3 : a.toNat / 4 = 3
  · exact .inr (.inr (.inl ⟨h3, State.busWrite_status v h3⟩))
  cases hb : s.status.busy with
  | true => exact .inl (.inr (State.busWrite_busy v hb h2 h3))
  | false =>
    rw [State.busWrite_idle a v hb]
    cases hg : regionOf a with
    | reg r =>
      have ho := regionOf_reg.1 hg
      cases r <;> simp only [Reg.offset] at ho <;> simp only [State.writeRegion, true_or] <;> first | omega | skip
      all_goals right; right; right; refine ⟨trivial, ?_⟩
      · exact .inl ⟨by omega, trivial⟩
      · exact .inr (.inl ⟨by omega, trivial⟩)
      · exact .inr (.inr (.inl ⟨by omega, trivial⟩))
      · exact .inr (.inr (.inr (.inl ⟨by omega, trivial⟩)))
      · exact .inr (.inr (.inr (.inr (.inl ⟨by omega, trivial⟩))))
    | kbuf w =>
      have := regionOf_kbuf.1 hg
      exact .inr (.inr (.inr ⟨rfl, .inr (.inr (.inr (.inr (.inr (.inl ⟨w, this.2, this.1, rfl⟩)))))⟩))
    | dbuf w =>
      have := regionOf_dbuf.1 hg
      exact .inr (.inr (.inr ⟨rfl, .inr (.inr (.inr (.inr (.inr (.inr ⟨w, this.2, this.1, rfl⟩)))))⟩))
    | ptab k => exact .inl (.inl rfl)
    | reserved => exact .inl (.inl rfl)

end Sys2Proof.Machine
end

