-- ==== Sys2Proof/Tests/Slice0.lean ====
section
/-! SUPPORT. The model's own tests. The expected values are the spec's: 95_test_vectors, or the words and tables written
out from 30_encoding and 41_substitution. Then one witness per statement, and per clause at the ends of its range, that
meets its hypotheses. -/

namespace Sys2Proof.Machine

open Sys2Proof.Claims

/-! ### Helpers -/

/-- An idle block with bytes written to KBUF and DBUF and the operand registers set. -/
def prepared (key data : List Byte) (klen dlen rounds gsize : Word) : State :=
  { State.reset with
    mem := Memory.writeBytes (Memory.writeBytes [] kbufBase key) dbufBase data
    klen := klen, dlen := dlen, rounds := rounds, gsize := gsize }

/-- The same block with a table in PTAB. -/
def withTable (s : State) (T : Table) : State := { s.storePtab T with psize := BitVec.ofNat 32 T.length }

/-- The block with a command started. -/
def started (i : Instr) (s : State) : State := s.accept (encodeInstr i)

/-- A DBUF or KBUF of `n` written bytes. -/
def filled (n : Nat) : List Byte := List.replicate n 0x5A

/-- The prepared data bytes are what DBUF holds. -/
theorem prepared_data {key data : List Byte} {klen dlen rounds gsize : Word} {j : Nat} (h : j < data.length) :
    (prepared key data klen dlen rounds gsize).dbufByte j = data[j]? := by
  simp only [prepared, State.dbufByte, Memory.read_writeBytes]
  rw [if_pos (by omega), Nat.add_sub_cancel_left]

/-- The prepared key bytes are what KBUF holds. -/
theorem prepared_key {key data : List Byte} {klen dlen rounds gsize : Word} {j : Nat} (h : j < key.length)
    (hj : j < 64) : (prepared key data klen dlen rounds gsize).kbufByte j = key[j]? := by
  simp only [prepared, State.kbufByte, Memory.read_writeBytes]
  rw [if_neg (by simp only [kbufBase, dbufBase]; omega), if_pos (by omega), Nat.add_sub_cancel_left]

theorem started_data (i : Instr) (s : State) (j : Nat) : (started i s).dbufByte j = s.dbufByte j := rfl

theorem started_key (i : Instr) (s : State) (j : Nat) : (started i s).kbufByte j = s.kbufByte j := rfl

theorem started_dlen (i : Instr) (s : State) : (started i s).lat.dlen = s.dlen := rfl

theorem started_klen (i : Instr) (s : State) : (started i s).lat.klen = s.klen := rfl

theorem filled_length (n : Nat) : (filled n).length = n := List.length_replicate

theorem filled_get {n j : Nat} (h : j < n) : (filled n)[j]? = some 0x5A := by simp [filled, h]

/-- What a step leaves of STATUS, ERRCODE and the first two DBUF bytes. -/
def outcome (o : Option State) : Option (Nat × Nat × Option Byte × Option Byte) :=
  o.map fun s => (s.status.toWord.toNat, s.errcode.toNat, s.dbufByte 0, s.dbufByte 1)

/-- What a step leaves of STATUS and the table. -/
def tableOutcome (o : Option State) : Option (Nat × List Nat × Nat) :=
  o.map fun s => (s.status.toWord.toNat, s.ptab.map BitVec.toNat, s.psize.toNat)

/-- The engine's step with a command in progress. -/
def ran (i : Instr) (s : State) : Option State := nextState (step (started i s))

/-! ### Well-formedness: each check refuses an ill-formed term (30_encoding R94, 00_scope R6) -/

theorem test_wf_word : wellFormedWord 0x00000009 = true := by decide

theorem test_wf_reserved_bits : wellFormedWord 0x00000108 = false ∧ wellFormedWord 0x80000000 = false := by decide

theorem test_wf_reserved_opcode : wellFormedWord 0x0000000A = false ∧ wellFormedWord 0x000000FF = false := by decide

theorem test_wf_dbuf_bytes :
    legalDbufBytes Config.dbufBytes = true ∧ legalDbufBytes 0 = false ∧ legalDbufBytes 6 = false ∧
      legalDbufBytes 8196 = false := by decide

theorem test_wf_kbuf_bytes :
    legalKbufBytes Config.kbufBytes = true ∧ legalKbufBytes 0 = false ∧ legalKbufBytes 66 = false ∧
      legalKbufBytes 4100 = false := by decide

/-! ### Decoding: words written out from the rows of 30_encoding R91 -/

theorem test_decode_nop : decodeWord 0b00000000000000000000000000000000 = .ok .nop := by decide

theorem test_decode_decode : decodeWord 0b00000000000000000000000000000001 = .ok .decode := by decide

theorem test_decode_substFwd : decodeWord 0b00000000000000000000000000000010 = .ok .substFwd := by decide

theorem test_decode_substInv : decodeWord 0b00000000000000000000000000000011 = .ok .substInv := by decide

theorem test_decode_permGen : decodeWord 0b00000000000000000000000000000100 = .ok .permGen := by decide

theorem test_decode_permInv : decodeWord 0b00000000000000000000000000000101 = .ok .permInv := by decide

theorem test_decode_permApply : decodeWord 0b00000000000000000000000000000110 = .ok .permApply := by decide

theorem test_decode_xor : decodeWord 0b00000000000000000000000000000111 = .ok .xor := by decide

theorem test_decode_encrypt : decodeWord 0b00000000000000000000000000001000 = .ok .encrypt := by decide

theorem test_decode_decrypt : decodeWord 0b00000000000000000000000000001001 = .ok .decrypt := by decide

/-- L2.1 rows 2 to 5: a reserved OPC, and RSVD not 0 beside a legal OPC. -/
theorem test_decode_refuses :
    decodeWord 0x0000000A = .error .reservedOpcode ∧ decodeWord 0x000000FF = .error .reservedOpcode ∧
      decodeWord 0x00000108 = .error .reservedBits ∧ decodeWord 0x80000000 = .error .reservedBits := by decide

/-- The rows of the opcode map do not overlap. -/
theorem test_opcode_rows_disjoint :
    opcodeTable.Pairwise (fun r q => r.pattern &&& r.mask &&& q.mask ≠ q.pattern &&& r.mask &&& q.mask) := by decide

/-- L1.1: the mutual-inverse invariant of the two tables. -/
theorem test_tables_inverse : ∀ x : Nibble, sboxAt sboxInv (sboxAt sboxFwd x) = x := by decide

/-! ### One or two steps per command -/

/-- L2.1 row 1. -/
theorem test_nop : outcome (ran .nop State.reset) = some (0x02, 0, none, none) := by decide

/-- L2.1 row 4, with DLEN = 7 and ROUNDS = 0xFFFFFFFF. -/
theorem test_illegal_word :
    outcome (nextState (step ((prepared [] [] 0 7 0xFFFFFFFF 0).accept 0x00000108))) = some (0x06, 0x10, none, none) := by
  decide

/-- L2.2 rows 2, 4 and 6. -/
theorem test_decode_command :
    [7, 2048, 2052].map (fun dlen => outcome (ran .decode (prepared [] [] 0 dlen 0 0))) =
      [some (0x06, 0x01, none, none), some (0x02, 0, none, none), some (0x06, 0x11, none, none)] := by decide

/-- L2.3 row 9: byte 1 keeps its low nibble. -/
theorem test_substFwd :
    outcome (ran .substFwd (prepared [] [0x41, 0x42] 0 12 0 0)) = some (0x02, 0, some 0x24, some 0x22) := by decide

/-- L2.3 row 7. -/
theorem test_substInv : outcome (ran .substInv (prepared [] [0x41] 0 8 0 0)) = some (0x02, 0, some 0x13, none) := by decide

/-- L2.4: two seeds and the first draws of "a". -/
theorem test_generator :
    seed32 [0x61] = 0xE40C292C ∧ seed32 [0x61, 0x62, 0x63, 0x32] = 0x983424BB ∧ nextDraw 0xE40C292C = 0x441AAEB8 ∧
      nextDraw 0x441AAEB8 = 0x28796D9E ∧ nextDraw 0x28796D9E = 0xBC9F401B := by decide

/-- L2.4 row 1. -/
theorem test_permGen :
    tableOutcome (ran .permGen (prepared [0x61] [] 1 0 0 8)) = some (0x02, [7, 1, 2, 3, 5, 6, 4, 8], 8) := by
  decide +kernel

/-- L2.4 row 17: the empty key reads no KBUF byte and sets WEAK. -/
theorem test_permGen_weak :
    tableOutcome (ran .permGen (prepared [] [] 0 0 0 8)) = some (0x0A, [1, 2, 3, 4, 5, 6, 7, 8], 8) := by decide +kernel

/-- L2.5 row 3. -/
theorem test_permInv :
    tableOutcome (ran .permInv (withTable State.reset [6, 3, 5, 2, 4, 1, 7, 8])) =
      some (0x02, [6, 4, 2, 5, 3, 1, 7, 8], 8) := by decide +kernel

/-- L2.6 row 6: the last two bits, past DLEN, are kept. -/
theorem test_permApply :
    outcome (ran .permApply (withTable (prepared [] [0xA9] 0 6 0 0) [1, 3, 2, 6, 5, 4])) =
      some (0x02, 0, some 0xC9, none) := by decide +kernel

/-- L2.7 row 6: twelve bits are xored, the low nibble of byte 1 kept. -/
theorem test_xor :
    outcome (ran .xor (prepared [0x78] [0xFF, 0xFF] 1 12 0 0)) = some (0x02, 0, some 0x87, some 0x8F) := by
  decide +kernel

/-- L2.7 row 11: the empty-key check comes before the unwritten operand. -/
theorem test_xor_empty_key : outcome (ran .xor (prepared [] [] 0 16 0 0)) = some (0x06, 0x04, none, none) := by decide

/-- L2.8 row 4: encrypt "Hi" with key "x" for 3 rounds. -/
theorem test_encrypt :
    outcome (ran .encrypt (prepared [0x78] [0x48, 0x69] 1 16 3 0)) = some (0x02, 0, some 0x6D, some 0x95) ∧
      tableOutcome (ran .encrypt (prepared [0x78] [0x48, 0x69] 1 16 3 0)) =
        some (0x02, [15, 2, 13, 4, 1, 9, 5, 10, 12, 6, 11, 16, 7, 14, 8, 3], 16) := by decide +kernel

/-- L2.8 row 13: InvalidRoundsValue outranks MalformedBitLength. -/
theorem test_encrypt_order : outcome (ran .encrypt (prepared [] [] 1 7 0xFFFFFFFF 0)) = some (0x06, 0x05, none, none) := by
  decide

/-- L2.8 row 5, decrypted: the keys "secret1" and "secret0", in that order. -/
theorem test_decrypt :
    outcome (ran .decrypt (prepared [0x73, 0x65, 0x63, 0x72, 0x65, 0x74] [0x1E, 0xEC] 6 16 2 0)) =
      some (0x02, 0, some 0x48, some 0x69) ∧
      tableOutcome (ran .decrypt (prepared [0x73, 0x65, 0x63, 0x72, 0x65, 0x74] [0x1E, 0xEC] 6 16 2 0)) =
        some (0x02, [15, 6, 13, 5, 8, 12, 10, 7, 14, 9, 1, 16, 4, 11, 3, 2], 16) := by decide +kernel

/-- L2.3 row 14. -/
theorem test_unwritten_operand :
    exec .substFwd (started .substFwd (prepared [] [] 0 8 0 0)) = .fault .uninitialisedOperand := by rfl

/-- L1.2: the round key of "abc" at round 2, and the largest round index has ten digits (44_scheduler R161). -/
theorem test_round_key :
    roundKey [0x61, 0x62, 0x63] 2 = [0x61, 0x62, 0x63, 0x32] ∧
      decimal 2147483646 = [0x32, 0x31, 0x34, 0x37, 0x34, 0x38, 0x33, 0x36, 0x34, 0x36] ∧ decimal 0 = [0x30] := by decide

/-! ### The bus -/

/-- L2.9 row 8: SRST with IE while busy gives the reset state; the IE bit is discarded. -/
theorem test_soft_reset : (started .nop State.reset).busWrite 0x008 0x3 = State.reset := by decide

/-- L2.9 rows 5 and 6: a write of DLEN and of CMD while busy is lost and sets OVR. -/
theorem test_busy_write :
    (started .encrypt State.reset).busWrite 0x018 5 =
        { started .encrypt State.reset with status := ⟨true, false, false, false, true⟩ } ∧
      (started .encrypt State.reset).busWrite 0x010 0 =
        { started .encrypt State.reset with status := ⟨true, false, false, false, true⟩ } := by decide

/-- L2.9 row 2: irq with IE = 1 after NOP, and its clearing by a write of 1 to DONE. -/
theorem test_interrupt :
    (ran .nop { State.reset with ie := true }).map State.irq = some true ∧
      (ran .nop { State.reset with ie := true }).map (fun s => ((s.busWrite 0x00C 0x02).irq,
        (s.busWrite 0x00C 0x02).status.toWord)) = some (false, 0) := by decide

/-- 20_memory R65: "Hi" written to DBUF word 0 with pad bytes, read back, and at an odd address (L2.9 row 11). -/
theorem test_buffer_lanes :
    ((State.reset.busWrite 0x2000 0x00006948).dbufByte 0 = some 0x48 ∧
      (State.reset.busWrite 0x2000 0x00006948).dbufByte 1 = some 0x69 ∧
      (State.reset.busWrite 0x2000 0x00006948).dbufByte 3 = some 0 ∧
      (State.reset.busWrite 0x2000 0x00006948).readWord 0x2003 0 = 0x00006948) := by decide

/-- L2.4 after row 1: reads of the PTAB window. -/
theorem test_ptab_window :
    (withTable State.reset [7, 1, 2, 3, 5, 6, 4, 8]).readWord 0x40000 0xFF = 7 ∧
      (withTable State.reset [7, 1, 2, 3, 5, 6, 4, 8]).readWord 0x4001C 0xFF = 8 ∧
      (withTable State.reset [7, 1, 2, 3, 5, 6, 4, 8]).readWord 0x40020 0xFF = 0 := by decide +kernel

/-- Program P1, statements 1 to 7: the notation gives the bus operations of its table. -/
theorem test_enc_program :
    programEvents (encProgram [0x78] [0x48, 0x69] 3) =
      [.busWrite 0x01000 0x78, .busWrite 0x0001C 1, .busWrite 0x02000 0x6948, .busWrite 0x00018 0x10,
        .busWrite 0x00020 3, .busWrite 0x00010 8, .engine, .busRead 0x0000C] := by decide +kernel

/-- Program P2, statements 3 to 9: one round in primitive commands. -/
theorem test_enc_step :
    programEvents (encStep [0x78] 0 8) =
      [.busWrite 0x01000 0x3078, .busWrite 0x0001C 2, .busWrite 0x00024 8, .busWrite 0x00010 2, .engine, .busRead 0x0000C,
        .busWrite 0x00010 4, .engine, .busRead 0x0000C, .busWrite 0x00010 6, .engine, .busRead 0x0000C,
        .busWrite 0x00010 7, .engine, .busRead 0x0000C] := by decide +kernel

/-- The word the host places is run by the very next step. -/
theorem test_placed_word :
    nextState (step (State.reset.withFetchWord 32 0x00000000)) =
      some { State.reset with status := ⟨false, true, false, false, false⟩ } := by decide

theorem test_decode_table_word :
    decodeTableWord 32 0x00000009 = some .decrypt ∧ decodeTableWord 8 0x07 = some .xor ∧
      decodeTableWord 32 0x0000000A = none := by decide

/-! ### Witnesses: states and operands that meet the hypotheses of each statement, one a clause -/

/-- An idle block with the next events listed. -/
def scheduled (es : List Event) : State := { State.reset with schedule := es }

/-- A running ENCRYPT of "Hi" with key "x" for 3 rounds, its operands written. -/
def encrypting : State := started .encrypt (prepared [0x78] [0x48, 0x69] 1 16 3 0)

theorem witness_IllegalWordCompletesWithIllegalCommand_opcode :
    (scheduled [.busWrite 0x00010 0x0A, .engine]).idle = true ∧ 0x0A ≤ (0x0A : Word).toNat % 256 := by decide

theorem witness_IllegalWordCompletesWithIllegalCommand_reserved :
    (scheduled [.busWrite 0x00010 0x100, .engine]).idle = true ∧ (0x100 : Word).toNat / 256 ≠ 0 := by decide

theorem witness_DecoderRefusesExactlyIllegalWords : (0x108 : Word).toNat / 256 ≠ 0 ∧ (0xFF : Word).toNat / 256 = 0 ∧
    0x0A ≤ (0xFF : Word).toNat % 256 ∧ 0x0A ≤ (0x0A : Word).toNat % 256 := by decide

theorem witness_StepRunsDecodedCommand :
    encrypting.rstN = true ∧ encrypting.status.busy = true ∧ encrypting.schedule = [] ∧
      decodeWord encrypting.lat.cmd = .ok .encrypt := by decide

theorem witness_StepRunsDecodedCommand_engine :
    { encrypting with schedule := [.engine] }.status.busy = true ∧
      { encrypting with schedule := [.engine] }.schedule = .engine :: [] := by decide

theorem witness_PortEventsHappenInOrder :
    (scheduled [.busRead 0x00C]).rstN = true ∧ (scheduled [.busWrite 0x018 5]).rstN = true ∧
      (scheduled [.engine]).status.busy = false ∧ State.reset.status.busy = false ∧ State.reset.schedule = [] := by decide

theorem witness_CommandStartLatchesAndClears :
    State.reset.status.busy = false ∧ (0x010 : Offset).toNat / 4 = 4 ∧ (0x013 : Offset).toNat / 4 = 4 ∧
      encrypting.status.busy = true := by decide

theorem encrypting_inv : encrypting.Inv := by
  refine ⟨⟨by decide, by decide⟩, ⟨by decide, by decide, by decide⟩, fun _ => by decide, ⟨.inl rfl, fun h => ?_⟩,
    by decide, by decide⟩
  cases h

theorem encrypting_written : encrypting.dataWritten ∧ encrypting.keyWritten := by
  unfold State.dataWritten State.keyWritten; decide +kernel

theorem witness_AcceptedCommandCompletes :
    encrypting.Inv ∧ encrypting.status.busy = true ∧ encrypting.schedule = [] ∧ encrypting.dataWritten ∧
      encrypting.keyWritten := ⟨encrypting_inv, rfl, rfl, encrypting_written⟩

/-- The operand premises hold at once where a length is over capacity: the command then ends with an error. -/
theorem witness_AcceptedCommandCompletes_over :
    (started .encrypt (prepared [] [] 65 2049 0 0)).status.busy = true ∧
      ¬(started .encrypt (prepared [] [] 65 2049 0 0)).lat.dlen.toNat ≤ 2048 ∧
      ¬(started .encrypt (prepared [] [] 65 2049 0 0)).lat.klen.toNat ≤ 64 := by decide

theorem witness_BusyWriteIsLost :
    encrypting.status.busy = true ∧ (0x007 : Offset).toNat / 4 ≠ 2 ∧ (0x010 : Offset).toNat / 4 ≠ 3 ∧
      (0xFFFFF : Offset).toNat / 4 ≠ 3 := by decide

theorem witness_BusyWriteIsLost_ovr_status :
    ∃ s t : State, s.status.ovr = true ∧ step s = .next t ∧ t.status.ovr = false :=
  ⟨{ scheduled [.busWrite 0x00C 0x10] with status := ⟨false, false, false, false, true⟩ }, _, rfl, rfl, by decide⟩

theorem witness_BusyWriteIsLost_ovr_soft_reset :
    ∃ s t : State, s.status.ovr = true ∧ step s = .next t ∧ t.status.ovr = false :=
  ⟨{ scheduled [.busWrite 0x008 0x2] with status := ⟨false, false, false, false, true⟩ }, _, rfl, rfl, by decide⟩

theorem witness_BusyWriteIsLost_ovr_reset :
    ∃ s t : State, s.status.ovr = true ∧ step s = .next t ∧ t.status.ovr = false :=
  ⟨{ scheduled [.rstN false] with status := ⟨false, false, false, false, true⟩ }, _, rfl, rfl, by decide⟩

theorem witness_CtrlAndStatusWritesAct :
    (0x008 : Offset).toNat / 4 = 2 ∧ (0x00B : Offset).toNat / 4 = 2 ∧ (0x1 : Word).getLsbD 1 = false ∧
      (0x3 : Word).getLsbD 1 = true ∧ (0x00C : Offset).toNat / 4 = 3 ∧ (0x00F : Offset).toNat / 4 = 3 := by decide

theorem witness_SoftResetIsHardwareReset :
    encrypting.rstN = true ∧ (0x008 : Offset).toNat / 4 = 2 ∧ (0x3 : Word).getLsbD 1 = true := by decide

theorem witness_HardwareResetHoldsTheBlock :
    { scheduled [.busWrite 0x018 5] with rstN := false }.schedule = .busWrite 0x018 5 :: [] ∧
      { scheduled [.busRead 0x018] with rstN := false }.schedule = .busRead 0x018 :: [] ∧
      { scheduled [.engine] with rstN := false }.schedule = .engine :: [] ∧
      { scheduled [.rstN true] with rstN := false }.rstN = false ∧
      (scheduled [.rstN false]).schedule = .rstN false :: [] := by decide

theorem witness_ResetRegisterReads_states :
    afterReset State.reset ∧ afterReset (encrypting.busWrite 0x008 0x3) ∧
      afterReset ((encrypting.driveRstN false).driveRstN true) :=
  ⟨.inl rfl, .inr (.inl ⟨encrypting, 0x008, 0x3, by decide, by decide, rfl⟩), .inr (.inr ⟨encrypting, rfl⟩)⟩

theorem witness_ResetRegisterReads : 0x40000 ≤ (0x40000 : Offset).toNat ∧ 0x40000 ≤ (0xFFFFF : Offset).toNat := by decide

theorem witness_LowAddressBitsIgnored : (0x1000 : Offset).toNat / 4 = (0x1003 : Offset).toNat / 4 := by decide

theorem witness_ReadChangesOnlyReadData :
    ∃ s t : State, s.rstN = true ∧ s.schedule = .busRead 0x000 :: [] ∧ step s = .next t :=
  ⟨scheduled [.busRead 0x000], _, rfl, rfl, rfl⟩

/-- The first and the last byte offset of KBUF and of DBUF. -/
theorem witness_BufferWordWriteReadsBack :
    State.reset.status.busy = false ∧ 0x400 ≤ (0x01000 : Offset).toNat / 4 ∧ (0x0103F : Offset).toNat / 4 < 0x410 ∧
      0x800 ≤ (0x02000 : Offset).toNat / 4 ∧ (0x020FF : Offset).toNat / 4 < 0x840 := by decide

theorem witness_UnwrittenByteReadsFree :
    State.reset.status.busy = false ∧ (0x01000 : Offset).toNat / 4 = 0x400 ∧ (0x0103F : Offset).toNat / 4 = 0x40F ∧
      (0x02000 : Offset).toNat / 4 = 0x800 ∧ (0x020FF : Offset).toNat / 4 = 0x83F ∧ 3 < 4 := by decide

theorem witness_OperandRegisterWritesReadBack :
    State.reset.status.busy = false ∧ (0x018 : Offset).toNat / 4 = 6 ∧ (0x01C : Offset).toNat / 4 = 7 ∧
      (0x020 : Offset).toNat / 4 = 8 ∧ (0x027 : Offset).toNat / 4 = 9 := by decide

theorem witness_OperandRegisterWritesReadBack_read_only :
    (0x000 : Offset).toNat / 4 < 2 ∧ (0x007 : Offset).toNat / 4 < 2 ∧ (0x014 : Offset).toNat / 4 = 5 ∧
      10 ≤ (0x028 : Offset).toNat / 4 ∧ (0x037 : Offset).toNat / 4 < 14 := by decide

/-- An idle block with the table of L2.4 row 1. -/
def tabled : State := withTable (prepared [0x78] [0x41] 1 8 0 8) [7, 1, 2, 3, 5, 6, 4, 8]

theorem tabled_inv : tabled.TableInv := by
  unfold State.TableInv; decide +kernel

/-- The last entry below PSIZE, the first one from PSIZE on, and the last entry of the window. -/
theorem witness_PtabWindowIsReadOnly :
    tabled.TableInv ∧ tabled.status.busy = false ∧ (7 : Nat) < tabled.psize.toNat ∧ tabled.psize.toNat ≤ 8 ∧
      (0x4001C : Offset).toNat / 4 = 0x10000 + 7 ∧ (0x40020 : Offset).toNat / 4 = 0x10000 + 8 ∧
      (0x41FFF : Offset).toNat / 4 = 0x10000 + 2047 :=
  ⟨tabled_inv, by decide⟩

theorem witness_PtabWindowIsReadOnly_busy : (started .nop tabled).TableInv ∧ (started .nop tabled).status.busy = true :=
  ⟨tabled_inv, rfl⟩

/-- The first and the last offset of each reserved range. -/
theorem witness_ReservedOffsetsReadZero :
    14 ≤ (0x00038 : Offset).toNat / 4 ∧ (0x00FFF : Offset).toNat / 4 < 0x400 ∧ 0x410 ≤ (0x01040 : Offset).toNat / 4 ∧
      (0x01FFF : Offset).toNat / 4 < 0x800 ∧ 0x840 ≤ (0x02100 : Offset).toNat / 4 ∧
      (0x3FFFF : Offset).toNat / 4 < 0x10000 ∧ 0x10800 ≤ (0x42000 : Offset).toNat / 4 ∧
      0x10800 ≤ (0xFFFFF : Offset).toNat / 4 := by decide

theorem witness_BusyReadsAreFreeOrNormal :
    encrypting.BusyInv ∧ encrypting.status.busy = true ∧ 0x800 ≤ (0x02000 : Offset).toNat / 4 ∧
      (0x020FF : Offset).toNat / 4 < 0x840 ∧ 0x10000 ≤ (0x40000 : Offset).toNat / 4 ∧
      (0x41FFF : Offset).toNat / 4 < 0x10800 ∧ (0x028 : Offset).toNat / 4 = 10 ∧ (0x02C : Offset).toNat / 4 = 11 :=
  ⟨encrypting_inv.2.2.1, by decide⟩

/-- The words next to the open ones read normally. -/
theorem witness_BusyReadsAreFreeOrNormal_not_open :
    ¬openWhileBusy 0x01FFF ∧ ¬openWhileBusy 0x02100 ∧ ¬openWhileBusy 0x3FFFF ∧ ¬openWhileBusy 0x42000 ∧
      ¬openWhileBusy 0x027 ∧ ¬openWhileBusy 0x030 := by unfold openWhileBusy; decide

theorem witness_BusyReadsAreFreeOrNormal_normal :
    (0x00C : Offset).toNat / 4 = 3 ∧ (0x010 : Offset).toNat / 4 = 4 ∧ (0x014 : Offset).toNat / 4 = 5 ∧
      (0x018 : Offset).toNat / 4 = 6 ∧ (0x01C : Offset).toNat / 4 = 7 ∧ (0x020 : Offset).toNat / 4 = 8 ∧
      (0x024 : Offset).toNat / 4 = 9 ∧ 0x400 ≤ (0x01000 : Offset).toNat / 4 ∧ (0x0103F : Offset).toNat / 4 < 0x410 := by
  decide

/-- An illegal word in progress: its completion is the engine's turn. -/
theorem witness_InterruptFollowsCompletion_illegal :
    let s := State.reset.accept 0x0A
    s.rstN = true ∧ s.status.busy = true ∧ engineHasTurn s ∧ ∃ t, step s = .next t :=
  ⟨rfl, rfl, .inl rfl, _, rfl⟩

theorem witness_InterruptFollowsCompletion :
    (∃ t, exec .nop encrypting = .next t) ∧ (0x00C : Offset).toNat / 4 = 3 ∧ (0x008 : Offset).toNat / 4 = 2 ∧
      (0x2 : Word).getLsbD 1 = true := ⟨⟨_, rfl⟩, by decide⟩

/-- A block with a command in progress whose only set operands are these. -/
def operands (dlen klen rounds gsize : Word) : State := started .nop (prepared [] [] klen dlen rounds gsize)

theorem witness_DecodeChecksWholeBytes :
    2048 < (operands 2049 0 0 0).lat.dlen.toNat ∧ (operands 2047 0 0 0).lat.dlen.toNat ≤ 2048 ∧
      (operands 2047 0 0 0).lat.dlen.toNat % 8 ≠ 0 ∧ (operands 2048 0 0 0).lat.dlen.toNat ≤ 2048 ∧
      (operands 2048 0 0 0).lat.dlen.toNat % 8 = 0 := by decide

theorem witness_CodecRoundTrips :
    (List.replicate 8 true).length % 8 = 0 ∧ (List.replicate 7 true).length % 8 ≠ 0 ∧
      (∀ j < [0x48, 0x69].length, encrypting.dbufByte j = [0x48, 0x69][j]?) := by decide +kernel

/-- DBUF filled with DLEN = 2048. -/
def fullData : State := started .substFwd (prepared [] (filled 256) 0 2048 0 0)

theorem fullData_byte {j : Nat} (h : j < 256) : fullData.dbufByte j = some 0x5A := by
  rw [fullData, started_data, prepared_data (by rw [filled_length]; exact h), filled_get h]

theorem fullData_written : fullData.dataWritten := fun j hj => by
  rw [fullData_byte (lt_of_lt_of_le hj (by decide))]; rfl

theorem witness_SubstitutionsReplaceGroups :
    2048 < (operands 2049 0 0 0).lat.dlen.toNat ∧ (operands 2046 0 0 0).lat.dlen.toNat % 4 ≠ 0 ∧
      (operands 2048 0 0 0).lat.dlen.toNat ≤ 2048 ∧ (operands 2048 0 0 0).lat.dlen.toNat % 4 = 0 := by decide

theorem witness_SubstitutionsReplaceGroups_unwritten : ¬(operands 2048 0 0 0).dataWritten := fun h => by
  have := h 0 (by decide)
  revert this; decide

/-- The last group of a full DBUF holds 0xA. -/
theorem witness_SubstitutionsReplaceGroups_group :
    fullData.dataWritten ∧ 4 * 511 < fullData.lat.dlen.toNat ∧ groupIs fullData 511 0xA :=
  ⟨fullData_written, by decide, by
    have h := fullData_byte (j := 255) (by decide)
    refine ⟨?_, ?_, ?_, ?_⟩ <;> (rw [State.dbufBit, show (_ : Nat) / 8 = 255 from rfl, h]; decide)⟩

/-- DBUF of DLEN = 2048 in an idle block. -/
def fullIdle : State := prepared (filled 64) (filled 256) 64 2048 0x7FFFFFFF 2048

theorem fullIdle_data {j : Nat} (h : j < 256) : fullIdle.dbufByte j = some 0x5A := by
  rw [fullIdle, prepared_data (by rw [filled_length]; exact h), filled_get h]

theorem fullIdle_key {j : Nat} (h : j < 64) : fullIdle.kbufByte j = some 0x5A := by
  rw [fullIdle, prepared_key (by rw [filled_length]; exact h) h, filled_get h]

theorem fullIdle_operands : (∀ j < (filled 256).length, fullIdle.dbufByte j = (filled 256)[j]?) ∧
    ∀ j < (filled 64).length, fullIdle.kbufByte j = (filled 64)[j]? := by
  refine ⟨fun j hj => ?_, fun j hj => ?_⟩ <;> rw [filled_length] at hj
  · rw [fullIdle_data hj, filled_get hj]
  · rw [fullIdle_key hj, filled_get hj]

theorem fullIdle_written (i : Instr) : (started i fullIdle).dataWritten ∧ (started i fullIdle).keyWritten := by
  refine ⟨fun j hj => ?_, fun j hj => ?_⟩
  · rw [started_data, fullIdle_data (lt_of_lt_of_le hj (show (fullIdle.dlen.toNat + 7) / 8 ≤ 256 by decide))]; rfl
  · rw [started_key, fullIdle_key (lt_of_lt_of_le hj (show fullIdle.klen.toNat ≤ 64 by decide))]; rfl

theorem fullIdle_sizes : fullIdle.dlen.toNat = 8 * (filled 256).length ∧ fullIdle.klen.toNat = (filled 64).length := by
  rw [filled_length, filled_length]; decide

theorem fullIdle_loaded : dataLoaded fullIdle :=
  ⟨rfl, by decide, fun j hj => by rw [fullIdle_data (lt_of_lt_of_le hj (by decide))]; rfl⟩

theorem witness_SubstitutionsUndoEachOther :
    dataLoaded fullIdle ∧ fullIdle.dlen.toNat % 4 = 0 ∧ (List.replicate 4 true).length % 4 = 0 ∧
      sameData fullIdle fullIdle := ⟨fullIdle_loaded, by decide, rfl, rfl, rfl, fun _ => rfl⟩

theorem witness_GenerateMakesTwoNSwaps : ([] : List Byte) = [] ∧ ([0x61] : List Byte) ≠ [] ∧ 15 < 2 * 8 ∧ 7 < 8 := by decide

theorem witness_GeneratorSeedsAndDraws : (1 : Word) ≠ 0 := by decide

theorem witness_PermGenStoresGeneratedTable_errors :
    64 < (operands 0 65 0 0).lat.klen.toNat ∧ (operands 0 64 0 2049).lat.klen.toNat ≤ 64 ∧
      2048 < (operands 0 64 0 2049).lat.gsize.toNat := by decide

theorem witness_PermGenStoresGeneratedTable_unwritten :
    (operands 0 64 0 2048).lat.klen.toNat ≤ 64 ∧ (operands 0 64 0 2048).lat.gsize.toNat ≤ 2048 ∧
      ¬(operands 0 64 0 2048).keyWritten :=
  ⟨by decide, by decide, fun h => by have := h 63 (by decide); revert this; decide⟩

theorem witness_PermGenStoresGeneratedTable_completes :
    (started .permGen fullIdle).lat.klen.toNat ≤ 64 ∧ (started .permGen fullIdle).lat.gsize.toNat ≤ 2048 ∧
      (filled 64).length = (started .permGen fullIdle).lat.klen.toNat ∧
      ∀ j < (filled 64).length, (started .permGen fullIdle).kbufByte j = (filled 64)[j]? :=
  ⟨by decide, by decide, by rw [started_klen, fullIdle_sizes.2], fun j hj => by
    rw [started_key, fullIdle_operands.2 j hj]⟩

theorem witness_PermGenStoresGeneratedTable_weak : (operands 0 0 0 8).lat.klen = 0 ∧ 7 < (operands 0 0 0 8).lat.gsize.toNat := by decide

theorem witness_PermGenIsDeterministic :
    ∃ t t' : State, exec .permGen (started .permGen tabled) = .next t ∧
      exec .permGen (started .permGen { tabled with ie := true }) = .next t' ∧ t.status.err = false :=
  ⟨_, _, rfl, rfl, rfl⟩

theorem witness_PermInvStoresInverse : tabled.TableInv ∧ 7 < tabled.psize.toNat := ⟨tabled_inv, by decide⟩

/-- A repeated entry, and PSIZE with no entry: no reachable state. -/
theorem witness_NonBijectionStops :
    ¬((withTable State.reset [1, 1]).table.length = (withTable State.reset [1, 1]).psize.toNat ∧
        isTable (withTable State.reset [1, 1]).table = true) ∧
      ¬({ State.reset with psize := 1 }.table.length = { State.reset with psize := 1 }.psize.toNat ∧
        isTable { State.reset with psize := 1 }.table = true) := by decide +kernel

theorem witness_NonBijectionStops_apply :
    (started .permApply { (prepared [] [] 0 1 0 0) with psize := 1 }).lat.dlen.toNat ≤ 2048 ∧
      (started .permApply { (prepared [] [] 0 1 0 0) with psize := 1 }).psize =
        (started .permApply { (prepared [] [] 0 1 0 0) with psize := 1 }).lat.dlen := by decide

theorem witness_PermApplyReordersBits_errors :
    2048 < (operands 2049 0 0 0).lat.dlen.toNat ∧ (operands 2048 0 0 0).lat.dlen.toNat ≤ 2048 ∧
      (operands 2048 0 0 0).psize ≠ (operands 2048 0 0 0).lat.dlen := by decide

theorem witness_PermApplyReordersBits_unwritten :
    (started .permApply (withTable (prepared [] [] 0 8 0 0) [7, 1, 2, 3, 5, 6, 4, 8])).TableInv ∧
      (started .permApply (withTable (prepared [] [] 0 8 0 0) [7, 1, 2, 3, 5, 6, 4, 8])).psize =
        (started .permApply (withTable (prepared [] [] 0 8 0 0) [7, 1, 2, 3, 5, 6, 4, 8])).lat.dlen ∧
      ¬(started .permApply (withTable (prepared [] [] 0 8 0 0) [7, 1, 2, 3, 5, 6, 4, 8])).dataWritten :=
  ⟨tabled_inv, by decide, fun h => by have := h 0 (by decide); revert this; decide⟩

theorem witness_PermApplyReordersBits_completes :
    (started .permApply tabled).TableInv ∧ (started .permApply tabled).psize = (started .permApply tabled).lat.dlen ∧
      (started .permApply tabled).dataWritten :=
  ⟨tabled_inv, by decide, by unfold State.dataWritten; decide +kernel⟩

theorem witness_PermutationInverseLaw :
    dataLoaded tabled ∧ tabled.TableInv ∧ tabled.psize = tabled.dlen ∧ isTable [2, 1] = true ∧
      [2, 1].length = [true, false].length :=
  ⟨by unfold dataLoaded; decide +kernel, tabled_inv, by decide, by decide, rfl⟩

theorem witness_XorRepeatsTheKey_errors :
    2048 < (operands 2049 65 0 0).lat.dlen.toNat ∧ (operands 2048 65 0 0).lat.dlen.toNat ≤ 2048 ∧
      64 < (operands 2048 65 0 0).lat.klen.toNat ∧ (operands 2048 0 0 0).lat.klen = 0 := by decide

theorem witness_XorRepeatsTheKey_unwritten :
    (operands 2048 64 0 0).lat.dlen.toNat ≤ 2048 ∧ (operands 2048 64 0 0).lat.klen.toNat ≤ 64 ∧
      (operands 2048 64 0 0).lat.klen ≠ 0 ∧ ¬((operands 2048 64 0 0).dataWritten ∧ (operands 2048 64 0 0).keyWritten) :=
  ⟨by decide, by decide, by decide, fun h => by have := h.1 255 (by decide); revert this; decide⟩

theorem witness_XorRepeatsTheKey_completes :
    (started .xor fullIdle).lat.dlen.toNat = 2048 ∧ (started .xor fullIdle).lat.klen.toNat = 64 ∧
      (started .xor fullIdle).dataWritten ∧ (started .xor fullIdle).keyWritten :=
  ⟨by decide, by decide, fullIdle_written .xor⟩

theorem witness_XorIsAnInvolution :
    dataLoaded fullIdle ∧ fullIdle.klen.toNat ≤ 64 ∧ fullIdle.klen ≠ 0 ∧
      (∀ j < fullIdle.klen.toNat, (fullIdle.kbufByte j).isSome = true) ∧ [true] ≠ [] :=
  ⟨fullIdle_loaded, by decide, by decide, fun j hj => by rw [fullIdle_key (lt_of_lt_of_le hj (by decide))]; rfl, by decide⟩

theorem witness_RoundKeyEndsInDecimalIndex : 9999999999 < 10 ^ 10 := by decide

theorem witness_EncryptRoundsCompose : ∃ c, encrypt [0x78] [0x41] 0 = .ok c := ⟨_, rfl⟩

theorem witness_DecryptRoundsCompose :
    (List.replicate 8 true).length % 8 = 0 ∧ (List.replicate 9 true).length % 8 ≠ 0 := by decide

theorem witness_EncryptStoresEncryption_checks :
    2048 < (operands 2049 65 0 0).lat.dlen.toNat ∧ 64 < (operands 2048 65 0 0).lat.klen.toNat ∧
      (operands 2047 64 0x80000000 0).lat.rounds.getLsbD 31 = true ∧
      (operands 2047 64 0x7FFFFFFF 0).lat.rounds.getLsbD 31 = false ∧
      (operands 2047 64 0x7FFFFFFF 0).lat.dlen.toNat % 8 ≠ 0 := by decide

theorem witness_EncryptStoresEncryption_checks_unwritten :
    (operands 2048 64 0 0).lat.dlen.toNat % 8 = 0 ∧
      ¬((operands 2048 64 0 0).dataWritten ∧ (operands 2048 64 0 0).keyWritten) :=
  ⟨by decide, fun h => by have := h.2 0 (by decide); revert this; decide⟩

/-- The largest operands: 256 bytes, a key of 64 bytes, ROUNDS = 2^31 - 1. -/
theorem witness_EncryptStoresEncryption :
    schedulerOperands (started .encrypt fullIdle) (filled 64) (filled 256) ∧
      (started .encrypt fullIdle).lat.rounds ≠ 0 :=
  ⟨⟨by decide, by decide, by decide, by rw [started_dlen, fullIdle_sizes.1], by rw [started_klen, fullIdle_sizes.2],
    fun j hj => by rw [started_data, fullIdle_operands.1 j hj], fun j hj => by rw [started_key, fullIdle_operands.2 j hj]⟩,
    by decide⟩

theorem witness_DecryptStoresDecryption :
    schedulerOperands (started .decrypt fullIdle) (filled 64) (filled 256) ∧
      (started .decrypt fullIdle).lat.rounds ≠ 0 := witness_EncryptStoresEncryption

/-- The smallest operands: nothing, with ROUNDS = 0. -/
theorem witness_DecryptStoresDecryption_empty :
    schedulerOperands (started .decrypt State.reset) [] [] ∧ (started .decrypt State.reset).lat.rounds = 0 := by
  unfold schedulerOperands; decide +kernel

theorem witness_ZeroRoundsChangeNothing :
    (started .encrypt State.reset).lat.rounds = 0 ∧
      ∃ t, exec .encrypt (started .encrypt State.reset) = .next t ∧ t.status.err = false := ⟨rfl, _, rfl, rfl⟩

theorem witness_ZeroRoundsChangeNothing_length :
    (operands 7 64 0 0).lat.rounds = 0 ∧ (operands 7 64 0 0).lat.dlen = 7 ∧ (operands 7 64 0 0).lat.klen.toNat ≤ 64 ∧
      ∃ t, exec .decrypt (operands 7 64 0 0) = .next t := ⟨rfl, rfl, by decide, _, rfl⟩

theorem witness_RoundsNeverFail : ∃ t, exec .decrypt (started .decrypt State.reset) = .next t := ⟨_, rfl⟩

theorem witness_DecryptUndoesEncrypt : loaded fullIdle (filled 64) (filled 256) :=
  ⟨rfl, by decide, by decide, by decide, fullIdle_sizes.1, fullIdle_sizes.2, fullIdle_operands.1, fullIdle_operands.2⟩

/-- What ENCRYPT of "Hi" with no round leaves. -/
def encrypted : State := (ran .encrypt (prepared [0x78] [0x48, 0x69] 1 16 0 0)).getD State.reset

/-- A host that sets CTRL.IE and GSIZE between the two commands meets the premises on the state between them. -/
theorem witness_DecryptUndoesEncrypt_between :
    loaded (prepared [0x78] [0x48, 0x69] 1 16 0 0) [0x78] [0x48, 0x69] ∧
      runCommand .encrypt (prepared [0x78] [0x48, 0x69] 1 16 0 0) = some encrypted ∧
      { encrypted with ie := true, gsize := 9 }.idle = true ∧
      { encrypted with ie := true, gsize := 9 }.dlen = encrypted.dlen ∧
      { encrypted with ie := true, gsize := 9 }.klen = encrypted.klen ∧
      { encrypted with ie := true, gsize := 9 }.rounds = encrypted.rounds ∧
      (∀ j < 2, { encrypted with ie := true, gsize := 9 }.dbufByte j = encrypted.dbufByte j) := by
  unfold loaded; decide +kernel

/-- A round key of 64 bytes in KBUF and GSIZE = DLEN. -/
theorem witness_PrimitiveCommandsMakeEncryptRound :
    loaded (prepared (filled 63 ++ [0x30]) (filled 256) 64 2048 0 2048) (roundKey (filled 63) 0) (filled 256) ∧
      (prepared (filled 63 ++ [0x30]) (filled 256) 64 2048 0 2048).gsize =
        (prepared (filled 63 ++ [0x30]) (filled 256) 64 2048 0 2048).dlen :=
  ⟨⟨rfl, by decide, by decide, by decide, by rw [filled_length]; decide, by decide, fun _ hj => prepared_data hj,
    fun _ hj => prepared_key hj (lt_of_lt_of_le hj (by decide))⟩, rfl⟩

theorem witness_PrimitiveCommandsMakeDecryptRound :
    loaded (prepared (filled 63 ++ [0x30]) (filled 256) 64 2048 0 2048) (roundKey (filled 63) 0) (filled 256) ∧
      (prepared (filled 63 ++ [0x30]) (filled 256) 64 2048 0 2048).gsize =
        (prepared (filled 63 ++ [0x30]) (filled 256) 64 2048 0 2048).dlen := witness_PrimitiveCommandsMakeEncryptRound

theorem witness_WrbLoadsTheBuffer :
    (scheduled ((Stmt.wrbKbuf (filled 64)).events ++ [])).idle = true ∧ (filled 64).length ≤ 64 ∧
      (scheduled ((Stmt.wrbDbuf (filled 256)).events ++ [])).idle = true ∧ (filled 256).length ≤ 256 := by decide +kernel

theorem witness_EveryCommandEndsInOneCompletion_error :
    ∃ t, exec .decode (operands 7 0 0 0) = .next t ∧ t.status.err = true := ⟨_, rfl, rfl⟩

theorem witness_EveryCommandEndsInOneCompletion_success :
    ∃ t, exec .permGen (started .permGen tabled) = .next t ∧ t.status.err = false := ⟨_, rfl, rfl⟩

theorem witness_CommandsWriteOnlyResults : ∃ t, exec .permInv (started .permInv tabled) = .next t := ⟨_, rfl⟩

theorem witness_NoBitPastDlenChanges :
    ∃ t, exec .substFwd (started .substFwd (prepared [] [0x41] 0 4 0 0)) = .next t ∧
      (started .substFwd (prepared [] [0x41] 0 4 0 0)).lat.dlen.toNat ≤ 4 := ⟨_, rfl, by decide⟩

theorem witness_OnlyPermGenSetsWeak :
    ∃ t, step (started .permGen State.reset) = .next t ∧ (started .permGen State.reset).status.weak = false ∧
      t.status.weak = true := ⟨_, rfl, rfl, rfl⟩

theorem witness_OnlyTableCommandsWritePtab :
    ∃ t, step (started .permGen { State.reset with gsize := 1 }) = .next t ∧
      t.psize ≠ (started .permGen { State.reset with gsize := 1 }).psize := ⟨_, rfl, by decide⟩

theorem witness_OnlyTableCommandsWritePtab_reset :
    ∃ t, step { tabled with schedule := [.rstN false] } = .next t ∧ t.ptab ≠ tabled.ptab := ⟨_, rfl, by decide⟩

/-- A write of CTRL.SRST while a table is held. -/
theorem witness_OnlyTableCommandsWritePtab_soft_reset :
    ∃ t, step { tabled with schedule := [.busWrite 0x00008 0x2] } = .next t ∧ t.psize ≠ tabled.psize := ⟨_, rfl, by decide⟩

/-- The last byte of KBUF, written by the host. -/
theorem witness_OnlyHostWritesKbuf :
    ∃ t, step (scheduled [.busWrite 0x0103C 0x01000000]) = .next t ∧ 63 < 64 ∧
      t.kbufByte 63 ≠ (scheduled [.busWrite 0x0103C 0x01000000]).kbufByte 63 := ⟨_, rfl, by decide, by decide⟩

theorem witness_StopsOnlyOnUnwrittenOperand :
    (operands 8 0 0 0).TableInv ∧ exec .substFwd (operands 8 0 0 0) = .fault .uninitialisedOperand :=
  ⟨by unfold State.TableInv; decide +kernel, rfl⟩

/-- A write to the word before CTRL, a CTRL write with SRST = 0, and a STATUS write of every bit. -/
theorem witness_HostAccessDoesNotReachCommand :
    (operands 8 0 0 0).rstN = true ∧ (operands 8 0 0 0).status.busy = true ∧
      ¬((0x007 : Offset).toNat / 4 = 2 ∧ (0x2 : Word).getLsbD 1 = true) ∧
      ¬((0x008 : Offset).toNat / 4 = 2 ∧ (0x1 : Word).getLsbD 1 = true) ∧
      ¬((0x00C : Offset).toNat / 4 = 2 ∧ (0x1F : Word).getLsbD 1 = true) ∧
      ∃ t, exec .nop (operands 8 0 0 0) = .next t := ⟨rfl, rfl, by decide, by decide, by decide, _, rfl⟩

theorem witness_NoFlagChangesACommand :
    (∃ t, exec .permInv (started .permInv tabled) = .next t) ∧
      exec .substFwd (operands 8 0 0 0) = .fault .uninitialisedOperand := ⟨⟨_, rfl⟩, rfl⟩

theorem witness_StepKeepsInvariant : encrypting.Inv ∧ ∃ t, step { encrypting with schedule := [.busRead 0] } = .next t :=
  ⟨encrypting_inv, _, rfl⟩

end Sys2Proof.Machine
end

namespace Sys2Proof.Machine

/-! ### What the operations at the ports can do, said once -/

/-- A write to CTRL is a soft reset when bit 1 is 1, and otherwise writes IE (10_state R24). -/
theorem State.writeCtrl_cases (s : State) (v : Word) :
    (v.getLsbD 1 = true ∧ s.writeCtrl v = s.toReset) ∨ s.writeCtrl v = { s with ie := v.getLsbD 0 } := by
  unfold State.writeCtrl
  split
  · next hsrst => exact .inl ⟨hsrst, rfl⟩
  · exact .inr rfl

/-- A level of `rst_n` does nothing or leaves the reset state at that level. -/
theorem State.driveRstN_cases (s : State) (level : Bool) :
    s.driveRstN level = s ∨ s.driveRstN level = { s.toReset with rstN := level } := by
  unfold State.driveRstN
  split
  · exact .inl rfl
  · exact .inr rfl

/-- An event at the ports does nothing, is a host access to a block out of reset, or drives `rst_n`. -/
theorem State.portEvent_cases (s : State) (e : Event) :
    s.portEvent e = s ∨
      (∃ a, s.portEvent e = s.busRead a) ∨
      (∃ a v, e = .busWrite a v ∧ s.rstN = true ∧ s.portEvent e = s.busWrite a v) ∨
      (∃ level, e = .rstN level ∧ s.portEvent e = s.driveRstN level) := by
  cases hr : s.rstN with
  | false =>
    cases e with
    | rstN level => exact .inr (.inr (.inr ⟨level, rfl, rfl⟩))
    | busRead | busWrite | engine => exact .inl (by simp [State.portEvent, hr])
  | true =>
    cases e with
    | busRead a => exact .inr (.inl ⟨a, by simp [State.portEvent, hr]⟩)
    | busWrite a v => exact .inr (.inr (.inl ⟨a, v, rfl, rfl, by simp [State.portEvent, hr]⟩))
    | rstN level => exact .inr (.inr (.inr ⟨level, rfl, rfl⟩))
    | engine => exact .inl rfl

/-! ### The parts of the invariant (10_state R39, R41, R46) -/

/-- The offsets of the buffers' bytes as numbers (20_memory R64). -/
theorem bufferOffset_iff {a : Nat} :
    bufferOffset a = true ↔ 0x1000 ≤ a ∧ a < 0x1040 ∨ 0x2000 ≤ a ∧ a < 0x2100 := by
  simp [bufferOffset, kbufBase, dbufBase, Config.kbufBytes, Config.dbufBytes]

/-- Writing bytes of KBUF or DBUF keeps the memory canonical and inside the buffers. -/
theorem State.MemoryInv.writeBytes {s t : State} (h : s.MemoryInv) {a : Nat} {vs : List Byte}
    (hm : t.mem = Memory.writeBytes s.mem a vs) (hb : ∀ c, a ≤ c → c < a + vs.length → bufferOffset c = true) :
    t.MemoryInv := by
  obtain ⟨hwf, hin⟩ := h
  refine ⟨hm ▸ Memory.writeBytes_wf hwf a vs, fun c hc => ?_⟩
  rcases Memory.mem_writeBytes (hm ▸ hc) with ⟨hlo, hhi⟩ | hold
  · exact hb c.1 hlo hhi
  · exact hin c hold

/-- On an idle block nothing is asked of the latched values. -/
theorem State.BusyInv.of_idle {s : State} (h : s.status.busy = false) : s.BusyInv :=
  fun hb => absurd hb (by simp [h])

/-- With code 0 and ERR clear the error code is in order (60_exceptions R180, R182). -/
theorem State.CodeInv.of_no_error {s : State} (hc : s.errcode = 0) (he : s.status.err = false) : s.CodeInv :=
  ⟨.inl hc, fun h => absurd h (by simp [he])⟩

/-- Settles O58: at reset nothing is written, PTAB is the empty table, and every flag and code is 0. -/
theorem invariantHoldsAtReset : Obligations.InvariantHoldsAtReset := by
  have hmem : State.reset.MemoryInv := ⟨rfl, by simp [State.reset]⟩
  have htable : State.reset.TableInv := ⟨rfl, Nat.zero_le _, rfl⟩
  have hround : State.reset.RoundInv := ⟨Nat.zero_le _, Nat.zero_le _⟩
  exact ⟨hmem, htable, .of_idle rfl, .of_no_error rfl rfl, hround⟩

/-! ### What the commands keep -/

/-- A command's results keep the memory canonical and inside the buffers. -/
theorem ResultsOnly.memoryInv {s u : State} (hu : ResultsOnly s u) (h : s.MemoryInv) : u.MemoryInv := by
  rcases hu.mem with hm | ⟨bytes, bits, hbytes, hbits, hd, hm⟩
  · simpa only [State.MemoryInv, hm] using h
  · have hlen := (State.dataOperand_eq_some.1 hbytes).1
    refine h.writeBytes (hm.trans (State.storeDbuf_mem s _)) fun c hlo hhi => ?_
    rw [overlayBits_length _ _ (by omega)] at hhi
    simp only [Config.dbufBits, Config.dbufBytes, dbufBase] at hd hlo hhi
    exact bufferOffset_iff.2 (by omega)

/-- A command's results keep PTAB a permutation table of PSIZE entries (10_state R39). -/
theorem ResultsOnly.tableInv {s u : State} (hu : ResultsOnly s u) (h : s.TableInv) : u.TableInv := by
  rcases hu.table with ⟨hp, hs⟩ | ⟨T, hT, hl, hsize, hp⟩
  · simpa only [State.TableInv, State.table, hp, hs] using h
  · have hcap : u.psize.toNat ≤ Config.dbufBits := hsize.elim (fun e => e ▸ h.2.1) id
    exact (State.TableInv.of_stored hp hT hl hcap).1

/-- A command's results keep RIDX and RK in range (10_state R40, R44). -/
theorem ResultsOnly.roundInv {s u : State} (hu : ResultsOnly s u) (h : s.RoundInv) : u.RoundInv := by
  rcases hu.round with ⟨hi, hk⟩ | hnew
  · simpa only [State.RoundInv, hi, hk] using h
  · exact hnew

/-- An error completion keeps the invariant: the block is idle, with a listed code and WEAK clear (60_exceptions R183). -/
theorem State.Inv.raise {s : State} (h : s.Inv) (e : ErrKind) : (s.raise e).Inv := by
  obtain ⟨hmem, htable, -, -, hround⟩ := h
  exact ⟨hmem, htable, .of_idle rfl, ⟨.inr ⟨e, rfl⟩, fun _ => ⟨e.code_ne_zero, rfl⟩⟩, hround⟩

/-- A success completion over a command's results keeps the invariant: the block is idle, with code 0 and ERR clear
(60_exceptions R182). -/
theorem State.Inv.complete {s u : State} (h : s.Inv) (hu : ResultsOnly s u) (w : Bool) : (u.complete w).Inv := by
  obtain ⟨hmem, htable, -, -, hround⟩ := h
  exact ⟨hu.memoryInv hmem, hu.tableInv htable, .of_idle rfl, .of_no_error rfl rfl, hu.roundInv hround⟩

/-- Every command keeps the invariant. -/
theorem State.Inv.exec {i : Instr} {s t : State} (h : s.Inv) (ht : exec i s = .next t) : t.Inv := by
  rcases exec_next ht with ⟨e, rfl⟩ | ⟨u, w, rfl, hu, -⟩
  · exact h.raise e
  · exact h.complete hu w

/-- The engine's turn keeps the invariant. -/
theorem State.Inv.engineTurn {s t : State} (h : s.Inv) (ht : engineTurn s = .next t) : t.Inv := by
  rcases engineTurn_next ht with ⟨-, i, -, hi⟩ | ⟨-, rfl⟩ | ⟨-, rfl⟩
  · exact h.exec hi
  · exact h.raise .illegalCommand
  · exact h

/-! ### What the events at the ports keep -/

/-- A reset establishes the invariant, whatever the level `rst_n` is driven to. -/
theorem State.toReset_inv (s : State) (level : Bool) : State.Inv { s.toReset with rstN := level } := by
  obtain ⟨hmem, htable, -, hcode, hround⟩ := invariantHoldsAtReset
  exact ⟨hmem, htable, .of_idle rfl, hcode, hround⟩

/-- A change of `rst_n` keeps the invariant. -/
theorem State.Inv.driveRstN {s : State} (h : s.Inv) (level : Bool) : (s.driveRstN level).Inv := by
  rcases s.driveRstN_cases level with e | e
  · rwa [e]
  · exact e ▸ s.toReset_inv level

/-- A write to CTRL keeps the invariant. -/
theorem State.Inv.writeCtrl {s : State} (h : s.Inv) (v : Word) : (s.writeCtrl v).Inv := by
  rcases s.writeCtrl_cases v with ⟨-, e⟩ | e
  · exact e ▸ s.toReset_inv true
  · exact e ▸ h

/-- A write to STATUS keeps the invariant: it only clears flags, and not BUSY (10_state R25). -/
theorem State.Inv.clearFlags {s : State} (h : s.Inv) (v : Word) : (s.clearFlags v).Inv := by
  obtain ⟨hmem, htable, hbusy, ⟨hlisted, herror⟩, hround⟩ := h
  refine ⟨hmem, htable, fun hb => ?_, ⟨hlisted, fun he => ?_⟩, hround⟩
  · obtain ⟨hrst, hdone, herr, hweak, hcode, hlat⟩ := hbusy hb
    exact ⟨hrst, by simp [Status.clearW1C, hdone], by simp [Status.clearW1C, herr], by simp [Status.clearW1C, hweak],
      hcode, hlat⟩
  · simp only [State.clearFlags_status, Status.clearW1C, Bool.and_eq_true] at he
    obtain ⟨hcode, hweak⟩ := herror he.1
    exact ⟨hcode, by simp [Status.clearW1C, hweak]⟩

/-- A command start keeps the invariant and latches the live registers (60_exceptions R180). -/
theorem State.Inv.accept {s : State} (h : s.Inv) (hrst : s.rstN = true) (v : Word) : (s.accept v).Inv := by
  obtain ⟨hmem, htable, -, -, hround⟩ := h
  exact ⟨hmem, htable, fun _ => ⟨hrst, rfl, rfl, rfl, rfl, rfl⟩, .of_no_error rfl rfl, hround⟩

/-- A write to a KBUF or DBUF word keeps the invariant. -/
theorem State.Inv.writeBufferWord {s : State} (h : s.Inv) {b w : Nat} (v : Word)
    (hw : b = kbufBase ∧ w < 16 ∨ b = dbufBase ∧ w < 64) : (s.writeBufferWord b w v).Inv := by
  obtain ⟨hmem, htable, hbusy, hcode, hround⟩ := h
  refine ⟨hmem.writeBytes (State.writeBufferWord_mem s b w v) fun c hlo hhi => ?_, htable, hbusy, hcode, hround⟩
  simp only [List.length_cons, List.length_nil] at hhi
  simp only [kbufBase, dbufBase] at hw
  exact bufferOffset_iff.2 (by omega)

/-- Any change of the operand registers of an idle block keeps the invariant, since LAT need not follow them. -/
theorem State.Inv.setOperands {s : State} (h : s.Inv) (hidle : s.status.busy = false) (dlen klen rounds gsize : Word) :
    State.Inv { s with dlen := dlen, klen := klen, rounds := rounds, gsize := gsize } := by
  obtain ⟨hmem, htable, -, hcode, hround⟩ := h
  exact ⟨hmem, htable, .of_idle hidle, hcode, hround⟩

/-- A host write to a block out of reset keeps the invariant. -/
theorem State.Inv.busWrite {s : State} (h : s.Inv) (hrst : s.rstN = true) (a : Offset) (v : Word) :
    (s.busWrite a v).Inv := by
  rcases s.busWrite_cases a v with (e | e) | ⟨-, e⟩ | ⟨-, e⟩ | ⟨hidle, hw⟩
  · rwa [e]
  · exact e ▸ h
  · exact e ▸ h.writeCtrl v
  · exact e ▸ h.clearFlags v
  · rcases hw with ⟨-, e⟩ | ⟨-, e⟩ | ⟨-, e⟩ | ⟨-, e⟩ | ⟨-, e⟩ | ⟨w, hlt, -, e⟩ | ⟨w, hlt, -, e⟩
    · exact e ▸ h.accept hrst v
    · exact e ▸ h.setOperands hidle v s.klen s.rounds s.gsize
    · exact e ▸ h.setOperands hidle s.dlen v s.rounds s.gsize
    · exact e ▸ h.setOperands hidle s.dlen s.klen v s.gsize
    · exact e ▸ h.setOperands hidle s.dlen s.klen s.rounds v
    · exact e ▸ h.writeBufferWord v (.inl ⟨rfl, hlt⟩)
    · exact e ▸ h.writeBufferWord v (.inr ⟨rfl, hlt⟩)

/-- Every event at the ports keeps the invariant. -/
theorem State.Inv.portEvent {s : State} (h : s.Inv) (e : Event) : (s.portEvent e).Inv := by
  rcases s.portEvent_cases e with he | ⟨a, he⟩ | ⟨a, v, -, hrst, he⟩ | ⟨level, -, he⟩
  · rwa [he]
  · exact he ▸ h
  · exact he ▸ h.busWrite hrst a v
  · exact he ▸ h.driveRstN level

/-- Settles O59: a step is the engine's turn or one event at the ports, and each keeps every part of the invariant. -/
theorem stepKeepsInvariant : Obligations.StepKeepsInvariant := by
  intro s t h ht
  have hpop : s.popped.Inv := h
  rcases step_next ht with ⟨-, hturn⟩ | ⟨e, rest, -, -, rfl⟩
  · exact hpop.engineTurn hturn
  · exact hpop.portEvent e

end Sys2Proof.Machine

namespace Sys2Proof.Machine

open Sys2Proof.Claims

/-! ### Completions, resets and irq (10_state R25, R43) -/

/-- A command leaves IE alone and sets DONE. -/
theorem exec_done_ie {i : Instr} {s t : State} (h : exec i s = .next t) : t.status.done = true ∧ t.ie = s.ie := by
  rcases exec_next h with ⟨e, rfl⟩ | ⟨u, w, rfl, hu, -⟩
  · exact ⟨rfl, rfl⟩
  · have hie : u.ie = s.ie := by rw [hu.rest]
    exact ⟨rfl, hie⟩

/-- Every completion the engine makes, an illegal word's among them, leaves IE alone and sets DONE. -/
theorem engineTurn_done_ie {s t : State} (hr : s.running = true) (h : engineTurn s = .next t) :
    t.status.done = true ∧ t.ie = s.ie := by
  rcases engineTurn_next h with ⟨-, i, -, hi⟩ | ⟨-, rfl⟩ | ⟨hidle, -⟩
  · exact exec_done_ie hi
  · exact ⟨rfl, rfl⟩
  · exact absurd hr (by simp [hidle])

/-- Taking an event off the schedule does not change whether a command is in progress. -/
theorem State.popped_running {s : State} : s.popped.running = true ↔ s.rstN = true ∧ s.status.busy = true := by
  simp [State.running, State.popped]

/-- A step in which the engine has the turn is the engine's turn. -/
theorem step_of_engineHasTurn {s : State} (h : engineHasTurn s) : step s = engineTurn s.popped := by
  rcases h with hs | ⟨rest, hs⟩
  · have hpop : s.popped = s := by cases s; simp_all [State.popped]
    simp only [step, hs, hpop]
  · simp only [step, hs, State.popped, List.tail_cons]

/-- With DONE set, irq is IE (10_state R43). -/
theorem State.irq_of_done {s : State} (h : s.status.done = true) : s.irq = s.ie := by
  simp [State.irq, h]

/-- With DONE clear, irq is 0 (10_state R43). -/
theorem State.irq_of_not_done {s : State} (h : s.status.done = false) : s.irq = false := by
  simp [State.irq, h]

/-- A write to CTRL with SRST = 1 leaves the reset state (70_reset_and_hazards R211). -/
theorem State.busWrite_softReset (s : State) {a : Offset} {v : Word} (ha : a.toNat / 4 = 2)
    (hv : v.getLsbD 1 = true) : s.busWrite a v = s.toReset := by
  rw [State.busWrite_ctrl v ha, State.writeCtrl, if_pos hv]

/-- `rst_n` driven to 0 leaves the reset state, held there (70_reset_and_hazards R210; log entry 10). -/
theorem State.driveRstN_false (s : State) : s.driveRstN false = { s.toReset with rstN := false } := rfl

/-- `rst_n` driven to 0 and back to 1 leaves the reset state (70_reset_and_hazards R210). -/
theorem State.driveRstN_false_true (s : State) : (s.driveRstN false).driveRstN true = s.toReset := rfl

/-- Settles O22: every completion sets DONE and leaves IE alone, and a start, a W1C of DONE and a reset clear DONE. -/
theorem interruptFollowsCompletion : Obligations.InterruptFollowsCompletion := by
  refine ⟨fun _ => rfl, fun i s t h => ?_, fun s t hr hb hturn h => ?_, fun _ _ => ?_, fun s a v ha hv => ?_,
    fun s a v ha hv => ?_, fun s => ⟨?_, ?_⟩⟩
  · obtain ⟨hdone, hie⟩ := exec_done_ie h
    exact ⟨hdone, (State.irq_of_done hdone).trans hie⟩
  · rw [step_of_engineHasTurn hturn] at h
    obtain ⟨hdone, hie⟩ := engineTurn_done_ie (State.popped_running.2 ⟨hr, hb⟩) h
    exact ⟨hdone, (State.irq_of_done hdone).trans hie⟩
  · exact State.irq_of_not_done rfl
  · rw [State.busWrite_status v ha]
    exact State.irq_of_not_done (by simp [Status.clearW1C, hv])
  · rw [State.busWrite_softReset s ha hv]
    exact State.irq_of_not_done rfl
  · rw [State.driveRstN_false]
    exact State.irq_of_not_done rfl
  · rw [State.driveRstN_false_true]
    exact State.irq_of_not_done rfl

/-! ### What an event at the ports leaves of WEAK, PTAB and KBUF -/

/-- The event resets the block: a CTRL write with SRST = 1, or a change of `rst_n`. -/
def resets (e : Event) : Prop :=
  (∃ a v, e = .busWrite a v ∧ a.toNat / 4 = 2 ∧ v.getLsbD 1 = true) ∨ ∃ level, e = .rstN level

/-- What an event that is no reset leaves of WEAK, PTAB, PSIZE and KBUF: WEAK does not rise, the table stays, and a KBUF
byte changes only by an idle write to its word. -/
structure PortFrame (s : State) (e : Event) (t : State) : Prop where
  /-- WEAK does not rise (10_state R25). -/
  weak : t.status.weak = true → s.status.weak = true
  /-- PTAB stays (10_state R39). -/
  ptab : t.ptab = s.ptab
  /-- PSIZE stays (10_state R32). -/
  psize : t.psize = s.psize
  /-- A KBUF byte that changed was written (10_state R37). -/
  kbuf : ∀ j < 64, t.kbufByte j ≠ s.kbufByte j →
    ∃ a v, e = .busWrite a v ∧ s.status.busy = false ∧ a.toNat / 4 = 0x400 + j / 4

/-- A change of the state that leaves the memory and the table, with WEAK not raised, is in the frame. -/
theorem PortFrame.of_mem {s t : State} {e : Event} (hw : t.status.weak = true → s.status.weak = true)
    (hp : t.ptab = s.ptab) (hs : t.psize = s.psize) (hm : t.mem = s.mem) : PortFrame s e t :=
  ⟨hw, hp, hs, fun j _ hne => absurd (by simp only [State.kbufByte, hm]) hne⟩

/-- A KBUF byte that a write to a buffer word changes is one of the word's four bytes. -/
theorem State.writeBufferWord_kbufByte {s : State} {b w j : Nat} {v : Word}
    (h : (s.writeBufferWord b w v).kbufByte j ≠ s.kbufByte j) :
    b + 4 * w ≤ kbufBase + j ∧ kbufBase + j < b + 4 * w + 4 := by
  by_contra hout
  simp only [State.kbufByte, State.writeBufferWord_mem, Memory.read_writeBytes] at h
  exact h (if_neg (by simpa using hout))

/-- An idle write to a buffer word is in the frame. -/
theorem PortFrame.writeBufferWord {s : State} {a : Offset} {v : Word} {b w : Nat} (hidle : s.status.busy = false)
    (hw : b = kbufBase ∧ a.toNat / 4 = 0x400 + w ∨ b = dbufBase) :
    PortFrame s (.busWrite a v) (s.writeBufferWord b w v) := by
  refine ⟨id, rfl, rfl, fun j hj hne => ⟨a, v, rfl, hidle, ?_⟩⟩
  have hword := State.writeBufferWord_kbufByte hne
  simp only [kbufBase, dbufBase] at hw hword
  omega

/-- A host write to CTRL with SRST = 1 resets, and any other host write is in the frame. -/
theorem State.busWrite_reset_or_frame (s : State) (a : Offset) (v : Word) :
    (a.toNat / 4 = 2 ∧ v.getLsbD 1 = true ∧ s.busWrite a v = s.toReset) ∨
      PortFrame s (.busWrite a v) (s.busWrite a v) := by
  rcases s.busWrite_cases a v with (e | e) | ⟨ha, e⟩ | ⟨-, e⟩ | ⟨hidle, hw⟩
  · rw [e]
    exact .inr (.of_mem id rfl rfl rfl)
  · exact .inr (e ▸ .of_mem id rfl rfl rfl)
  · rcases s.writeCtrl_cases v with ⟨hv, e'⟩ | e'
    · exact .inl ⟨ha, hv, e.trans e'⟩
    · exact .inr (e ▸ e' ▸ .of_mem id rfl rfl rfl)
  · have hclear : (s.clearFlags v).status.weak = true → s.status.weak = true := by
      simpa [Status.clearW1C] using fun h _ => h
    exact .inr (e ▸ .of_mem hclear rfl rfl rfl)
  · rcases hw with ⟨-, e⟩ | ⟨-, e⟩ | ⟨-, e⟩ | ⟨-, e⟩ | ⟨-, e⟩ | ⟨w, -, ha, e⟩ | ⟨w, -, -, e⟩
    · exact .inr (e ▸ .of_mem (fun h => nomatch h) rfl rfl rfl)
    · exact .inr (e ▸ .of_mem id rfl rfl rfl)
    · exact .inr (e ▸ .of_mem id rfl rfl rfl)
    · exact .inr (e ▸ .of_mem id rfl rfl rfl)
    · exact .inr (e ▸ .of_mem id rfl rfl rfl)
    · exact .inr (e ▸ .writeBufferWord hidle (.inl ⟨rfl, ha⟩))
    · exact .inr (e ▸ .writeBufferWord hidle (.inr rfl))

/-- An event at the ports is in the frame, or it resets and leaves WEAK at 0. -/
theorem State.portEvent_reset_or_frame (s : State) (e : Event) :
    (resets e ∧ (s.portEvent e).status.weak = false) ∨ PortFrame s e (s.portEvent e) := by
  rcases s.portEvent_cases e with he | ⟨a, he⟩ | ⟨a, v, rfl, -, he⟩ | ⟨level, rfl, he⟩ <;> rw [he]
  · exact .inr (.of_mem id rfl rfl rfl)
  · exact .inr (.of_mem id rfl rfl rfl)
  · rcases s.busWrite_reset_or_frame a v with ⟨ha, hv, e⟩ | hframe
    · exact .inl ⟨.inl ⟨a, v, rfl, ha, hv⟩, e ▸ rfl⟩
    · exact .inr hframe
  · rcases s.driveRstN_cases level with e | e <;> rw [e]
    · exact .inr (.of_mem id rfl rfl rfl)
    · exact .inl ⟨.inr ⟨level, rfl⟩, rfl⟩

/-! ### What the commands leave of WEAK, PTAB and KBUF -/

/-- A command that leaves WEAK set is PERM_GEN with KLEN = 0 (42_permutation R135). -/
theorem exec_weak {i : Instr} {s t : State} (h : exec i s = .next t) (hw : t.status.weak = true) :
    i = .permGen ∧ s.lat.klen = 0 := by
  rcases exec_next h with ⟨e, rfl⟩ | ⟨u, w, rfl, -, hiff⟩
  · cases hw
  · exact hiff.1 hw

/-- A data command leaves PTAB and PSIZE alone. -/
theorem dataCommand_table {s t : State} {f : Bits → Except ErrKind Bits} (h : dataCommand s f = .next t) :
    t.ptab = s.ptab ∧ t.psize = s.psize := by
  rcases dataCommand_next h with ⟨e, rfl⟩ | ⟨bytes, bits, -, -, rfl⟩
  · exact ⟨rfl, rfl⟩
  · exact ⟨rfl, rfl⟩

theorem substCommand_table {T : List Nibble} {s t : State} (h : substCommand T s = .next t) :
    t.ptab = s.ptab ∧ t.psize = s.psize := by
  unfold substCommand at h
  split at h
  · cases h; exact ⟨rfl, rfl⟩
  · exact dataCommand_table h

theorem execDecode_table {s t : State} (h : execDecode s = .next t) : t.ptab = s.ptab ∧ t.psize = s.psize := by
  unfold execDecode at h
  split at h
  · cases h; exact ⟨rfl, rfl⟩
  · cases h; exact ⟨rfl, rfl⟩

theorem execPermApply_table {s t : State} (h : execPermApply s = .next t) : t.ptab = s.ptab ∧ t.psize = s.psize := by
  unfold execPermApply at h
  split at h
  · cases h; exact ⟨rfl, rfl⟩
  · split at h
    · cases h
    · exact dataCommand_table h

theorem execXor_table {s t : State} (h : execXor s = .next t) : t.ptab = s.ptab ∧ t.psize = s.psize := by
  unfold execXor at h
  split at h
  · cases h; exact ⟨rfl, rfl⟩
  · split at h
    · cases h
    · exact dataCommand_table h

/-- Only the four table commands write PTAB or PSIZE (10_state R32, R39). -/
theorem exec_table {i : Instr} {s t : State} (h : exec i s = .next t) :
    (t.ptab = s.ptab ∧ t.psize = s.psize) ∨ (i = .permGen ∨ i = .permInv ∨ i = .encrypt ∨ i = .decrypt) := by
  cases i with
  | nop => cases h; exact .inl ⟨rfl, rfl⟩
  | decode => exact .inl (execDecode_table h)
  | substFwd | substInv => exact .inl (substCommand_table h)
  | permApply => exact .inl (execPermApply_table h)
  | xor => exact .inl (execXor_table h)
  | permGen | permInv | encrypt | decrypt => exact .inr (by simp)

/-- No command writes a byte below DBUF (10_state R37, 20_memory R63). -/
theorem exec_read_below_dbuf {i : Instr} {s t : State} (h : exec i s = .next t) {a : Nat} (ha : a < dbufBase) :
    Memory.read t.mem a = Memory.read s.mem a := by
  rcases exec_next h with ⟨e, rfl⟩ | ⟨u, w, rfl, hu, -⟩
  · rfl
  · rw [State.complete_mem]
    rcases hu.mem with hm | ⟨bytes, bits, -, -, -, hm⟩ <;> rw [hm]
    exact State.storeDbuf_read_other s _ (.inl ha)

/-! ### The three rules about a step -/

/-- A step that resets the block, as the obligations spell it. -/
theorem resets_schedule {s : State} {e : Event} {rest : List Event} (hs : s.schedule = e :: rest) (h : resets e) :
    (∃ rest a v, s.schedule = .busWrite a v :: rest ∧ a.toNat / 4 = 2 ∧ v.getLsbD 1 = true) ∨
      ∃ rest level, s.schedule = .rstN level :: rest := by
  rcases h with ⟨a, v, rfl, ha, hv⟩ | ⟨level, rfl⟩
  · exact .inl ⟨rest, a, v, hs, ha, hv⟩
  · exact .inr ⟨rest, level, hs⟩

/-- Settles O52: WEAK is 0 after a reset and after every engine's turn but that of PERM_GEN with KLEN = 0, and no other
event at the ports raises it. -/
theorem onlyPermGenSetsWeak : Obligations.OnlyPermGenSetsWeak := by
  intro s t ht hs hweak
  rcases step_next ht with ⟨hturn, hengine⟩ | ⟨e, rest, -, -, rfl⟩
  · rcases engineTurn_next hengine with ⟨hrun, i, hi, hexec⟩ | ⟨-, rfl⟩ | ⟨-, rfl⟩
    · obtain ⟨rfl, hklen⟩ := exec_weak hexec hweak
      exact ⟨hi, hklen, (State.popped_running.1 hrun).2, hturn⟩
    · cases hweak
    · exact absurd (hs.symm.trans hweak) (by decide)
  · rcases s.popped.portEvent_reset_or_frame e with ⟨-, hzero⟩ | hframe
    · exact absurd (hzero.symm.trans hweak) (by decide)
    · exact absurd (hs.symm.trans (hframe.weak hweak)) (by decide)

/-- Settles O53: of the engine's turns only the four table commands' write PTAB or PSIZE, and of the events at the ports
only a reset does. -/
theorem onlyTableCommandsWritePtab : Obligations.OnlyTableCommandsWritePtab := by
  intro s t ht hchanged
  have hkept : ¬(t.ptab = s.ptab ∧ t.psize = s.psize) := not_and_or.2 hchanged
  rcases step_next ht with ⟨hturn, hengine⟩ | ⟨e, rest, -, hsched, rfl⟩
  · rcases engineTurn_next hengine with ⟨hrun, i, hi, hexec⟩ | ⟨-, rfl⟩ | ⟨-, rfl⟩
    · obtain ⟨hrst, hbusy⟩ := State.popped_running.1 hrun
      exact .inl ⟨i, hi, hrst, hbusy, hturn, (exec_table hexec).resolve_left hkept⟩
    · exact absurd ⟨rfl, rfl⟩ hkept
    · exact absurd ⟨rfl, rfl⟩ hkept
  · rcases s.popped.portEvent_reset_or_frame e with ⟨hreset, -⟩ | hframe
    · exact .inr (resets_schedule hsched hreset)
    · exact absurd ⟨hframe.ptab, hframe.psize⟩ hkept

/-- Settles O54: no engine's turn writes a byte below DBUF, and of the events at the ports only a reset and an idle write
to the byte's own word change a KBUF byte. -/
theorem onlyHostWritesKbuf : Obligations.OnlyHostWritesKbuf := by
  intro s t j hj ht hne
  rcases step_next ht with ⟨-, hengine⟩ | ⟨e, rest, -, hsched, rfl⟩
  · rcases engineTurn_next hengine with ⟨-, i, -, hexec⟩ | ⟨-, rfl⟩ | ⟨-, rfl⟩
    · have hbelow : kbufBase + j < dbufBase := by simp only [kbufBase, dbufBase]; omega
      exact absurd (exec_read_below_dbuf hexec hbelow) hne
    · exact absurd rfl hne
    · exact absurd rfl hne
  · rcases s.popped.portEvent_reset_or_frame e with ⟨hreset, -⟩ | hframe
    · rcases resets_schedule hsched hreset with ⟨rest, a, v, hs, ha, hv⟩ | hrst
      · exact .inl ⟨rest, a, v, hs, .inr ⟨ha, hv⟩⟩
      · exact .inr hrst
    · obtain ⟨a, v, rfl, hidle, ha⟩ := hframe.kbuf j hj hne
      exact .inl ⟨rest, a, v, hsched, .inl ⟨hidle, ha⟩⟩

end Sys2Proof.Machine

namespace Sys2Proof.Machine

open Sys2Proof.Claims

/-! ### What no command reads: STATUS, IE and the read port (10_state R45) -/

/-- `s` with STATUS, IE and the read port of `v`. -/
def State.withUnread (s v : State) : State :=
  { s with status := v.status, ie := v.ie, rdata := v.rdata, draws := v.draws }

/-- The outcome `t` of a command as it is when the command ran with STATUS, IE and the read port of `v`: those are `v`'s,
but for the flags a completion writes. -/
def State.resultWith (t v : State) : State :=
  { t with ie := v.ie, status := { t.status with ovr := v.status.ovr }, rdata := v.rdata, draws := v.draws }

/-- An outcome with `f` applied to its next state. -/
def mapNext (f : State → State) : Host.Outcome State Fault Refusal → Host.Outcome State Fault Refusal
  | .next s => .next (f s)
  | .fault r => .fault r
  | .refused r => .refused r

/-- The operands of a command are not among what `withUnread` replaces. -/
@[simp] theorem State.withUnread_keyOperand (s v : State) : (s.withUnread v).keyOperand = s.keyOperand := rfl
@[simp] theorem State.withUnread_dataOperand (s v : State) : (s.withUnread v).dataOperand = s.dataOperand := rfl
@[simp] theorem State.withUnread_tableOperand (s v : State) : (s.withUnread v).tableOperand = s.tableOperand := rfl
@[simp] theorem State.withUnread_dataBits (s v : State) : (s.withUnread v).dataBits = s.dataBits := rfl
@[simp] theorem State.withUnread_lat (s v : State) : (s.withUnread v).lat = s.lat := rfl

/-- The checks of a command are not either. -/
@[simp] theorem substChecks_withUnread (s v : State) : substChecks (s.withUnread v) = substChecks s := rfl
@[simp] theorem decodeChecks_withUnread (s v : State) : decodeChecks (s.withUnread v) = decodeChecks s := rfl
@[simp] theorem permGenChecks_withUnread (s v : State) : permGenChecks (s.withUnread v) = permGenChecks s := rfl
@[simp] theorem permApplyChecks_withUnread (s v : State) : permApplyChecks (s.withUnread v) = permApplyChecks s := rfl
@[simp] theorem xorChecks_withUnread (s v : State) : xorChecks (s.withUnread v) = xorChecks s := rfl
@[simp] theorem schedChecks_withUnread (s v : State) : schedChecks (s.withUnread v) = schedChecks s := rfl

/-- The stores of results go past the replacement. -/
@[simp] theorem State.withUnread_storeBits (s v : State) (bytes : List Byte) (bits : Bits) :
    (s.withUnread v).storeBits bytes bits = (s.storeBits bytes bits).withUnread v := rfl
@[simp] theorem State.withUnread_storeDbuf (s v : State) (bytes : List Byte) :
    (s.withUnread v).storeDbuf bytes = (s.storeDbuf bytes).withUnread v := rfl

@[simp] theorem State.withUnread_leaveEncrypt (s v : State) (key : List Byte) (r : Nat) :
    (s.withUnread v).leaveEncrypt key r = (s.leaveEncrypt key r).withUnread v := by
  cases r with
  | zero => rfl
  | succ r => rfl

@[simp] theorem State.withUnread_leaveDecrypt (s v : State) (key : List Byte) (r : Nat) :
    (s.withUnread v).leaveDecrypt key r = (s.leaveDecrypt key r).withUnread v := by
  cases r with
  | zero => rfl
  | succ r => rfl

/-- A data command answers the same with other flags, IE and read port. -/
theorem dataCommand_withUnread (s v : State) (f : Bits → Except ErrKind Bits) :
    dataCommand (s.withUnread v) f = mapNext (·.resultWith v) (dataCommand s f) := by
  simp only [dataCommand, State.withUnread_dataOperand, State.withUnread_dataBits, State.withUnread_storeBits]
  cases s.dataOperand with
  | none => rfl
  | some bytes =>
    dsimp only
    cases f (s.dataBits bytes) <;> rfl

theorem substCommand_withUnread (T : List Nibble) (s v : State) :
    substCommand T (s.withUnread v) = mapNext (·.resultWith v) (substCommand T s) := by
  simp only [substCommand, substChecks_withUnread, dataCommand_withUnread]
  cases firstError (substChecks s) <;> rfl

theorem execDecode_withUnread (s v : State) :
    execDecode (s.withUnread v) = mapNext (·.resultWith v) (execDecode s) := by
  simp only [execDecode, decodeChecks_withUnread]
  cases firstError (decodeChecks s) <;> rfl

theorem execPermGen_withUnread (s v : State) :
    execPermGen (s.withUnread v) = mapNext (·.resultWith v) (execPermGen s) := by
  simp only [execPermGen, permGenChecks_withUnread, State.withUnread_keyOperand]
  cases firstError (permGenChecks s) with
  | some e => rfl
  | none => cases s.keyOperand <;> rfl

theorem execPermInv_withUnread (s v : State) :
    execPermInv (s.withUnread v) = mapNext (·.resultWith v) (execPermInv s) := by
  simp only [execPermInv, State.withUnread_tableOperand]
  cases s.tableOperand <;> rfl

theorem execPermApply_withUnread (s v : State) :
    execPermApply (s.withUnread v) = mapNext (·.resultWith v) (execPermApply s) := by
  simp only [execPermApply, permApplyChecks_withUnread, State.withUnread_tableOperand, dataCommand_withUnread]
  cases firstError (permApplyChecks s) with
  | some e => rfl
  | none => cases s.tableOperand <;> rfl

theorem execXor_withUnread (s v : State) : execXor (s.withUnread v) = mapNext (·.resultWith v) (execXor s) := by
  simp only [execXor, xorChecks_withUnread, State.withUnread_keyOperand, dataCommand_withUnread]
  cases firstError (xorChecks s) with
  | some e => rfl
  | none => cases s.keyOperand <;> rfl

theorem execEncrypt_withUnread (s v : State) :
    execEncrypt (s.withUnread v) = mapNext (·.resultWith v) (execEncrypt s) := by
  simp only [execEncrypt, schedChecks_withUnread, State.withUnread_keyOperand, State.withUnread_dataOperand,
    State.withUnread_lat, State.withUnread_storeBits, State.withUnread_leaveEncrypt, encrypt_ok]
  cases firstError (schedChecks s) with
  | some e => rfl
  | none => cases s.keyOperand <;> cases s.dataOperand <;> rfl

theorem execDecrypt_withUnread (s v : State) :
    execDecrypt (s.withUnread v) = mapNext (·.resultWith v) (execDecrypt s) := by
  simp only [execDecrypt, schedChecks_withUnread, State.withUnread_keyOperand, State.withUnread_dataOperand,
    State.withUnread_dataBits, State.withUnread_lat, State.withUnread_storeDbuf, State.withUnread_leaveDecrypt]
  cases firstError (schedChecks s) with
  | some e => rfl
  | none =>
    cases s.keyOperand with
    | none => rfl
    | some key =>
      cases s.dataOperand with
      | none => rfl
      | some c =>
        dsimp only
        cases decrypt key (s.dataBits c) s.lat.rounds.toNat <;> rfl

/-- No command reads STATUS, IE or the read port: with others it answers the same, but that IE, OVR and the read port are
those it ran with (10_state R45). -/
theorem exec_withUnread (i : Instr) (s v : State) :
    exec i (s.withUnread v) = mapNext (·.resultWith v) (exec i s) := by
  cases i with
  | nop => rfl
  | decode => exact execDecode_withUnread s v
  | substFwd => exact substCommand_withUnread sboxFwd s v
  | substInv => exact substCommand_withUnread sboxInv s v
  | permGen => exact execPermGen_withUnread s v
  | permInv => exact execPermInv_withUnread s v
  | permApply => exact execPermApply_withUnread s v
  | xor => exact execXor_withUnread s v
  | encrypt => exact execEncrypt_withUnread s v
  | decrypt => exact execDecrypt_withUnread s v

/-- The outcome with the replaced IE and OVR is the outcome, as the obligations compare them. -/
theorem sameResults_resultWith (t v : State) : sameResults t (t.resultWith v) v := ⟨rfl, rfl, rfl⟩

/-- Settles O57: replacing STATUS and IE is a case of replacing what no command reads. -/
theorem noFlagChangesACommand : Obligations.NoFlagChangesACommand := by
  intro i s flags ie
  have hexec : exec i { s with status := flags, ie := ie } =
      mapNext (·.resultWith { s with status := flags, ie := ie }) (exec i s) :=
    exec_withUnread i s { s with status := flags, ie := ie }
  refine ⟨fun t ht => ?_, fun f hf => ?_⟩
  · exact ⟨_, by rw [hexec, ht]; rfl, sameResults_resultWith t _⟩
  · rw [hexec, hf]; rfl

/-! ### Register reads after a reset (10_state R46) -/

/-- A read of a register that is defined at any time returns its value (20_memory R68). -/
theorem State.readWord_reg {s : State} {a : Offset} {r : Reg} (ha : regionOf a = .reg r)
    (hopen : s.status.busy = false ∨ r.openWhileBusy = false) (free : Word) : s.readWord a free = s.regValue r := by
  have hdefined : (s.status.busy && r.openWhileBusy) = false := by
    rcases hopen with h | h <;> simp [h]
  simp [State.readWord, ha, hdefined]

/-- The state after a reset is the reset state but for what no reset writes (log entry 15). -/
theorem afterReset_eq {u : State} (h : afterReset u) : ∃ s : State, u = s.toReset := by
  rcases h with rfl | ⟨s, a, v, ha, hv, rfl⟩ | ⟨s, rfl⟩
  · exact ⟨State.reset, rfl⟩
  · exact ⟨s, s.busWrite_softReset ha hv⟩
  · exact ⟨s, s.driveRstN_false_true⟩

/-- After a reset a register reads its reset value. -/
theorem State.toReset_readWord_reg {s : State} {a : Offset} {r : Reg} (ha : regionOf a = .reg r) (free : Word) :
    s.toReset.readWord a free = State.reset.regValue r := by
  rw [State.readWord_reg ha (.inl rfl)]
  cases r <;> rfl

/-- After a reset every PTAB word and every reserved word above it reads 0 (10_state R46, 20_memory R67, R81). -/
theorem State.toReset_readWord_high {s : State} {a : Offset} (ha : 0x40000 ≤ a.toNat) (free : Word) :
    s.toReset.readWord a free = 0 := by
  cases hr : regionOf a with
  | reg r => have := regionOf_reg.1 hr; have := r.offset_lt; omega
  | kbuf w => have := regionOf_kbuf.1 hr; omega
  | dbuf w => have := regionOf_dbuf.1 hr; omega
  | ptab k => simp [State.readWord, hr, State.ptabWord, State.reset]
  | reserved => simp [State.readWord, hr]

/-- Settles O13: a register of any reset state reads as in `State.reset`, and the four constant registers are never
open. -/
theorem resetRegisterReads : Obligations.ResetRegisterReads := by
  refine ⟨fun s free => ⟨?_, ?_, ?_, ?_⟩, fun u free hu => ?_⟩
  · exact State.readWord_reg (r := .id) rfl (.inr rfl) free
  · exact State.readWord_reg (r := .version) rfl (.inr rfl) free
  · exact State.readWord_reg (r := .capDbuf) rfl (.inr rfl) free
  · exact State.readWord_reg (r := .capKbuf) rfl (.inr rfl) free
  · obtain ⟨s, rfl⟩ := afterReset_eq hu
    have hreg {a : Offset} (r : Reg) (ha : regionOf a = .reg r) : s.toReset.readWord a free = State.reset.regValue r :=
      State.toReset_readWord_reg ha free
    exact ⟨hreg .id rfl, hreg .version rfl, hreg .ctrl rfl, hreg .status rfl, hreg .cmd rfl, hreg .errcode rfl,
      hreg .dlen rfl, hreg .klen rfl, hreg .rounds rfl, hreg .gsize rfl, hreg .psize rfl, hreg .ridx rfl,
      hreg .capDbuf rfl, hreg .capKbuf rfl, rfl, fun j => ⟨rfl, rfl⟩,
      fun a ha => State.toReset_readWord_high ha free⟩

/-! ### The table operand where PTAB holds no table (93 U15) -/

/-- Where PTAB holds no permutation table of PSIZE entries there is no table operand. -/
theorem State.tableOperand_eq_none {s : State}
    (h : ¬(s.table.length = s.psize.toNat ∧ isTable s.table = true)) : s.tableOperand = none := if_neg h

/-- Settles O33: PERM_INV asks for the table at once, PERM_APPLY once its two checks have passed. -/
theorem nonBijectionStops : Obligations.NonBijectionStops := by
  intro s h
  have hnone := State.tableOperand_eq_none h
  refine ⟨?_, fun hd hp => ?_⟩
  · simp only [exec, execPermInv, hnone]
  · simp only [exec, execPermApply, permApplyChecks_none.2 ⟨hd, hp⟩, hnone]

end Sys2Proof.Machine

namespace Sys2Proof.Machine

/-! ### The events at the ports, one step each (20_memory R68 to R72) -/

/-- Settles O6: a step takes the head of the schedule, and an idle engine does nothing with its turn. -/
theorem portEventsHappenInOrder : Obligations.PortEventsHappenInOrder := by
  refine fun s rest => ⟨fun a hrst hs => ?_, fun a v hrst hs => ?_, fun hidle hs => ?_, fun hidle hs => ?_⟩
  · simp only [step, hs, State.portEvent, hrst, if_true]
  · simp only [step, hs, State.portEvent, hrst, if_true]
  · simp only [step, hs]
    exact engineTurn_idle (by simp [State.running, hidle])
  · simp only [step, hs]
    exact engineTurn_idle (by simp [State.running, hidle])

/-- The word a read returns does not depend on what the host does next. -/
theorem State.readWord_schedule (s : State) (rest : List Event) (a : Offset) (free : Word) :
    State.readWord { s with schedule := rest } a free = s.readWord a free := rfl

/-- Settles O15: the step is the bus read, which writes `rdata` and the count of reads only. -/
theorem readChangesOnlyReadData : Obligations.ReadChangesOnlyReadData := by
  intro s t a rest hrst hs ht
  have hread : step s = .next (State.busRead { s with schedule := rest } a) :=
    (portEventsHappenInOrder s rest).1 a hrst hs
  cases hread.symm.trans ht
  exact ⟨rfl, s.readWord_schedule rest a _⟩

/-! ### What stands at an address (20_memory R64, R70) -/

/-- Bits 1:0 of an offset do not tell regions apart (20_memory R70). -/
theorem regionOf_congr {a b : Offset} (h : a.toNat / 4 = b.toNat / 4) : regionOf a = regionOf b := by
  simp only [regionOf, h]

/-- Settles O14: reads and writes use of an offset only its region. -/
theorem lowAddressBitsIgnored : Obligations.LowAddressBitsIgnored := by
  intro s a b v free h
  have hregion := regionOf_congr h
  exact ⟨by simp only [State.readWord, hregion], by simp only [State.busWrite, hregion]⟩

/-- The words of no register, buffer or table entry are reserved (20_memory R81). -/
theorem regionOf_reserved {a : Offset}
    (ha : 14 ≤ a.toNat / 4 ∧ a.toNat / 4 < 0x400 ∨ 0x410 ≤ a.toNat / 4 ∧ a.toNat / 4 < 0x800 ∨
      0x840 ≤ a.toNat / 4 ∧ a.toNat / 4 < 0x10000 ∨ 0x10800 ≤ a.toNat / 4) : regionOf a = .reserved := by
  cases hregion : regionOf a with
  | reg r => have := regionOf_reg.1 hregion; have := r.offset_lt; omega
  | kbuf w => have := regionOf_kbuf.1 hregion; omega
  | dbuf w => have := regionOf_dbuf.1 hregion; omega
  | ptab k => have := regionOf_ptab.1 hregion; omega
  | reserved => rfl

/-- The word at offset `a` is word `w` of the buffer at `base`. -/
def holdsBufferWord (a : Offset) (base w : Nat) : Prop :=
  regionOf a = .kbuf w ∧ base = kbufBase ∨ regionOf a = .dbuf w ∧ base = dbufBase

/-- The words of the two buffers, with the offset of their first byte (20_memory R64). -/
theorem exists_holdsBufferWord {a : Offset}
    (ha : 0x400 ≤ a.toNat / 4 ∧ a.toNat / 4 < 0x410 ∨ 0x800 ≤ a.toNat / 4 ∧ a.toNat / 4 < 0x840) :
    ∃ base w, holdsBufferWord a base w ∧ base + 4 * w = 4 * (a.toNat / 4) := by
  rcases ha with ha | ha
  · exact ⟨kbufBase, a.toNat / 4 - 0x400, .inl ⟨regionOf_kbuf.2 (by omega), rfl⟩, by simp only [kbufBase]; omega⟩
  · exact ⟨dbufBase, a.toNat / 4 - 0x800, .inr ⟨regionOf_dbuf.2 (by omega), rfl⟩, by simp only [dbufBase]; omega⟩

/-! ### Idle accesses to the buffers (20_memory R65, R66, R69) -/

/-- An idle write to a buffer word writes that word. -/
theorem State.busWrite_buffer {s : State} {a : Offset} {base w : Nat} (ha : holdsBufferWord a base w)
    (hidle : s.status.busy = false) (v : Word) : s.busWrite a v = s.writeBufferWord base w v := by
  rw [State.busWrite_idle a v hidle]
  rcases ha with ⟨hregion, rfl⟩ | ⟨hregion, rfl⟩ <;> rw [hregion] <;> rfl

/-- An idle read of a buffer word returns that word. -/
theorem State.readWord_buffer {s : State} {a : Offset} {base w : Nat} (ha : holdsBufferWord a base w)
    (hidle : s.status.busy = false) (free : Word) : s.readWord a free = bufferWord s.mem base w free := by
  rcases ha with ⟨hregion, rfl⟩ | ⟨hregion, rfl⟩ <;> simp [State.readWord, hregion, hidle]

/-- Each lane of a buffer word is its byte, or the free word's lane where the byte is unwritten. -/
theorem lane_bufferWord (m : Memory) (base w : Nat) (free : Word) {j : Nat} (hj : j < 4) :
    lane (bufferWord m base w free) j = (Memory.read m (base + 4 * w + j)).getD (lane free j) := by
  obtain ⟨h0, h1, h2, h3⟩ := lane_wordOfLanes ((Memory.read m (base + 4 * w + 0)).getD (lane free 0))
    ((Memory.read m (base + 4 * w + 1)).getD (lane free 1)) ((Memory.read m (base + 4 * w + 2)).getD (lane free 2))
    ((Memory.read m (base + 4 * w + 3)).getD (lane free 3))
  match j, hj with
  | 0, _ => exact h0
  | 1, _ => exact h1
  | 2, _ => exact h2
  | 3, _ => exact h3

/-- A buffer word whose four bytes are the lanes of `v` reads `v`. -/
theorem bufferWord_eq_of_lanes {m : Memory} {base w : Nat} {v : Word}
    (h : ∀ j < 4, Memory.read m (base + 4 * w + j) = some (lane v j)) (free : Word) :
    bufferWord m base w free = v := by
  simp only [bufferWord, h 0 (by omega), h 1 (by omega), h 2 (by omega), h 3 (by omega), Option.getD_some]
  exact wordOfLanes_lane v

/-- A write to a buffer word stores lane `j` at the word's byte `j`. -/
theorem State.read_writeBufferWord_lane (s : State) (base w : Nat) (v : Word) {j : Nat} (hj : j < 4) :
    Memory.read (s.writeBufferWord base w v).mem (base + 4 * w + j) = some (lane v j) := by
  rw [State.writeBufferWord_mem, Memory.read_writeBytes,
    if_pos ⟨Nat.le_add_right _ _, by simpa using hj⟩, Nat.add_sub_cancel_left]
  match j, hj with
  | 0, _ | 1, _ | 2, _ | 3, _ => rfl

/-- A write to a buffer word leaves the bytes of every other word. -/
theorem State.read_writeBufferWord_other (s : State) {base w c : Nat} (v : Word)
    (hc : c < base + 4 * w ∨ base + 4 * w + 4 ≤ c) :
    Memory.read (s.writeBufferWord base w v).mem c = Memory.read s.mem c := by
  rw [State.writeBufferWord_mem, Memory.read_writeBytes]
  exact if_neg (by simp only [List.length_cons, List.length_nil]; omega)

/-- Settles O16: the write stores the lanes of `v` at the word's four bytes, so the word then reads `v`. -/
theorem bufferWordWriteReadsBack : Obligations.BufferWordWriteReadsBack := by
  intro s a v free hidle ha
  obtain ⟨base, w, hword, haddr⟩ := exists_holdsBufferWord ha
  have hlanes (j : Nat) (hj : j < 4) := s.read_writeBufferWord_lane base w v hj
  rw [State.busWrite_buffer hword hidle v, ← haddr]
  refine ⟨rfl, hlanes, fun c hc => s.read_writeBufferWord_other v (by omega), ?_⟩
  rw [State.readWord_buffer (s := s.writeBufferWord base w v) hword hidle]
  exact bufferWord_eq_of_lanes hlanes free

/-- Settles O17: an idle read returns the buffer word, whose lanes are its written bytes or the free word's. -/
theorem unwrittenByteReadsFree : Obligations.UnwrittenByteReadsFree := by
  intro s a free j hidle ha hj
  obtain ⟨base, w, hword, haddr⟩ := exists_holdsBufferWord ha
  rw [State.readWord_buffer hword hidle, ← haddr]
  exact lane_bufferWord s.mem base w free hj

/-! ### Writes that are ignored, and the operand registers (20_memory R69, R81) -/

/-- An idle write to a read-only register, to a PTAB word or to a reserved word changes nothing. -/
theorem State.busWrite_ignored {s : State} {a : Offset} (v : Word) (hidle : s.status.busy = false)
    (ha : a.toNat / 4 < 2 ∨ a.toNat / 4 = 5 ∨ 10 ≤ a.toNat / 4 ∧ a.toNat / 4 < 0x400 ∨
      0x410 ≤ a.toNat / 4 ∧ a.toNat / 4 < 0x800 ∨ 0x840 ≤ a.toNat / 4) : s.busWrite a v = s := by
  rw [State.busWrite_idle a v hidle]
  cases hregion : regionOf a with
  | reg r =>
    have hoffset := regionOf_reg.1 hregion
    cases r with
    | id | version | errcode | psize | ridx | capDbuf | capKbuf => rfl
    | ctrl | status | cmd | dlen | klen | rounds | gsize => simp only [Reg.offset] at hoffset; omega
  | kbuf w => have := regionOf_kbuf.1 hregion; omega
  | dbuf w => have := regionOf_dbuf.1 hregion; omega
  | ptab k => rfl
  | reserved => rfl

/-- An idle write to a register of a value the register then has, with BUSY left at 0, reads back. -/
theorem State.busWrite_reads_back {s : State} {a : Offset} (r : Reg) (v free : Word) (hidle : s.status.busy = false)
    (ha : a.toNat / 4 * 4 = r.offset) (hbusy : (s.writeRegion v (.reg r)).status.busy = false)
    (hval : (s.writeRegion v (.reg r)).regValue r = v) :
    s.busWrite a v = s.writeRegion v (.reg r) ∧ (s.busWrite a v).readWord a free = v := by
  have hregion := regionOf_reg.2 ha
  have hwrite : s.busWrite a v = s.writeRegion v (.reg r) := by rw [State.busWrite_idle a v hidle, hregion]
  exact ⟨hwrite, by rw [hwrite, State.readWord_reg hregion (.inl hbusy), hval]⟩

/-- Settles O18: each operand register is set by its write and reads back, and the read-only registers ignore theirs. -/
theorem operandRegisterWritesReadBack : Obligations.OperandRegisterWritesReadBack := by
  refine fun s a v free hidle => ⟨fun ha => ?_, fun ha => ?_, fun ha => ?_, fun ha => ?_, fun ha => ?_⟩
  · exact State.busWrite_reads_back .dlen v free hidle (congrArg (· * 4) ha) hidle rfl
  · exact State.busWrite_reads_back .klen v free hidle (congrArg (· * 4) ha) hidle rfl
  · exact State.busWrite_reads_back .rounds v free hidle (congrArg (· * 4) ha) hidle rfl
  · exact State.busWrite_reads_back .gsize v free hidle (congrArg (· * 4) ha) hidle rfl
  · exact State.busWrite_ignored v hidle (by omega)

/-- Settles O20: a reserved word reads 0, ignores an idle write, and loses a write while busy. -/
theorem reservedOffsetsReadZero : Obligations.ReservedOffsetsReadZero := by
  intro s a v free ha
  refine ⟨?_, fun hidle => ?_, fun hbusy => ?_⟩
  · simp only [State.readWord, regionOf_reserved ha]
  · exact State.busWrite_ignored v hidle (by omega)
  · exact State.busWrite_busy v hbusy (by omega) (by omega)

/-! ### The PTAB window (20_memory R67) -/

/-- An idle read of a PTAB word returns what stands at its index. -/
theorem State.readWord_ptab {s : State} {a : Offset} {k : Nat} (ha : a.toNat / 4 = 0x10000 + k) (hk : k < 2048)
    (hidle : s.status.busy = false) (free : Word) : s.readWord a free = s.ptabWord k := by
  simp [State.readWord, regionOf_ptab.2 ⟨ha, hk⟩, hidle]

/-- Below PSIZE a PTAB word is the entry, zero-extended. -/
theorem State.ptabWord_entry {s : State} {k : Nat} {e : Entry} (hk : k < s.psize.toNat) (he : s.ptab[k]? = some e) :
    s.ptabWord k = e.setWidth 32 := by
  rw [State.ptabWord, if_pos hk, List.getD_eq_getElem?_getD, he, Option.getD_some]

/-- Settles O19: below PSIZE a PTAB word is its entry, in range by the table invariant; at PSIZE and above it is 0; and
writes are ignored while idle and lost while busy. -/
theorem ptabWindowIsReadOnly : Obligations.PtabWindowIsReadOnly := by
  intro s a k v free htable ha hk
  refine ⟨fun hidle hlt => ?_, fun hidle hge => ?_, fun hidle => ?_, fun hbusy => ?_⟩
  · obtain ⟨e, he, -, hrange⟩ := htable.entry hlt
    have hread : s.readWord a free = e.setWidth 32 :=
      (State.readWord_ptab ha hk hidle free).trans (State.ptabWord_entry hlt he)
    have hvalue : (s.readWord a free).toNat = e.toNat := by
      rw [hread, BitVec.toNat_setWidth_of_le (by decide)]
    exact ⟨e, he, hread, by rwa [hvalue]⟩
  · rw [State.readWord_ptab ha hk hidle, State.ptabWord, if_neg (by omega)]
  · exact State.busWrite_ignored v hidle (by omega)
  · exact State.busWrite_busy v hbusy (by omega) (by omega)

/-! ### What a command keeps of DBUF (20_memory R63, R66) -/

/-- Storing a result over the operand bytes makes no byte written or unwritten: the operand bytes were all written. -/
theorem State.storeBits_read_isSome {s : State} {bytes : List Byte} {bits : Bits} (h : s.dataOperand = some bytes)
    (hl : bits.length = s.lat.dlen.toNat) (a : Nat) :
    (Memory.read (s.storeBits bytes bits).mem a).isSome = (Memory.read s.mem a).isSome := by
  obtain ⟨hn, hb⟩ := State.dataOperand_eq_some.1 h
  have hlen : (overlayBits bytes bits).length = bytes.length := overlayBits_length _ _ (by omega)
  rw [State.storeBits, State.storeDbuf_mem, Memory.read_writeBytes, hlen]
  by_cases ha : dbufBase ≤ a ∧ a < dbufBase + bytes.length
  · obtain ⟨j, rfl⟩ := Nat.exists_eq_add_of_le ha.1
    have hj : j < bytes.length := by omega
    have hold : Memory.read s.mem (dbufBase + j) = bytes[j]? := hb j (by omega)
    rw [if_pos ha, hold, Nat.add_sub_cancel_left]
    simp [hj, hlen]
  · rw [if_neg ha]

/-- A command's results keep the DBUF bits from DLEN on and which bytes are written. -/
theorem ResultsOnly.keeps_past_dlen {s u : State} (hu : ResultsOnly s u) :
    (∀ j, s.lat.dlen.toNat ≤ j → u.dbufBit j = s.dbufBit j) ∧
      ∀ a, (Memory.read u.mem a).isSome = (Memory.read s.mem a).isSome := by
  rcases hu.mem with hm | ⟨bytes, bits, hbytes, hbits, -, hm⟩
  · exact ⟨fun j _ => by simp only [State.dbufBit, State.dbufByte, hm], fun a => by rw [hm]⟩
  · refine ⟨fun j hj => ?_, fun a => by rw [hm, State.storeBits_read_isSome hbytes hbits]⟩
    calc u.dbufBit j = (s.storeBits bytes bits).dbufBit j := by simp only [State.dbufBit, State.dbufByte, hm]
      _ = s.dbufBit j := by rw [State.storeBits_dbufBit hbytes hbits, if_neg (by omega)]

/-- Settles O51: an error writes no byte, and a success is a completion over the command's results. -/
theorem noBitPastDlenChanges : Obligations.NoBitPastDlenChanges := by
  intro i s t ht
  rcases exec_next ht with ⟨e, rfl⟩ | ⟨u, w, rfl, hu, -⟩
  · exact ⟨fun _ _ => rfl, fun _ => rfl⟩
  · exact hu.keeps_past_dlen

/-! ### Host accesses while a command runs (20_memory R75) -/

/-- A host write while busy, but for a soft reset, changes nothing that a command reads. -/
theorem State.busWrite_busy_unread {s : State} {a : Offset} {v : Word} (hbusy : s.status.busy = true)
    (hsrst : ¬(a.toNat / 4 = 2 ∧ v.getLsbD 1 = true)) : s.busWrite a v = s.withUnread (s.busWrite a v) := by
  rcases s.busWrite_cases a v with (e | e) | ⟨ha, e⟩ | ⟨-, e⟩ | ⟨hidle, -⟩
  · rw [e]; rfl
  · rw [e]; rfl
  · rcases s.writeCtrl_cases v with ⟨hv, -⟩ | hie
    · exact absurd ⟨ha, hv⟩ hsrst
    · rw [e, hie]; rfl
  · rw [e]; rfl
  · exact absurd hbusy (by simp [hidle])

/-- Settles O56: a host access while busy changes only STATUS, IE and the read port, which no command reads. -/
theorem hostAccessDoesNotReachCommand : Obligations.HostAccessDoesNotReachCommand := by
  intro i s t e hrst hbusy he ht
  have hunread : s.portEvent e = s.withUnread (s.portEvent e) := by
    rcases he with ⟨a, rfl⟩ | ⟨a, v, rfl, hsrst⟩
    · simp only [State.portEvent, hrst, if_true]; rfl
    · simp only [State.portEvent, hrst, if_true]
      exact State.busWrite_busy_unread hbusy hsrst
  refine ⟨t.resultWith (s.portEvent e), ?_, sameResults_resultWith t _⟩
  calc exec i (s.portEvent e) = exec i (s.withUnread (s.portEvent e)) := congrArg (exec i) hunread
    _ = mapNext (·.resultWith (s.portEvent e)) (exec i s) := exec_withUnread i s _
    _ = .next (t.resultWith (s.portEvent e)) := by rw [ht]; rfl

end Sys2Proof.Machine

namespace Sys2Proof

open Sys2Proof.Claims

/-! ### The opcode map (30_encoding R91, R94) -/

/-- Each row compares all 32 bits with the word of its command (30_encoding R91). -/
theorem opcodeTable_row : ∀ r ∈ opcodeTable, r.mask = BitVec.allOnes 32 ∧ r.pattern = encodeInstr r.instr := by
  decide

/-- A row is selected by the word of its command only. -/
theorem OpRow.selects_iff {r : OpRow} (hr : r ∈ opcodeTable) {w : Word} :
    r.selects w = true ↔ w = encodeInstr r.instr := by
  obtain ⟨hmask, hpattern⟩ := opcodeTable_row r hr
  rw [OpRow.selects, hmask, hpattern, BitVec.and_allOnes, beq_iff_eq]

/-- Decoding an encoded command gives it back. -/
theorem decodeWord_encodeInstr (i : Instr) : decodeWord (encodeInstr i) = .ok i := by
  cases i <;> rfl

/-- A word decodes to the command it is the word of, and to no other. -/
theorem decodeWord_eq_ok {w : Word} {i : Instr} : decodeWord w = .ok i ↔ w = encodeInstr i := by
  refine ⟨fun h => ?_, fun h => h ▸ decodeWord_encodeInstr i⟩
  unfold decodeWord at h
  split at h
  · next r hfind =>
    cases h
    have hsel : r.selects w = true := List.find?_some (p := (OpRow.selects · w)) hfind
    exact (OpRow.selects_iff (List.mem_of_find?_eq_some hfind)).1 hsel
  · split at h <;> cases h

/-- The rows of 30_encoding R91 are the commands with their words. -/
theorem mem_opcodeMap {w : Word} {i : Instr} : (w, i) ∈ opcodeMap ↔ w = encodeInstr i := by
  have hrows : ∀ p ∈ opcodeMap, p.1 = encodeInstr p.2 := by decide
  refine ⟨hrows (w, i), ?_⟩
  rintro rfl
  cases i <;> decide

/-- Settles O2: each row is selected by the word of its command and by no other, and the rows are the ten commands with
their words. -/
theorem wordDecodesExactlyWhenEncoded : Obligations.WordDecodesExactlyWhenEncoded :=
  ⟨fun _ _ => decodeWord_eq_ok.trans mem_opcodeMap.symm, fun _ _ => decodeWord_eq_ok⟩

/-! ### The words that encode no command (30_encoding R94) -/

/-- The words of the commands are the ten smallest. -/
theorem exists_eq_encodeInstr {w : Word} : (∃ i, w = encodeInstr i) ↔ w.toNat < 0x0A := by
  constructor
  · rintro ⟨i, rfl⟩
    cases i <;> decide
  · intro h
    have hall : ∀ n < 0x0A, ∃ i ∈ Instr.all, BitVec.ofNat 32 n = encodeInstr i := by decide
    obtain ⟨i, -, hi⟩ := hall w.toNat h
    exact ⟨i, by rw [← hi, BitVec.ofNat_toNat, BitVec.setWidth_eq]⟩

/-- RSVD is 0 where bits 31:8 are (30_encoding R90). -/
theorem cmdRsvd_eq_zero {w : Word} : cmdRsvd w = 0 ↔ w.toNat / 256 = 0 := by
  have hw : w.toNat < 2 ^ 32 := w.isLt
  rw [← BitVec.toNat_inj, cmdRsvd, BitVec.extractLsb'_toNat, Nat.shiftRight_eq_div_pow]
  simp only [BitVec.ofNat_eq_ofNat, BitVec.toNat_ofNat]
  omega

/-- A word of no command is refused, for its RSVD field if that is not 0. -/
theorem decodeWord_illegal {w : Word} (h : 0x0A ≤ w.toNat) :
    decodeWord w = .error (if cmdRsvd w = 0 then .reservedOpcode else .reservedBits) := by
  have hnone : opcodeTable.find? (fun r => r.selects w) = none := by
    refine List.find?_eq_none.2 fun r hr hsel => ?_
    exact absurd (exists_eq_encodeInstr.1 ⟨_, (OpRow.selects_iff hr).1 hsel⟩) (by omega)
  rw [decodeWord, hnone]
  exact (apply_ite Except.error _ _ _).symm

/-- Settles O3: a word below 0x0A decodes, and any other is refused for its RSVD field or else for its opcode. -/
theorem decoderRefusesExactlyIllegalWords : Obligations.DecoderRefusesExactlyIllegalWords := by
  intro w
  by_cases hlegal : w.toNat < 0x0A
  · obtain ⟨i, rfl⟩ := exists_eq_encodeInstr.2 hlegal
    simp only [decodeWord_encodeInstr, reduceCtorEq, false_iff]
    omega
  · rw [decodeWord_illegal (by omega)]
    by_cases hrsvd : cmdRsvd w = 0
    · have := cmdRsvd_eq_zero.1 hrsvd
      simp only [if_pos hrsvd, Except.error.injEq, reduceCtorEq, false_iff, true_iff]
      omega
    · have := mt cmdRsvd_eq_zero.2 hrsvd
      simp only [if_neg hrsvd, Except.error.injEq, reduceCtorEq, false_iff, true_iff]
      omega

/-- Settles O1: the ten words are those of the commands, and the two neighbours are refused as every such word is. -/
theorem opcodeMapWords : Obligations.OpcodeMapWords :=
  ⟨decodeWord_encodeInstr .nop, decodeWord_encodeInstr .decode, decodeWord_encodeInstr .substFwd,
    decodeWord_encodeInstr .substInv, decodeWord_encodeInstr .permGen, decodeWord_encodeInstr .permInv,
    decodeWord_encodeInstr .permApply, decodeWord_encodeInstr .xor, decodeWord_encodeInstr .encrypt,
    decodeWord_encodeInstr .decrypt, (decoderRefusesExactlyIllegalWords 0x0000000A).2.2 (by decide),
    (decoderRefusesExactlyIllegalWords 0x00000108).1.2 (by decide)⟩

end Sys2Proof

namespace Sys2Proof.Machine

/-! ### The fields and bytes no command writes (30_encoding R92) -/

/-- Settles O50: an error writes STATUS and ERRCODE only, and a success is a completion over the command's results. -/
theorem commandsWriteOnlyResults : Obligations.CommandsWriteOnlyResults := by
  intro i s t h
  have hmem (a : Nat) (ha : a < 0x02000) : Memory.read t.mem a = Memory.read s.mem a := exec_read_below_dbuf h ha
  rcases exec_next h with ⟨e, rfl⟩ | ⟨u, w, rfl, hu, -⟩
  · exact ⟨rfl, rfl, rfl, rfl, rfl, rfl, rfl, rfl, rfl, rfl, rfl, hmem⟩
  · rw [hu.rest] at hmem ⊢
    exact ⟨rfl, rfl, rfl, rfl, rfl, rfl, rfl, rfl, rfl, rfl, rfl, hmem⟩

/-! ### An illegal word written to CMD (30_encoding R94) -/

/-- An idle block is out of reset with BUSY 0. -/
theorem State.idle_iff {s : State} : s.idle = true ↔ s.rstN = true ∧ s.status.busy = false := by
  simp [State.idle]

/-- The step of a host write to a block out of reset. -/
theorem step_busWrite {s : State} {a : Offset} {v : Word} {rest : List Event} (hrst : s.rstN = true)
    (hs : s.schedule = .busWrite a v :: rest) : step s = .next (State.busWrite { s with schedule := rest } a v) :=
  (portEventsHappenInOrder s rest).2.1 a v hrst hs

/-- The step of a CMD write to an idle block accepts the word (60_exceptions R180). -/
theorem step_cmdWrite {s : State} {w : Word} {rest : List Event} (hidle : s.idle = true)
    (hs : s.schedule = .busWrite 0x00010 w :: rest) : step s = .next (State.accept { s with schedule := rest } w) := by
  obtain ⟨hrst, hbusy⟩ := State.idle_iff.1 hidle
  have hregion : regionOf 0x00010 = .reg .cmd := regionOf_reg.2 rfl
  rw [step_busWrite hrst hs, State.busWrite_idle (s := { s with schedule := rest }) _ w hbusy, hregion]
  rfl

/-- The engine's step ends a word of no command with IllegalCommand, whatever the operands hold. -/
theorem step_illegalWord {s : State} {rest : List Event} (hrst : s.rstN = true) (hbusy : s.status.busy = true)
    (hword : 0x0A ≤ s.lat.cmd.toNat) (hs : s.schedule = .engine :: rest) :
    step s = .next (State.raise { s with schedule := rest } .illegalCommand) := by
  have hpopped : s.popped = { s with schedule := rest } := by rw [State.popped, hs, List.tail_cons]
  have hlegal : decodeWord s.popped.lat.cmd = _ := decodeWord_illegal hword
  rw [step_of_engineHasTurn (.inr ⟨rest, hs⟩), engineTurn_running (State.popped_running.2 ⟨hrst, hbusy⟩), hlegal,
    hpopped]

/-- Settles O4: the write starts the word, and the engine's turn ends it, since it is the word of no command. -/
theorem illegalWordCompletesWithIllegalCommand : Obligations.IllegalWordCompletesWithIllegalCommand := by
  intro s w rest hidle hillegal hs
  have hrst : s.rstN = true := (State.idle_iff.1 hidle).1
  have hword : 0x0A ≤ w.toNat := by omega
  exact ⟨_, _, step_cmdWrite hidle hs, rfl, rfl, step_illegalWord hrst rfl hword rfl, rfl⟩

/-! ### The words of a WRB statement, written one after the other (30_encoding R96) -/

/-- The four lanes of a word, lane 0 first (20_memory R65). -/
def wordLanes (v : Word) : List Byte := [lane v 0, lane v 1, lane v 2, lane v 3]

/-- The bytes that a list of words writes. -/
def laneBytes (vs : List Word) : List Byte := vs.flatMap wordLanes

theorem laneBytes_cons (v : Word) (vs : List Word) : laneBytes (v :: vs) = wordLanes v ++ laneBytes vs := rfl

/-- A word put together from four bytes has those as its lanes. -/
theorem wordLanes_wordOfLanes (b0 b1 b2 b3 : Byte) : wordLanes (wordOfLanes b0 b1 b2 b3) = [b0, b1, b2, b3] := by
  obtain ⟨h0, h1, h2, h3⟩ := lane_wordOfLanes b0 b1 b2 b3
  rw [wordLanes, h0, h1, h2, h3]

theorem laneBytes_length (vs : List Word) : (laneBytes vs).length = 4 * vs.length := by
  induction vs with
  | nil => rfl
  | cons v vs ih =>
    simp only [laneBytes_cons, wordLanes, List.length_append, List.length_cons, List.length_nil, ih]
    omega

/-- The words of a byte list write its bytes, then the padding. -/
theorem prefix_laneBytes_wordsOfBytes (bs : List Byte) : bs <+: laneBytes (wordsOfBytes bs) := by
  induction bs using wordsOfBytes.induct with
  | case1 => exact List.nil_prefix
  | case2 b0 => exact ⟨[0, 0, 0], (wordLanes_wordOfLanes b0 0 0 0).symm⟩
  | case3 b0 b1 => exact ⟨[0, 0], (wordLanes_wordOfLanes b0 b1 0 0).symm⟩
  | case4 b0 b1 b2 => exact ⟨[0], (wordLanes_wordOfLanes b0 b1 b2 0).symm⟩
  | case5 b0 b1 b2 b3 rest ih =>
    rw [wordsOfBytes, laneBytes_cons, wordLanes_wordOfLanes]
    exact (List.prefix_append_right_inj [b0, b1, b2, b3]).2 ih

/-- Writing two byte lists one after the other. -/
theorem Memory.writeBytes_append (m : Memory) (a : Nat) (us vs : List Byte) :
    Memory.writeBytes m a (us ++ vs) = Memory.writeBytes (Memory.writeBytes m a us) (a + us.length) vs := by
  induction us generalizing m a with
  | nil => rfl
  | cons u us ih =>
    simp only [List.cons_append, Memory.writeBytes, ih, List.length_cons, Nat.add_assoc, Nat.add_comm 1]

/-- The buffers that WRB loads: the offset of the first byte, and the capacity in words (20_memory R64). -/
def isBuffer (base words : Nat) : Prop := base = kbufBase ∧ words = 16 ∨ base = dbufBase ∧ words = 64

/-- The offset a statement computes for a word of a buffer is that word's. -/
theorem holdsBufferWord_offsetAt {base words w : Nat} (hbuf : isBuffer base words) (hw : w < words) :
    holdsBufferWord (offsetAt (base + 4 * w)) base w := by
  rcases hbuf with ⟨rfl, rfl⟩ | ⟨rfl, rfl⟩
  · refine .inl ⟨regionOf_kbuf.2 ⟨?_, hw⟩, rfl⟩
    simp only [offsetAt, kbufBase, BitVec.toNat_ofNat]; omega
  · refine .inr ⟨regionOf_dbuf.2 ⟨?_, hw⟩, rfl⟩
    simp only [offsetAt, dbufBase, BitVec.toNat_ofNat]; omega

/-- The state after a host has loaded bytes from an offset on, with `rest` to come. -/
def State.loadBytes (s : State) (a : Nat) (bytes : List Byte) (rest : List Event) : State :=
  { s with mem := Memory.writeBytes s.mem a bytes, schedule := rest }

/-- The step of a write to a word of a buffer of an idle block loads the four lanes. -/
theorem step_bufferWrite {base words : Nat} (hbuf : isBuffer base words) {w : Nat} (hw : w < words) {v : Word}
    {s : State} {rest : List Event} (hidle : s.idle = true)
    (hs : s.schedule = .busWrite (offsetAt (base + 4 * w)) v :: rest) :
    step s = .next (s.loadBytes (base + 4 * w) (wordLanes v) rest) := by
  obtain ⟨hrst, hbusy⟩ := State.idle_iff.1 hidle
  have hword := holdsBufferWord_offsetAt hbuf hw
  rw [step_busWrite hrst hs, State.busWrite_buffer (s := { s with schedule := rest }) hword hbusy]
  rfl

/-- Loading bytes and then the bytes after them loads all of them. -/
theorem State.loadBytes_loadBytes (s : State) (a : Nat) (us vs : List Byte) (mid rest : List Event) :
    (s.loadBytes a us mid).loadBytes (a + us.length) vs rest = s.loadBytes a (us ++ vs) rest := by
  simp only [State.loadBytes, Memory.writeBytes_append]

/-- Writing the words from `w` on loads their bytes from word `w` on, one step a word. -/
theorem run_writeWords {base words : Nat} (hbuf : isBuffer base words) {w : Nat} {vs : List Word} {s : State}
    {rest : List Event} (hidle : s.idle = true) (hfits : w + vs.length ≤ words)
    (hs : s.schedule = writeWords base w vs ++ rest) :
    core.run (writeWords base w vs).length s = .next (s.loadBytes (base + 4 * w) (laneBytes vs) rest) := by
  induction vs generalizing w s with
  | nil =>
    have hload : s = s.loadBytes (base + 4 * w) [] rest := by cases s; cases hs; rfl
    exact congrArg Host.Outcome.next hload
  | cons v vs ih =>
    rw [List.length_cons] at hfits
    have hstep := step_bufferWrite hbuf (show w < words by omega) hidle hs
    calc core.run (writeWords base w (v :: vs)).length s
        = core.run (writeWords base (w + 1) vs).length (s.loadBytes (base + 4 * w) (wordLanes v) _) := run_succ hstep
      _ = .next ((s.loadBytes (base + 4 * w) (wordLanes v) _).loadBytes (base + 4 * (w + 1)) (laneBytes vs) rest) :=
        ih hidle (by omega) rfl
      _ = .next (s.loadBytes (base + 4 * w) (laneBytes (v :: vs)) rest) :=
        congrArg _ (s.loadBytes_loadBytes (base + 4 * w) (wordLanes v) (laneBytes vs) _ rest)

/-- The bus operations of a WRB statement load its bytes, write no byte outside its words and change nothing else. -/
theorem run_wrb {base words : Nat} (hbuf : isBuffer base words) {s : State} {bytes : List Byte} {rest : List Event}
    (hidle : s.idle = true) (hfits : bytes.length ≤ 4 * words)
    (hs : s.schedule = writeWords base 0 (wordsOfBytes bytes) ++ rest) :
    ∃ t, core.run (writeWords base 0 (wordsOfBytes bytes)).length s = .next t ∧
      { t with mem := s.mem } = { s with schedule := rest } ∧
      (∀ j < bytes.length, Memory.read t.mem (base + j) = bytes[j]?) ∧
      ∀ a, a < base ∨ base + 4 * ((bytes.length + 3) / 4) ≤ a → Memory.read t.mem a = Memory.read s.mem a := by
  have hwords := wordsOfBytes_length bytes
  have hlen := laneBytes_length (wordsOfBytes bytes)
  obtain ⟨padding, hbytes⟩ := prefix_laneBytes_wordsOfBytes bytes
  refine ⟨_, run_writeWords hbuf hidle (by omega) hs, rfl, fun j hj => ?_, fun a ha => ?_⟩ <;>
    rw [State.loadBytes, Memory.read_writeBytes]
  · rw [if_pos (by omega), Nat.mul_zero, Nat.add_zero, Nat.add_sub_cancel_left, ← hbytes,
      List.getElem?_append_left hj]
  · exact if_neg (by omega)

/-- Settles O48: both statements are writes of the words of their bytes, to a buffer that holds them. -/
theorem wrbLoadsTheBuffer : Obligations.WrbLoadsTheBuffer := by
  refine fun s bytes rest hidle => ⟨fun hfits hs => ?_, fun hfits hs => ?_⟩
  · exact run_wrb (.inl ⟨rfl, rfl⟩) hidle hfits hs
  · exact run_wrb (.inr ⟨rfl, rfl⟩) hidle hfits hs

end Sys2Proof.Machine

namespace Sys2Proof.Machine

/-! ### `encode` and `decode` (40_codec R111, R113) -/

/-- `decode` refuses a bit string with a partial byte. -/
theorem decodeBits_partial {b : Bits} (h : b.length % 8 ≠ 0) : decodeBits b = .error .malformedBitLength := if_pos h

/-- The encoding of the bytes DBUF holds is the bits DBUF holds (20_memory R62). -/
theorem encodeBytes_eq_dbufBit {s : State} {bytes : List Byte} (hheld : ∀ j < bytes.length, s.dbufByte j = bytes[j]?)
    {i : Nat} (hi : i < 8 * bytes.length) : (encodeBytes bytes)[i]? = s.dbufBit i := by
  rw [encodeBytes_getElem?, State.dbufBit, hheld (i / 8) (by omega)]

/-- Settles O25: encoding and packing are inverse to each other, and DBUF's bits are numbered as `encode`
numbers them. -/
theorem codecRoundTrips : Obligations.CodecRoundTrips := by
  refine ⟨fun bytes => ⟨encodeBytes_length bytes, fun i hi => ?bitOrder⟩, fun bytes => ?decodeEncode,
    fun b hwhole => ?encodeDecode, fun b hpartial => decodeBits_partial hpartial,
    fun s bytes i hheld hi => encodeBytes_eq_dbufBit hheld hi⟩
  case bitOrder =>
    have hbyte : bytes[i / 8]? = some bytes[i / 8] := List.getElem?_eq_getElem (by omega)
    exact ⟨bytes[i / 8], hbyte, by rw [encodeBytes_getElem?, hbyte, Option.map_some]⟩
  case decodeEncode =>
    have hwhole : (encodeBytes bytes).length % 8 = 0 := by rw [encodeBytes_length, Nat.mul_mod_right]
    rw [decodeBits_ok hwhole, packBytes_encodeBytes]
  case encodeDecode =>
    have hlen := packBytes_length b hwhole
    exact ⟨packBytes b, decodeBits_ok hwhole, by omega, encodeBytes_packBytes b hwhole⟩

/-! ### NOP and DECODE (40_codec R110, R112) -/

/-- Settles O23: NOP is the completion step alone. -/
theorem nopCompletes : Obligations.NopCompletes := fun _ => rfl

/-- A check that fails outranks those listed after it (60_exceptions R187). -/
theorem firstError_cons_fails (e : ErrKind) (rest : List (Bool × ErrKind)) :
    firstError ((true, e) :: rest) = some e := rfl

/-- A check that passes leaves the answer to those listed after it (60_exceptions R187). -/
theorem firstError_cons_passes (e : ErrKind) (rest : List (Bool × ErrKind)) :
    firstError ((false, e) :: rest) = firstError rest := rfl

theorem overDbufBits_true {w : Word} : overDbufBits w = true ↔ Config.dbufBits < w.toNat := decide_eq_true_iff

theorem decodeChecks_outOfRange {s : State} (hover : Config.dbufBits < s.lat.dlen.toNat) :
    firstError (decodeChecks s) = some .lengthOutOfRange := by
  rw [decodeChecks, overDbufBits_true.2 hover, firstError_cons_fails]

theorem decodeChecks_partial {s : State} (hfits : s.lat.dlen.toNat ≤ Config.dbufBits)
    (hpartial : s.lat.dlen.toNat % 8 ≠ 0) : firstError (decodeChecks s) = some .malformedBitLength := by
  rw [decodeChecks, overDbufBits_false.2 hfits, firstError_cons_passes, bne_iff_ne.2 hpartial, firstError_cons_fails]

/-- DECODE ends with the first check that fails. -/
theorem execDecode_error {s : State} {e : ErrKind} (h : firstError (decodeChecks s) = some e) :
    execDecode s = .next (s.raise e) := by
  rw [execDecode, h]

/-- DECODE completes when its checks pass, whatever DBUF holds. -/
theorem execDecode_ok {s : State} (h : firstError (decodeChecks s) = none) :
    execDecode s = .next (s.complete false) := by
  rw [execDecode, h]

/-- Settles O24: the three cases are the two checks, in their order, and the case where both pass. -/
theorem decodeChecksWholeBytes : Obligations.DecodeChecksWholeBytes := by
  refine fun s => ⟨fun hover => ?_, fun hfits hpartial => ?_, fun hfits hwhole => ?_⟩
  · exact execDecode_error (decodeChecks_outOfRange hover)
  · exact execDecode_error (decodeChecks_partial hfits hpartial)
  · exact execDecode_ok (decodeChecks_none.2 ⟨hfits, hwhole⟩)

end Sys2Proof.Machine

namespace Sys2Proof.Machine

open Sys2Proof.Claims

/-! ### Data commands on the bit string in DBUF (20_memory R62, R63) -/

/-- `DBUF.bit[0..len(b)-1]` is the bit string `b`. -/
def State.holdsBits (s : State) (b : Bits) : Prop := ∀ i < b.length, s.dbufBit i = b[i]?

/-- A written operand holds a bit string of DLEN bits. -/
theorem State.dataWritten.exists_holdsBits {s : State} (h : s.dataWritten) :
    ∃ b : Bits, b.length = s.lat.dlen.toNat ∧ s.holdsBits b := by
  obtain ⟨bs, hbs⟩ := State.dataWritten_iff.1 h
  have hlen := State.dataBits_length hbs
  exact ⟨s.dataBits bs, hlen, fun i hi => (State.dataBits_getElem? hbs (hlen ▸ hi)).symm⟩

/-- A bit string that DBUF holds is in written bytes. -/
theorem State.holdsBits.dataWritten {s : State} {b : Bits} (h : s.holdsBits b) (hlen : b.length = s.lat.dlen.toNat) :
    s.dataWritten := by
  intro j hj
  have hlt : 8 * j < b.length := by omega
  have hbit := h (8 * j) hlt
  rw [State.dbufBit, Nat.mul_div_cancel_left j (by omega), List.getElem?_eq_getElem hlt] at hbit
  simpa using congrArg Option.isSome hbit

/-- A bit string of DLEN bits that DBUF holds is the data bit string of the operand bytes. -/
theorem State.holdsBits.dataBits_eq {s : State} {b : Bits} (h : s.holdsBits b) (hlen : b.length = s.lat.dlen.toNat)
    {bs : List Byte} (hbs : s.dataOperand = some bs) : s.dataBits bs = b := by
  have hbits := State.dataBits_length hbs
  refine List.ext_getElem? fun i => ?_
  by_cases hi : i < b.length
  · exact (State.dataBits_getElem? hbs (hlen ▸ hi)).trans (h i hi)
  · rw [List.getElem?_eq_none (by omega), List.getElem?_eq_none (by omega)]

/-- Storing a bit string of DLEN bits over the operand and completing changes the data only. -/
theorem onlyDataChanged_storeBits {s : State} {bs : List Byte} {c : Bits} (hbs : s.dataOperand = some bs)
    (hc : c.length = s.lat.dlen.toNat) : onlyDataChanged s ((s.storeBits bs c).complete false) := by
  have hbytes := (State.dataOperand_eq_some.1 hbs).1
  refine ⟨rfl, fun i hi => ?_, fun a ha => ?_⟩
  · exact (State.storeBits_dbufBit hbs hc i).trans (if_neg (by omega))
  · refine s.storeDbuf_read_other _ ?_
    rwa [overlayBits_length _ _ (by omega), hbytes]

/-- The bit string stored over the operand is then in DBUF. -/
theorem State.holdsBits_storeBits {s : State} {bs : List Byte} {c : Bits} (hbs : s.dataOperand = some bs)
    (hc : c.length = s.lat.dlen.toNat) : ((s.storeBits bs c).complete false).holdsBits c :=
  fun i hi => (State.storeBits_dbufBit hbs hc i).trans (if_pos (hc ▸ hi))

/-- A data command replaces the bit string in DBUF by its function's result of the same length. -/
theorem dataCommand_holdsBits {s : State} {f : Bits → Except ErrKind Bits} {b c : Bits} (hb : s.holdsBits b)
    (hlen : b.length = s.lat.dlen.toNat) (hf : f b = .ok c) (hc : c.length = b.length) :
    ∃ t, dataCommand s f = .next t ∧ onlyDataChanged s t ∧ t.holdsBits c := by
  obtain ⟨bs, hbs⟩ := State.dataWritten_iff.1 (hb.dataWritten hlen)
  have hstored : c.length = s.lat.dlen.toNat := hc.trans hlen
  rw [← hb.dataBits_eq hlen hbs] at hf
  exact ⟨_, dataCommand_ok hbs hf, onlyDataChanged_storeBits hbs hstored, State.holdsBits_storeBits hbs hstored⟩

/-- A command that changes the data only ends with no error and leaves DLEN. -/
theorem err_dlen_of_onlyDataChanged {s t : State} (h : onlyDataChanged s t) :
    t.status.err = false ∧ t.dlen = s.dlen :=
  ⟨congrArg (·.status.err) h.1, congrArg (·.dlen) h.1⟩

/-- A host that writes neither DBUF nor DLEN leaves the bit string in DBUF. -/
theorem State.holdsBits.of_sameData {s v : State} {b : Bits} (h : s.holdsBits b) (hsame : sameData s v) :
    v.holdsBits b := by
  obtain ⟨-, -, hbytes⟩ := hsame
  intro i hi
  rw [← h i hi, State.dbufBit, hbytes, State.dbufBit]

/-! ### SUBST_FWD and SUBST_INV (41_substitution R122, R123) -/

theorem substChecks_outOfRange {s : State} (hover : Config.dbufBits < s.lat.dlen.toNat) :
    firstError (substChecks s) = some .lengthOutOfRange := by
  rw [substChecks, overDbufBits_true.2 hover, firstError_cons_fails]

theorem substChecks_partial {s : State} (hfits : s.lat.dlen.toNat ≤ Config.dbufBits)
    (hpartial : s.lat.dlen.toNat % 4 ≠ 0) : firstError (substChecks s) = some .malformedNibbleLength := by
  rw [substChecks, overDbufBits_false.2 hfits, firstError_cons_passes, bne_iff_ne.2 hpartial, firstError_cons_fails]

/-- A substitution ends with the first check that fails. -/
theorem substCommand_error {T : List Nibble} {s : State} {e : ErrKind} (h : firstError (substChecks s) = some e) :
    substCommand T s = .next (s.raise e) := by
  rw [substCommand, h]

/-- A substitution whose checks pass is a data command. -/
theorem substCommand_of_checks (T : List Nibble) {s : State} (h : firstError (substChecks s) = none) :
    substCommand T s = dataCommand s (substitute · T) := by
  rw [substCommand, h]

/-- A substitution of whole groups replaces the bit string in DBUF by its substitution. -/
theorem substCommand_holdsBits (T : List Nibble) {s : State} {b : Bits} (hb : s.holdsBits b)
    (hlen : b.length = s.lat.dlen.toNat) (hfits : b.length ≤ Config.dbufBits) (hwhole : b.length % 4 = 0) :
    ∃ t, substCommand T s = .next t ∧ onlyDataChanged s t ∧ t.holdsBits (substGroups T b) := by
  rw [substCommand_of_checks T (substChecks_none.2 (hlen ▸ ⟨hfits, hwhole⟩))]
  exact dataCommand_holdsBits hb hlen (substitute_ok hwhole T) (substGroups_length T b)

/-! ### The value of a 4-bit group (41_substitution R121) -/

/-- The 4-bit group `g` of a bit string has the value `x`, most significant bit first. -/
def bitsGroupIs (b : Bits) (g x : Nat) : Prop :=
  b[4 * g]? = some (x.testBit 3) ∧ b[4 * g + 1]? = some (x.testBit 2) ∧
    b[4 * g + 2]? = some (x.testBit 1) ∧ b[4 * g + 3]? = some (x.testBit 0)

/-- A group of DBUF is the group of the bit string it holds. -/
theorem State.holdsBits.groupIs_iff {s : State} {b : Bits} (h : s.holdsBits b) {g x : Nat}
    (hg : 4 * g + 3 < b.length) : groupIs s g x ↔ bitsGroupIs b g x := by
  rw [groupIs, bitsGroupIs, h (4 * g) (by omega), h (4 * g + 1) (by omega), h (4 * g + 2) (by omega), h _ hg]

/-- The nibble of a number's low four bits. -/
theorem nibbleOfBits_testBit (x : Nat) :
    nibbleOfBits (x.testBit 3) (x.testBit 2) (x.testBit 1) (x.testBit 0) = BitVec.ofNat 4 x := by
  simpa only [BitVec.getLsbD_ofNat, Nat.reduceLT, decide_true, Bool.true_and] using
    nibbleOfBits_bits (BitVec.ofNat 4 x)

/-- Substitution replaces a group of value `x` by the table's entry at `x`. -/
theorem bitsGroupIs_substGroups (T : List Nibble) {b : Bits} {g x : Nat} (h : bitsGroupIs b g x) :
    bitsGroupIs (substGroups T b) g (sboxAt T (BitVec.ofNat 4 x)).toNat := by
  obtain ⟨h3, h2, h1, h0⟩ := h
  have hgroup := substGroups_group T b g h3 h2 h1 h0
  simpa only [nibbleOfBits_testBit, bitsGroupIs, BitVec.testBit_toNat] using hgroup

/-- A command that substitutes with the entries of `table` has the behaviour stated of that table. -/
theorem substBehaviour_of_exec {i : Instr} {T : List Nibble} {table : List Nat}
    (hexec : ∀ s, exec i s = substCommand T s)
    (htable : ∀ x < 16, (sboxAt T (BitVec.ofNat 4 x)).toNat = table.getD x 0) : substBehaviour table i := by
  intro s
  rw [hexec s]
  refine ⟨fun hover => ?_, fun hfits hpartial => ?_, fun hfits hwhole hunwritten => ?_,
    fun hfits hwhole hwritten => ?_⟩
  · exact substCommand_error (substChecks_outOfRange hover)
  · exact substCommand_error (substChecks_partial hfits hpartial)
  · rw [substCommand_of_checks T (substChecks_none.2 ⟨hfits, hwhole⟩), dataCommand_fault hunwritten]
  · obtain ⟨b, hlen, hb⟩ := hwritten.exists_holdsBits
    obtain ⟨t, ht, hframe, hheld⟩ := substCommand_holdsBits T hb hlen (hlen ▸ hfits) (hlen ▸ hwhole)
    refine ⟨t, ht, hframe, fun g x hg hx hgroup => ?_⟩
    have hin : 4 * g + 3 < b.length := by omega
    have hout : 4 * g + 3 < (substGroups T b).length := by rwa [substGroups_length]
    rw [← htable x hx]
    exact (hheld.groupIs_iff hout).2 (bitsGroupIs_substGroups T ((hb.groupIs_iff hin).1 hgroup))

/-- Settles O26: both commands are the one substitution, with the tables as 41_substitution R120 lists them. -/
theorem substitutionsReplaceGroups : Obligations.SubstitutionsReplaceGroups :=
  ⟨substBehaviour_of_exec (T := sboxFwd) (fun _ => rfl) (by decide),
    substBehaviour_of_exec (T := sboxInv) (fun _ => rfl) (by decide)⟩

/-! ### One substitution after the other (41_substitution R124) -/

/-- Substituting with a table and then with one that undoes it succeeds and gives the bit string back. -/
theorem substitute_substitute {T U : List Nibble} (hundo : ∀ x, sboxAt U (sboxAt T x) = x) {b : Bits}
    (hwhole : b.length % 4 = 0) : ∃ c, substitute b T = .ok c ∧ substitute c U = .ok b := by
  refine ⟨substGroups T b, substitute_ok hwhole T, ?_⟩
  rw [substitute_ok (by rwa [substGroups_length]), substGroups_substGroups hundo]

/-- A substitution run from an idle block replaces the bit string of DLEN bits in DBUF, with no error and DLEN kept. -/
theorem runCommand_subst {i : Instr} {T : List Nibble} (hexec : ∀ s, exec i s = substCommand T s) {v : State} {b : Bits}
    (hb : v.holdsBits b) (hlen : b.length = v.dlen.toNat) (hfits : b.length ≤ Config.dbufBits)
    (hwhole : b.length % 4 = 0) :
    ∃ t, runCommand i v = some t ∧ t.status.err = false ∧ t.dlen = v.dlen ∧ t.holdsBits (substGroups T b) := by
  have hstarted : (v.accept (encodeInstr i)).holdsBits b := hb
  obtain ⟨t, ht, hframe, hheld⟩ := substCommand_holdsBits T hstarted hlen hfits hwhole
  obtain ⟨herr, hdlen⟩ := err_dlen_of_onlyDataChanged hframe
  exact ⟨t, by rw [runCommand, hexec, ht, nextState], herr, hdlen, hheld⟩

/-- A substitution and then one with a table that undoes it restore the bit string in DBUF. -/
theorem restores_subst {i j : Instr} {T U : List Nibble} (hi : ∀ s, exec i s = substCommand T s)
    (hj : ∀ s, exec j s = substCommand U s) (hundo : ∀ x, sboxAt U (sboxAt T x) = x) {s : State} (hs : dataLoaded s)
    (hwhole : s.dlen.toNat % 4 = 0) : restores (fun _ _ => True) s s [i, j] := by
  obtain ⟨-, hfits, hbytes⟩ := hs
  have hwritten : (s.accept (encodeInstr i)).dataWritten := hbytes
  obtain ⟨b, hlen, (hb : s.holdsBits b)⟩ := hwritten.exists_holdsBits
  replace hlen : b.length = s.dlen.toNat := hlen
  have hkept : (substGroups T b).length = b.length := substGroups_length T b
  rw [← hlen] at hfits hwhole
  intro v hsv _
  have ⟨_, hv, _⟩ := hsv
  obtain ⟨t, ht, herr, hdlen, hsubst⟩ := runCommand_subst hi (hb.of_sameData hsv) (hv ▸ hlen) hfits hwhole
  refine ⟨t, ht, herr, fun w htw _ => ?_⟩
  have ⟨_, hw, _⟩ := htw
  obtain ⟨u, hu, herr', -, hback⟩ := runCommand_subst hj (hsubst.of_sameData htw)
    (by rw [hw, hdlen, hv, hkept, hlen]) (by rwa [hkept]) (by rwa [hkept])
  rw [substGroups_substGroups hundo] at hback
  refine ⟨u, hu, herr', fun k hk => ?_⟩
  rw [← hlen] at hk
  exact (hback k hk).trans (hb k hk).symm

/-- Settles O27: SI undoes SF and SF undoes SI on every nibble, so on every bit string of whole groups and on the one
in DBUF. -/
theorem substitutionsUndoEachOther : Obligations.SubstitutionsUndoEachOther := by
  have hinvFwd (x : Nibble) : sboxAt sboxInv (sboxAt sboxFwd x) = x := (sbox_inverse x).1
  have hfwdInv (x : Nibble) : sboxAt sboxFwd (sboxAt sboxInv x) = x := (sbox_inverse x).2
  refine ⟨fun b hwhole => ⟨?_, ?_⟩, fun s hs hwhole => ⟨?_, ?_⟩⟩
  · exact substitute_substitute hinvFwd hwhole
  · exact substitute_substitute hfwdInv hwhole
  · exact restores_subst (fun _ => rfl) (fun _ => rfl) hinvFwd hs hwhole
  · exact restores_subst (fun _ => rfl) (fun _ => rfl) hfwdInv hs hwhole

end Sys2Proof.Machine

namespace Sys2Proof.Machine

open Sys2Proof.Claims

/-! ### The generator's seed and draws (42_permutation R132, R133) -/

/-- One byte of the seed's hash in exact arithmetic (42_permutation R132). -/
def seedStep (h : Nat) (b : Byte) : Nat := Nat.xor h b.toNat * 0x01000193 % 2 ^ 32

/-- The hash of the key bytes is the fold of its exact step. -/
theorem seedHash_toNat (h : Word) (k : List Byte) : (seedHash h k).toNat = k.foldl seedStep h.toNat := by
  induction k generalizing h with
  | nil => rfl
  | cons b k ih =>
    have hbyte : b.toNat % 2 ^ 32 = b.toNat := Nat.mod_eq_of_lt (by omega)
    have hstep : ((h ^^^ b.setWidth 32) * 0x01000193#32).toNat = seedStep h.toNat b := by
      rw [BitVec.toNat_mul, BitVec.toNat_xor, BitVec.toNat_setWidth, hbyte]
      rfl
    rw [seedHash, ih, List.foldl_cons]
    exact congrArg (k.foldl seedStep) hstep

/-- The seed is the hash with 1 in place of 0. -/
theorem seed32_eq (k : List Byte) :
    seed32 k = if seedHash 0x811C9DC5 k = 0 then 1 else seedHash 0x811C9DC5 k := rfl

/-- The seed in exact arithmetic. -/
theorem seed32_toNat (k : List Byte) :
    (seed32 k).toNat = if k.foldl seedStep 0x811C9DC5 = 0 then 1 else k.foldl seedStep 0x811C9DC5 := by
  have hhash : (seedHash 0x811C9DC5 k).toNat = k.foldl seedStep 0x811C9DC5 := seedHash_toNat _ k
  rw [seed32_eq, apply_ite BitVec.toNat, ← hhash]
  exact if_congr BitVec.toNat_inj.symm rfl rfl

theorem seed32_ne_zero (k : List Byte) : seed32 k ≠ 0 := by
  rw [seed32_eq]
  split
  · decide
  · assumption

/-- A word differs from itself shifted left unless it is 0. -/
theorem xor_shiftLeft_ne_zero {x : Word} {n : Nat} (hn : 0 < n) (hx : x ≠ 0) : x ^^^ (x <<< n) ≠ 0 := by
  intro h
  have hfix : x = x <<< n := BitVec.xor_eq_zero_iff.1 h
  have hbit (i : Nat) : x.getLsbD i = false := by
    induction i using Nat.strong_induction_on with
    | _ i ih =>
      rw [hfix, BitVec.getLsbD_shiftLeft]
      by_cases hi : i < n
      · simp [hi]
      · rw [ih (i - n) (by omega), Bool.and_false]
  exact hx (BitVec.eq_of_getLsbD_eq fun i _ => by rw [hbit i]; simp)

/-- A word differs from itself shifted right unless it is 0. -/
theorem xor_shiftRight_ne_zero {x : Word} {n : Nat} (hn : 0 < n) (hx : x ≠ 0) : x ^^^ (x >>> n) ≠ 0 := by
  intro h
  have hfix : x.toNat = x.toNat / 2 ^ n := by
    conv_lhs => rw [BitVec.xor_eq_zero_iff.1 h]
    rw [BitVec.toNat_ushiftRight, Nat.shiftRight_eq_div_pow]
  have hpos : 0 < x.toNat := Nat.pos_of_ne_zero fun h0 => hx (BitVec.eq_of_toNat_eq h0)
  exact absurd (Nat.div_lt_self hpos (Nat.one_lt_two_pow hn.ne')) (by omega)

theorem nextDraw_ne_zero {s : Word} (hs : s ≠ 0) : nextDraw s ≠ 0 :=
  xor_shiftLeft_ne_zero (by decide) (xor_shiftRight_ne_zero (by decide) (xor_shiftLeft_ne_zero (by decide) hs))

/-- A shift-and-xor step to the left in exact arithmetic. -/
theorem toNat_xor_shiftLeft (x : Word) (n : Nat) :
    (x ^^^ (x <<< n)).toNat = Nat.xor x.toNat (x.toNat * 2 ^ n % 2 ^ 32) := by
  rw [BitVec.toNat_xor, BitVec.toNat_shiftLeft, Nat.shiftLeft_eq]
  rfl

/-- A shift-and-xor step to the right in exact arithmetic. -/
theorem toNat_xor_shiftRight (x : Word) (n : Nat) :
    (x ^^^ (x >>> n)).toNat = Nat.xor x.toNat (x.toNat / 2 ^ n) := by
  rw [BitVec.toNat_xor, BitVec.toNat_ushiftRight, Nat.shiftRight_eq_div_pow]
  rfl

/-- Settles O28: the hash and the three steps of a draw are read off one operation at a time, and a word that is not 0
differs from each of its shifts. -/
theorem generatorSeedsAndDraws : Obligations.GeneratorSeedsAndDraws := by
  refine ⟨fun k => ⟨?_, seed32_ne_zero k⟩, fun s => ⟨?_, nextDraw_ne_zero⟩⟩
  · exact seed32_toNat k
  · rw [nextDraw, toNat_xor_shiftLeft, toNat_xor_shiftRight, toNat_xor_shiftLeft]

/-! ### The swaps of `generate` (42_permutation R134) -/

/-- Every entry of the identity table is its 1-based position. -/
theorem identityTable_getElem? {N j : Nat} (hj : j < N) : (identityTable N)[j]? = some (j + 1) := by
  simp [identityTable, hj]

theorem generate_nil (N : Nat) : generate [] N = identityTable N := rfl

theorem generate_of_ne_nil {k : List Byte} (hk : k ≠ []) (N : Nat) :
    generate k N = genLoop N (2 * N) (seed32 k) (identityTable N) := if_neg hk

/-- The draws from the next generator state are the draws from this one, one later. -/
theorem draw_nextDraw (s : Word) (n : Nat) : draw (nextDraw s) n = draw s (n + 1) := by
  induction n with
  | zero => rfl
  | succ n ih => exact congrArg nextDraw ih

/-- The last of `r + 1` swaps takes draws `2r` and `2r + 1`, after the `r` swaps before it. -/
theorem genLoop_succ (N r : Nat) (s : Word) (T : Table) :
    genLoop N (r + 1) s T =
      swapEntries (genLoop N r s T) ((draw s (2 * r)).toNat % N) ((draw s (2 * r + 1)).toNat % N) := by
  induction r generalizing s T with
  | zero => rfl
  | succ r ih =>
    rw [genLoop, ih]
    simp only [draw_nextDraw]
    rfl

/-- A swap of two entries in range exchanges them. -/
theorem exchanged_swapEntries {T : Table} {a b : Nat} (ha : a < T.length) (hb : b < T.length) :
    exchanged T (swapEntries T a b) a b := by
  refine ⟨swapEntries_length T a b, fun j => ?_⟩
  simp only [swapEntries, List.getElem?_set, List.length_set, List.getD_eq_getElem?_getD,
    List.getElem?_eq_getElem ha, List.getElem?_eq_getElem hb, Option.getD_some, if_pos ha, if_pos hb]
  by_cases hja : j = a
  · subst hja
    rw [if_pos rfl, if_pos rfl, ite_eq_right_iff]
    rintro rfl
    rfl
  · rw [if_neg hja, if_neg (Ne.symm hja)]
    exact if_congr eq_comm rfl rfl

/-- Settles O29: `r` rounds of the loop are the table after `r` swaps. -/
theorem generateMakesTwoNSwaps : Obligations.GenerateMakesTwoNSwaps := by
  refine fun k N => ⟨?empty, fun hk => ?swaps, isTable_generate k N, generate_length k N⟩
  case empty =>
    rintro rfl j hj
    rw [generate_nil, identityTable_getElem? hj]
  case swaps =>
    refine ⟨fun r => genLoop N r (seed32 k) (identityTable N),
      ⟨identityTable_length N, fun j => identityTable_getElem?⟩, fun r hr => ?_, generate_of_ne_nil hk N⟩
    have hmod (w : Word) : w.toNat % N < (genLoop N r (seed32 k) (identityTable N)).length := by
      rw [genLoop_length, identityTable_length]
      exact Nat.mod_lt _ (by omega)
    simp only [genLoop_succ]
    exact exchanged_swapEntries (hmod _) (hmod _)

/-! ### PERM_GEN (42_permutation R135, R136) -/

theorem overKbufBytes_true {w : Word} : overKbufBytes w = true ↔ Config.kbufBytes < w.toNat := decide_eq_true_iff

theorem permGenChecks_keyTooLong {s : State} (hover : Config.kbufBytes < s.lat.klen.toNat) :
    firstError (permGenChecks s) = some .lengthOutOfRange := by
  rw [permGenChecks, overKbufBytes_true.2 hover, firstError_cons_fails]

theorem permGenChecks_tableTooLarge {s : State} (hkey : s.lat.klen.toNat ≤ Config.kbufBytes)
    (hover : Config.dbufBits < s.lat.gsize.toNat) : firstError (permGenChecks s) = some .lengthOutOfRange := by
  rw [permGenChecks, overKbufBytes_false.2 hkey, firstError_cons_passes, overDbufBits_true.2 hover,
    firstError_cons_fails]

/-- PERM_GEN ends with the first check that fails. -/
theorem execPermGen_error {s : State} {e : ErrKind} (h : firstError (permGenChecks s) = some e) :
    execPermGen s = .next (s.raise e) := by
  rw [execPermGen, h]

/-- PERM_GEN whose checks pass stops on an unwritten key byte. -/
theorem execPermGen_fault {s : State} (hc : firstError (permGenChecks s) = none) (hk : ¬s.keyWritten) :
    execPermGen s = .fault .uninitialisedOperand := by
  simp only [execPermGen, hc, State.keyOperand_none hk]

/-- The table of a key in PTAB with its size in PSIZE, and the completion (42_permutation R135). -/
def State.generated (s : State) (key : List Byte) : State :=
  State.complete { s.storePtab (generate key s.lat.gsize.toNat) with psize := s.lat.gsize } (s.lat.klen == 0)

/-- PERM_GEN whose checks pass stores the table of the key in KBUF. -/
theorem execPermGen_ok {s : State} {key : List Byte} (hc : firstError (permGenChecks s) = none)
    (hk : s.keyOperand = some key) : execPermGen s = .next (s.generated key) := by
  simp only [execPermGen, hc, hk, State.generated]

/-- PERM_GEN that ends with no error has passed its checks and stored the table of the key in KBUF. -/
theorem execPermGen_next {s t : State} (h : execPermGen s = .next t) (herr : t.status.err = false) :
    firstError (permGenChecks s) = none ∧ ∃ key, s.keyOperand = some key ∧ t = s.generated key := by
  unfold execPermGen at h
  split at h
  · cases h; cases herr
  · next hc =>
    split at h
    · cases h
    · next key hk => cases h; exact ⟨hc, key, hk, rfl⟩

/-- The generated table is in PTAB, and it is a permutation table of PSIZE entries. -/
theorem State.generated_table {s : State} (hg : s.lat.gsize.toNat ≤ Config.dbufBits) (key : List Byte) :
    (s.generated key).TableInv ∧ (s.generated key).table = generate key s.lat.gsize.toNat :=
  State.TableInv.of_stored rfl (isTable_generate key _) (generate_length key _) hg

/-- Settles O30: the two checks in their order, the key operand, and the generated table, which is the identity for the
empty key. -/
theorem permGenStoresGeneratedTable : Obligations.PermGenStoresGeneratedTable := by
  refine fun s => ⟨fun hover => ?keyTooLong, fun hkey hover => ?tableTooLarge, fun hkey hg hunwritten => ?unwritten,
    fun key hkey hg hlen hheld => ?completes⟩
  case keyTooLong => exact execPermGen_error (permGenChecks_keyTooLong hover)
  case tableTooLarge => exact execPermGen_error (permGenChecks_tableTooLarge hkey hover)
  case unwritten => exact execPermGen_fault (permGenChecks_none.2 ⟨hkey, hg⟩) hunwritten
  case completes =>
    obtain ⟨hinv, htable⟩ := State.generated_table hg key
    rw [hinv.table_eq] at htable
    have hrun := execPermGen_ok (permGenChecks_none.2 ⟨hkey, hg⟩) (State.keyOperand_of hlen.symm hheld)
    refine ⟨_, hrun, rfl, rfl, htable, hinv, fun hempty j hj => ?_⟩
    obtain rfl : key = [] := List.length_eq_zero_iff.1 (by rw [hlen, hempty]; rfl)
    rw [← List.getElem?_map, htable, generate_nil, identityTable_getElem? hj]

/-- The checks of PERM_GEN depend on the latched KLEN and GSIZE only. -/
theorem permGenChecks_congr {s s' : State} (hk : s.lat.klen = s'.lat.klen) (hg : s.lat.gsize = s'.lat.gsize) :
    permGenChecks s = permGenChecks s' := by
  rw [permGenChecks, hk, hg, permGenChecks]

/-- The key operand depends on the latched KLEN and the KBUF bytes below it only. -/
theorem State.keyOperand_congr {s s' : State} {key : List Byte} (hk : s.lat.klen = s'.lat.klen)
    (hbytes : ∀ j < s.lat.klen.toNat, s.kbufByte j = s'.kbufByte j) (h : s.keyOperand = some key) :
    s'.keyOperand = some key := by
  obtain ⟨hlen, hheld⟩ := State.keyOperand_eq_some.1 h
  rw [hk] at hlen hbytes hheld
  exact State.keyOperand_eq_some.2 ⟨hlen, fun j hj => (hbytes j hj).symm.trans (hheld j hj)⟩

/-- Settles O31: the second run passes the same checks and reads the same key, so it stores the same table. -/
theorem permGenIsDeterministic : Obligations.PermGenIsDeterministic := by
  intro s s' t t' hk hg hbytes ht ht' herr
  obtain ⟨hc, key, hkey, rfl⟩ := execPermGen_next ht herr
  have hrun : execPermGen s' = .next (s'.generated key) :=
    execPermGen_ok (permGenChecks_congr hk hg ▸ hc) (State.keyOperand_congr hk hbytes hkey)
  obtain rfl : s'.generated key = t' := Host.Outcome.next.inj (hrun.symm.trans ht')
  exact ⟨rfl, congrArg (fun g : Word => (generate key g.toNat).map (BitVec.ofNat 12)) hg, hg⟩

/-! ### PERM_INV (42_permutation R137, R138) -/

/-- Under the invariant PTAB's table is a permutation table (10_state R39). -/
theorem State.TableInv.isTable_table {s : State} (h : s.TableInv) : isTable s.table = true := h.2.2

/-- Under the invariant PSIZE is within the capacity of DBUF (10_state R32). -/
theorem State.TableInv.psize_le {s : State} (h : s.TableInv) : s.psize.toNat ≤ Config.dbufBits := h.2.1

/-- Under the invariant PTAB is its table in 12-bit entries. -/
theorem State.TableInv.ptab_eq {s : State} (h : s.TableInv) : s.ptab = s.table.map (BitVec.ofNat 12) := by
  have hentry : BitVec.ofNat 12 ∘ BitVec.toNat = (id : Entry → Entry) :=
    funext fun e => (BitVec.ofNat_toNat 12 e).trans e.setWidth_eq
  rw [h.table_eq, List.map_map, hentry, List.map_id]

/-- PERM_INV on a permutation table stores its inverse and writes nothing else. -/
theorem execPermInv_table {s : State} (h : s.TableInv) :
    ∃ t, execPermInv s = .next t ∧ { t with ptab := s.ptab } = s.succeeded false ∧ t.TableInv ∧
      t.table = invert s.table := by
  obtain ⟨hlen, htable⟩ := h.tableOperand
  exact ⟨(s.storePtab (invert s.table)).complete false, by rw [execPermInv, htable], rfl,
    State.TableInv.of_stored rfl (isTable_invert h.isTable_table) ((invert_length _).trans hlen) h.psize_le⟩

/-- Settles O32: the entry that `PTAB[j]` names in the inverse is `j + 1`, and inverting twice is the identity. -/
theorem permInvStoresInverse : Obligations.PermInvStoresInverse := by
  intro s hs
  obtain ⟨t, ht, hframe, hinv, htable⟩ := execPermInv_table hs
  obtain ⟨u, hu, huframe, huinv, hutable⟩ := execPermInv_table hinv
  have hpsize : t.psize = s.psize := congrArg (·.psize) hframe
  refine ⟨t, ht, hframe, hinv, fun j hj => ?entry, u, hu, ?twice, (congrArg (·.psize) huframe).trans hpsize⟩
  case entry =>
    obtain ⟨e, he, hentry, -⟩ := hs.entry hj
    obtain ⟨hlt, hval⟩ := List.getElem?_eq_some_iff.1 hentry
    refine ⟨e, he, ?_⟩
    rw [← List.getElem?_map, ← hinv.table_eq, htable, ← hval]
    exact invert_entry hs.isTable_table hlt
  case twice => rw [huinv.ptab_eq, hutable, htable, invert_invert hs.isTable_table, hs.ptab_eq]

/-! ### PERM_APPLY (42_permutation R140, R141) -/

theorem permApplyChecks_outOfRange {s : State} (hover : Config.dbufBits < s.lat.dlen.toNat) :
    firstError (permApplyChecks s) = some .lengthOutOfRange := by
  rw [permApplyChecks, overDbufBits_true.2 hover, firstError_cons_fails]

theorem permApplyChecks_mismatch {s : State} (hfits : s.lat.dlen.toNat ≤ Config.dbufBits)
    (hsize : s.psize ≠ s.lat.dlen) : firstError (permApplyChecks s) = some .permutationSizeMismatch := by
  rw [permApplyChecks, overDbufBits_false.2 hfits, firstError_cons_passes, bne_iff_ne.2 hsize, firstError_cons_fails]

/-- PERM_APPLY ends with the first check that fails. -/
theorem execPermApply_error {s : State} {e : ErrKind} (h : firstError (permApplyChecks s) = some e) :
    execPermApply s = .next (s.raise e) := by
  rw [execPermApply, h]

/-- With a permutation table of DLEN entries in PTAB, PERM_APPLY is a data command. -/
theorem execPermApply_of_table {s : State} (h : s.TableInv) (hsize : s.psize = s.lat.dlen) :
    execPermApply s = dataCommand s (applyPermutation · s.table) := by
  have hc : firstError (permApplyChecks s) = none := permApplyChecks_none.2 ⟨hsize ▸ h.psize_le, hsize⟩
  simp only [execPermApply, hc, h.tableOperand.2]

/-- PERM_APPLY replaces the bit string in DBUF by its reordering. -/
theorem execPermApply_holdsBits {s : State} {b : Bits} (h : s.TableInv) (hsize : s.psize = s.lat.dlen)
    (hb : s.holdsBits b) (hlen : b.length = s.lat.dlen.toNat) :
    ∃ t, execPermApply s = .next t ∧ onlyDataChanged s t ∧ t.holdsBits (permuteBits b s.table) := by
  have htable : s.table.length = b.length := by rw [h.tableOperand.1, hsize, hlen]
  rw [execPermApply_of_table h hsize]
  exact dataCommand_holdsBits hb hlen (applyPermutation_ok htable) ((permuteBits_length _ _).trans htable)

/-- Settles O34: the two checks in their order, the data operand, and the reordered bit string. -/
theorem permApplyReordersBits : Obligations.PermApplyReordersBits := by
  refine fun s => ⟨fun hover => ?outOfRange, fun hfits hsize => ?mismatch, fun hs hsize hunwritten => ?unwritten,
    fun hs hsize hwritten => ?completes⟩
  case outOfRange => exact execPermApply_error (permApplyChecks_outOfRange hover)
  case mismatch => exact execPermApply_error (permApplyChecks_mismatch hfits hsize)
  case unwritten => exact (execPermApply_of_table hs hsize).trans (dataCommand_fault hunwritten)
  case completes =>
    obtain ⟨b, hlen, hb⟩ := hwritten.exists_holdsBits
    obtain ⟨t, ht, hframe, hheld⟩ := execPermApply_holdsBits hs hsize hb hlen
    have htable : s.table.length = b.length := by rw [hs.tableOperand.1, hsize, hlen]
    refine ⟨t, ht, hframe, fun i hi => ?_⟩
    have hib : i < s.table.length := by omega
    obtain ⟨e, he, hentry, hpos, hle⟩ := hs.entry (hsize ▸ hi)
    have hval : s.table[i] = e.toNat := (List.getElem?_eq_some_iff.1 hentry).2
    rw [hsize] at hle
    refine ⟨e, he, hpos, hle, ?_⟩
    rw [hheld i (by rwa [permuteBits_length]), permuteBits_getElem? hs.isTable_table htable hib, hval, hb _ (by omega)]

/-! ### A table and then its inverse (42_permutation R139) -/

/-- Applying a table and then its inverse succeeds and gives the bit string back. -/
theorem applyPermutation_invert {T : Table} {b : Bits} (hT : isTable T = true) (hlen : T.length = b.length) :
    ∃ c, applyPermutation b T = .ok c ∧ applyPermutation c (invert T) = .ok b := by
  refine ⟨permuteBits b T, applyPermutation_ok hlen, ?_⟩
  rw [applyPermutation_ok (by rw [invert_length, permuteBits_length]), permuteBits_invert hT hlen]

/-- DBUF holds the bit string `b` of DLEN bits, and PTAB the permutation table `T` of as many entries. -/
structure PermLoaded (s : State) (b : Bits) (T : Table) : Prop where
  /-- DBUF's bits are those of `b`. -/
  bits : s.holdsBits b
  /-- DLEN is their number. -/
  length : b.length = s.dlen.toNat
  /-- PTAB is a permutation table of PSIZE entries. -/
  inv : s.TableInv
  /-- PSIZE is DLEN. -/
  size : s.psize = s.dlen
  /-- The table is `T`. -/
  table : s.table = T

/-- A block with written data and a table of DLEN entries holds a bit string and a permutation table. -/
theorem PermLoaded.of_dataLoaded {s : State} (hs : dataLoaded s) (hinv : s.TableInv) (hsize : s.psize = s.dlen) :
    ∃ b, PermLoaded s b s.table := by
  obtain ⟨-, -, hbytes⟩ := hs
  have hwritten : (s.accept (encodeInstr .permApply)).dataWritten := hbytes
  obtain ⟨b, hlen, hb⟩ := hwritten.exists_holdsBits
  exact ⟨b, hb, hlen, hinv, hsize, rfl⟩

/-- The table of PTAB and its invariant are those of PTAB and PSIZE alone. -/
theorem State.table_congr {u v : State} (hptab : v.ptab = u.ptab) (hpsize : v.psize = u.psize) :
    v.table = u.table ∧ (u.TableInv → v.TableInv) := by
  have htable : v.table = u.table := by rw [State.table, hptab, hpsize, State.table]
  refine ⟨htable, fun h => ?_⟩
  rw [State.TableInv, hptab, hpsize, htable]
  exact h

/-- A host that writes neither DBUF, DLEN, PTAB nor PSIZE leaves the bit string and the table. -/
theorem PermLoaded.of_sameData {u v : State} {b : Bits} {T : Table} (h : PermLoaded u b T) (hsame : sameData u v)
    (htab : v.ptab = u.ptab ∧ v.psize = u.psize) : PermLoaded v b T := by
  have ⟨_, hdlen, _⟩ := hsame
  obtain ⟨htable, hinv⟩ := State.table_congr htab.1 htab.2
  exact ⟨h.bits.of_sameData hsame, hdlen ▸ h.length, hinv h.inv, htab.2.trans (h.size.trans hdlen.symm),
    htable.trans h.table⟩

/-- A command that answers a next state runs to it from an idle block. -/
theorem runCommand_of_exec {i : Instr} {s t : State} (h : exec i (s.accept (encodeInstr i)) = .next t) :
    runCommand i s = some t := by
  rw [runCommand, h, nextState]

/-- PERM_APPLY reorders the bit string by the table and keeps the table. -/
theorem PermLoaded.runCommand_permApply {s : State} {b : Bits} {T : Table} (h : PermLoaded s b T) :
    ∃ t, runCommand .permApply s = some t ∧ t.status.err = false ∧ PermLoaded t (permuteBits b T) T := by
  obtain ⟨hb, hlen, hinv, hsize, rfl⟩ := h
  have hstarted : (s.accept (encodeInstr .permApply)).TableInv := hinv
  obtain ⟨t, ht, hframe, hheld⟩ := execPermApply_holdsBits hstarted hsize hb hlen
  obtain ⟨herr, hdlen⟩ := err_dlen_of_onlyDataChanged hframe
  have hpsize : t.psize = s.psize := congrArg (·.psize) hframe.1
  obtain ⟨htable, hkept⟩ := State.table_congr (congrArg (·.ptab) hframe.1 : t.ptab = s.ptab) hpsize
  have htlen : s.table.length = t.dlen.toNat := by rw [hinv.tableOperand.1, hsize, hdlen]; rfl
  exact ⟨t, runCommand_of_exec ht, herr, hheld, (permuteBits_length _ _).trans htlen, hkept hinv,
    hpsize.trans (hsize.trans hdlen.symm), htable⟩

/-- PERM_INV replaces the table by its inverse and keeps the bit string. -/
theorem PermLoaded.runCommand_permInv {s : State} {b : Bits} {T : Table} (h : PermLoaded s b T) :
    ∃ t, runCommand .permInv s = some t ∧ t.status.err = false ∧ PermLoaded t b (invert T) := by
  obtain ⟨hb, hlen, hinv, hsize, rfl⟩ := h
  have hstarted : (s.accept (encodeInstr .permInv)).TableInv := hinv
  obtain ⟨t, ht, hframe, htinv, htable⟩ := execPermInv_table hstarted
  have hmem : t.mem = s.mem := congrArg (·.mem) hframe
  have hdlen : t.dlen = s.dlen := congrArg (·.dlen) hframe
  have hpsize : t.psize = s.psize := congrArg (·.psize) hframe
  have hheld : t.holdsBits b := fun i hi => by rw [← hb i hi]; simp only [State.dbufBit, State.dbufByte, hmem]
  exact ⟨t, runCommand_of_exec ht, congrArg (·.status.err) hframe, hheld, hdlen ▸ hlen, htinv,
    hpsize.trans (hsize.trans hdlen.symm), htable⟩

/-- Settles O35: the table reorders the bit string, the inverse replaces it, and reordering by the inverse restores the
bit string. -/
theorem permutationInverseLaw : Obligations.PermutationInverseLaw := by
  refine ⟨fun T b hT hlen => applyPermutation_invert hT hlen, fun s hs hinv hsize => ?_⟩
  obtain ⟨b, hstart⟩ := PermLoaded.of_dataLoaded hs hinv hsize
  have hlen : s.table.length = b.length := by rw [hinv.tableOperand.1, hsize, hstart.length]
  intro v₁ hdata₁ htab₁
  obtain ⟨t₁, ht₁, herr₁, hpermuted⟩ := (hstart.of_sameData hdata₁ htab₁).runCommand_permApply
  refine ⟨t₁, ht₁, herr₁, fun v₂ hdata₂ htab₂ => ?_⟩
  obtain ⟨t₂, ht₂, herr₂, hinverted⟩ := (hpermuted.of_sameData hdata₂ htab₂).runCommand_permInv
  refine ⟨t₂, ht₂, herr₂, fun v₃ hdata₃ htab₃ => ?_⟩
  obtain ⟨t₃, ht₃, herr₃, hback⟩ := (hinverted.of_sameData hdata₃ htab₃).runCommand_permApply
  rw [permuteBits_invert hinv.isTable_table hlen] at hback
  refine ⟨t₃, ht₃, herr₃, fun i hi => ?_⟩
  rw [← hstart.length] at hi
  exact (hback.bits i hi).trans (hstart.bits i hi).symm

end Sys2Proof.Machine

namespace Sys2Proof.Machine

open Sys2Proof.Claims

/-! ### XOR (43_xor R150, R151) -/

theorem xorChecks_dataTooLong {s : State} (hover : Config.dbufBits < s.lat.dlen.toNat) :
    firstError (xorChecks s) = some .lengthOutOfRange := by
  rw [xorChecks, overDbufBits_true.2 hover, firstError_cons_fails]

theorem xorChecks_keyTooLong {s : State} (hfits : s.lat.dlen.toNat ≤ Config.dbufBits)
    (hover : Config.kbufBytes < s.lat.klen.toNat) : firstError (xorChecks s) = some .lengthOutOfRange := by
  rw [xorChecks, overDbufBits_false.2 hfits, firstError_cons_passes, overKbufBytes_true.2 hover, firstError_cons_fails]

theorem xorChecks_emptyKey {s : State} (hfits : s.lat.dlen.toNat ≤ Config.dbufBits) (hempty : s.lat.klen = 0) :
    firstError (xorChecks s) = some .emptyKeystream := by
  have hkey : s.lat.klen.toNat ≤ Config.kbufBytes := by rw [hempty]; decide
  rw [xorChecks, overDbufBits_false.2 hfits, firstError_cons_passes, overKbufBytes_false.2 hkey,
    firstError_cons_passes, beq_iff_eq.2 hempty, firstError_cons_fails]

/-- XOR ends with the first check that fails. -/
theorem execXor_error {s : State} {e : ErrKind} (h : firstError (xorChecks s) = some e) :
    execXor s = .next (s.raise e) := by
  rw [execXor, h]

/-- XOR whose checks pass, with a written key, is a data command. -/
theorem execXor_of_key {s : State} {key : List Byte} (hc : firstError (xorChecks s) = none)
    (hk : s.keyOperand = some key) : execXor s = dataCommand s (xorBits (encodeBytes key)) := by
  simp only [execXor, hc, hk]

/-- XOR whose checks pass stops on an unwritten key or data byte. -/
theorem execXor_fault {s : State} (hc : firstError (xorChecks s) = none) (h : ¬(s.dataWritten ∧ s.keyWritten)) :
    execXor s = .fault .uninitialisedOperand := by
  by_cases hkey : s.keyWritten
  · obtain ⟨key, hk⟩ := State.keyWritten_iff.1 hkey
    rw [execXor_of_key hc hk, dataCommand_fault fun hdata => h ⟨hdata, hkey⟩]
  · simp only [execXor, hc, State.keyOperand_none hkey]

/-- The latched operands pass XOR's checks, KBUF holds the key `key` and DBUF the bit string `b` of DLEN bits. -/
structure XorLoaded (s : State) (key : List Byte) (b : Bits) : Prop where
  /-- XOR's checks pass. -/
  checks : firstError (xorChecks s) = none
  /-- KBUF's bytes below KLEN are those of `key`. -/
  key : s.keyOperand = some key
  /-- DBUF's bits are those of `b`. -/
  bits : s.holdsBits b
  /-- DLEN is their number. -/
  length : b.length = s.lat.dlen.toNat

/-- Checks that pass and written operands give a key and a bit string. -/
theorem XorLoaded.of_written {s : State} (hc : firstError (xorChecks s) = none) (hdata : s.dataWritten)
    (hkey : s.keyWritten) : ∃ key b, XorLoaded s key b := by
  obtain ⟨key, hk⟩ := State.keyWritten_iff.1 hkey
  obtain ⟨b, hlen, hb⟩ := hdata.exists_holdsBits
  exact ⟨key, b, hc, hk, hb, hlen⟩

/-- The keystream is not empty. -/
theorem XorLoaded.keystream_ne {s : State} {key : List Byte} {b : Bits} (h : XorLoaded s key b) :
    (encodeBytes key).length ≠ 0 := by
  obtain ⟨-, -, hne⟩ := xorChecks_none.1 h.checks
  have hpos : s.lat.klen.toNat ≠ 0 := fun h0 => hne (BitVec.eq_of_toNat_eq h0)
  rw [encodeBytes_length, (State.keyOperand_eq_some.1 h.key).1]
  omega

/-- XOR replaces the bit string in DBUF by its xor with the keystream. -/
theorem XorLoaded.execXor_holdsBits {s : State} {key : List Byte} {b : Bits} (h : XorLoaded s key b) :
    ∃ t, execXor s = .next t ∧ onlyDataChanged s t ∧ t.holdsBits (xorFrom (encodeBytes key) 0 b) := by
  rw [execXor_of_key h.checks h.key]
  exact dataCommand_holdsBits h.bits h.length (xorBits_ok h.keystream_ne b) (xorFrom_length _ 0 b)

/-- Bit `i` of the xor is the data bit xored with the key bit of the index modulo the keystream's length. -/
theorem XorLoaded.xorFrom_bit {s : State} {key : List Byte} {b : Bits} (h : XorLoaded s key b) {i : Nat}
    (hi : i < s.lat.dlen.toNat) : ∃ d k, s.dbufBit i = some d ∧ s.keyBit (i % (8 * s.lat.klen.toNat)) = some k ∧
      (xorFrom (encodeBytes key) 0 b)[i]? = some (d != k) := by
  have hib : i < b.length := h.length ▸ hi
  have hstream : (encodeBytes key).length = 8 * s.lat.klen.toNat := by
    rw [encodeBytes_length, (State.keyOperand_eq_some.1 h.key).1]
  have hin : i % (8 * s.lat.klen.toNat) < 8 * s.lat.klen.toNat :=
    Nat.mod_lt _ (Nat.pos_of_ne_zero (hstream ▸ h.keystream_ne))
  refine ⟨b[i], _, (h.bits i hib).trans (List.getElem?_eq_getElem hib), State.keyBit_eq h.key hin, ?_⟩
  rw [xorFrom_getElem?, List.getElem?_eq_getElem hib, Option.map_some, Nat.zero_add, hstream]

/-- Settles O36: the three checks in their order, the two operands, and the data bits xored with the repeating key. -/
theorem xorRepeatsTheKey : Obligations.XorRepeatsTheKey := by
  refine fun s => ⟨fun hover => ?dataTooLong, fun hfits hover => ?keyTooLong, fun hfits hempty => ?emptyKey,
    fun hfits hkey hne hunwritten => ?unwritten, fun hfits hkey hne hdata hkeyw => ?completes⟩
  case dataTooLong => exact execXor_error (xorChecks_dataTooLong hover)
  case keyTooLong => exact execXor_error (xorChecks_keyTooLong hfits hover)
  case emptyKey => exact execXor_error (xorChecks_emptyKey hfits hempty)
  case unwritten => exact execXor_fault (xorChecks_none.2 ⟨hfits, hkey, hne⟩) hunwritten
  case completes =>
    obtain ⟨key, b, h⟩ := XorLoaded.of_written (xorChecks_none.2 ⟨hfits, hkey, hne⟩) hdata hkeyw
    obtain ⟨t, ht, hframe, hheld⟩ := h.execXor_holdsBits
    refine ⟨t, ht, hframe, fun i hi => ?_⟩
    obtain ⟨d, k, hd, hk, hbit⟩ := h.xorFrom_bit hi
    exact ⟨d, k, hd, hk, (hheld i (by rwa [xorFrom_length, h.length])).trans hbit⟩

/-! ### XOR twice with one key (43_xor R152) -/

/-- Xoring with a non-empty key twice succeeds and gives the bit string back. -/
theorem xorBits_xorBits {k : Bits} (hk : k ≠ []) (d : Bits) : ∃ c, xorBits k d = .ok c ∧ xorBits k c = .ok d := by
  have hlen : k.length ≠ 0 := mt List.length_eq_zero_iff.1 hk
  refine ⟨xorFrom k 0 d, xorBits_ok hlen d, ?_⟩
  rw [xorBits_ok hlen, xorFrom_xorFrom]

/-- XOR's checks depend on the latched DLEN and KLEN only. -/
theorem xorChecks_congr {s s' : State} (hd : s.lat.dlen = s'.lat.dlen) (hk : s.lat.klen = s'.lat.klen) :
    xorChecks s = xorChecks s' := by
  rw [xorChecks, hd, hk, xorChecks]

/-- A state with the same latched lengths and key bytes is loaded with the same key and the bit string it holds. -/
theorem XorLoaded.congr {u v : State} {key : List Byte} {b c : Bits} (h : XorLoaded u key b)
    (hd : u.lat.dlen = v.lat.dlen) (hk : u.lat.klen = v.lat.klen)
    (hkey : ∀ j < u.lat.klen.toNat, u.kbufByte j = v.kbufByte j) (hc : v.holdsBits c) (hlen : c.length = b.length) :
    XorLoaded v key c :=
  ⟨xorChecks_congr hd hk ▸ h.checks, State.keyOperand_congr hk hkey h.key, hc, hlen.trans (hd ▸ h.length)⟩

/-- The live operands of an idle block, as an accepted XOR latches them, are loaded with `key` and `b`. -/
def State.xorReady (s : State) (key : List Byte) (b : Bits) : Prop := XorLoaded (s.accept (encodeInstr .xor)) key b

/-- A host that writes neither DBUF, DLEN, KBUF nor KLEN leaves the key and the bit string. -/
theorem State.xorReady.of_sameData {u v : State} {key : List Byte} {b : Bits} (h : u.xorReady key b)
    (hsame : sameData u v) (hkey : v.klen = u.klen ∧ ∀ j, v.kbufByte j = u.kbufByte j) : v.xorReady key b := by
  have ⟨_, hdlen, _⟩ := hsame
  obtain ⟨hklen, hkbuf⟩ := hkey
  have hbits : v.holdsBits b := State.holdsBits.of_sameData (s := u) h.bits hsame
  exact XorLoaded.congr h hdlen.symm hklen.symm (fun j _ => (hkbuf j).symm) hbits rfl

/-- XOR xors the bit string with the keystream and keeps the key. -/
theorem State.xorReady.runCommand_xor {s : State} {key : List Byte} {b : Bits} (h : s.xorReady key b) :
    ∃ t, runCommand .xor s = some t ∧ t.status.err = false ∧ t.xorReady key (xorFrom (encodeBytes key) 0 b) := by
  obtain ⟨t, ht, hframe, hheld⟩ := XorLoaded.execXor_holdsBits h
  have ⟨hfields, _, hread⟩ := hframe
  obtain ⟨herr, hdlen⟩ := err_dlen_of_onlyDataChanged hframe
  have hklen : t.klen = s.klen := congrArg (·.klen) hfields
  have hfits : s.klen.toNat ≤ 64 := (xorChecks_none.1 h.checks).2.1
  have hkbuf (j : Nat) (hj : j < s.klen.toNat) : s.kbufByte j = t.kbufByte j :=
    (hread (kbufBase + j) (.inl (show 0x01000 + j < 0x02000 by omega))).symm
  exact ⟨t, runCommand_of_exec ht, herr, XorLoaded.congr h hdlen.symm hklen.symm hkbuf hheld (xorFrom_length _ 0 b)⟩

/-- Settles O37: the second xor uses the same keystream, and xoring a bit with a key bit twice restores it. -/
theorem xorIsAnInvolution : Obligations.XorIsAnInvolution := by
  refine ⟨fun k d hk => xorBits_xorBits hk d, fun s ⟨_, hfits, hdata⟩ hkey hne hkeyw => ?_⟩
  obtain ⟨key, b, (hstart : s.xorReady key b)⟩ :=
    XorLoaded.of_written (s := s.accept (encodeInstr .xor)) (xorChecks_none.2 ⟨hfits, hkey, hne⟩) hdata hkeyw
  intro v₁ hdata₁ hkey₁
  obtain ⟨t₁, ht₁, herr₁, hxored⟩ := (hstart.of_sameData hdata₁ hkey₁).runCommand_xor
  refine ⟨t₁, ht₁, herr₁, fun v₂ hdata₂ hkey₂ => ?_⟩
  obtain ⟨t₂, ht₂, herr₂, hback⟩ := (hxored.of_sameData hdata₂ hkey₂).runCommand_xor
  rw [xorFrom_xorFrom] at hback
  refine ⟨t₂, ht₂, herr₂, fun i hi => ?_⟩
  have hib : i < b.length := hstart.length ▸ hi
  exact (hback.bits i hib).trans (hstart.bits i hib).symm

end Sys2Proof.Machine

namespace Sys2Proof.Machine

open Sys2Proof.Claims

/-! ### The round index in decimal digits (44_scheduler R161) -/

/-- The ASCII digit of a number below 10. -/
def asciiDigit (d : Nat) : Byte := 0x30#8 + BitVec.ofNat 8 d

theorem asciiDigit_toNat {d : Nat} (hd : d < 10) : (asciiDigit d).toNat = 0x30 + d := by
  simp only [asciiDigit, BitVec.toNat_add, BitVec.toNat_ofNat]
  omega

theorem asciiDigit_ne_zero {d : Nat} (hd : d < 10) (hne : d ≠ 0) : asciiDigit d ≠ 0x30 := by
  have hvalue := asciiDigit_toNat hd
  intro h
  rw [h] at hvalue
  exact hne (Nat.left_eq_add.1 hvalue)

/-- Each step finds the last digit of what is left and goes on with the digits before it, if there are any. -/
theorem decimalDigits_succ (n i : Nat) (acc : List Byte) :
    decimalDigits (n + 1) i acc =
      if i / 10 = 0 then asciiDigit (i % 10) :: acc else decimalDigits n (i / 10) (asciiDigit (i % 10) :: acc) := rfl

/-- Every digit is an ASCII digit. -/
theorem mem_decimalDigits {n i : Nat} {acc : List Byte} {d : Byte} (hd : d ∈ decimalDigits n i acc) :
    d ∈ acc ∨ ∃ k < 10, d = asciiDigit k := by
  induction n generalizing i acc with
  | zero => exact .inl hd
  | succ n ih =>
    have hcons (h : d ∈ asciiDigit (i % 10) :: acc) : d ∈ acc ∨ ∃ k < 10, d = asciiDigit k :=
      (List.mem_cons.1 h).symm.imp_right fun h => ⟨i % 10, Nat.mod_lt i (by decide), h⟩
    rw [decimalDigits_succ] at hd
    split at hd
    · exact hcons hd
    · exact (ih hd).elim hcons .inr

/-- The first digit of a number that is not 0 is not the digit 0. -/
theorem head?_decimalDigits_ne_zero {n i : Nat} {acc : List Byte} (hi : i ≠ 0) (hlt : i < 10 ^ n) :
    (decimalDigits n i acc).head? ≠ some 0x30 := by
  induction n generalizing i acc with
  | zero => omega
  | succ n ih =>
    rw [decimalDigits_succ]
    split
    · rw [List.head?_cons, Ne, Option.some.injEq]
      exact asciiDigit_ne_zero (Nat.mod_lt i (by decide)) (by omega)
    · exact ih ‹_› (by omega)

/-- The number that a string of ASCII digits shows after the number `n`, most significant digit first. -/
def decimalValue (n : Nat) (ds : List Byte) : Nat := ds.foldl (fun n d => 10 * n + (d.toNat - 0x30)) n

theorem decimalValue_cons {d : Nat} (hd : d < 10) (n : Nat) (ds : List Byte) :
    decimalValue n (asciiDigit d :: ds) = decimalValue (10 * n + d) ds := by
  rw [decimalValue, List.foldl_cons, asciiDigit_toNat hd, Nat.add_sub_cancel_left, decimalValue]

/-- The digits show the number they were made of. -/
theorem decimalValue_decimalDigits {n i : Nat} (acc : List Byte) (hlt : i < 10 ^ n) :
    decimalValue 0 (decimalDigits n i acc) = decimalValue i acc := by
  induction n generalizing i acc with
  | zero => rw [decimalDigits, show i = 0 by omega]
  | succ n ih =>
    have hmod : i % 10 < 10 := Nat.mod_lt i (by decide)
    rw [decimalDigits_succ]
    split
    · rw [decimalValue_cons hmod, show 10 * 0 + i % 10 = i by omega]
    · rw [ih _ (by omega), decimalValue_cons hmod, Nat.div_add_mod]

/-- Settles O38: each digit is an ASCII digit, the first of them is 0 for the index 0 only, and together they show the
index. -/
theorem roundKeyEndsInDecimalIndex : Obligations.RoundKeyEndsInDecimalIndex := by
  intro key i hi
  obtain ⟨hpos, hle⟩ := decimalDigits_length 10 i []
  refine ⟨rfl, hpos, hle, fun d hd => ?digit, fun hzero => ?noLeadingZero,
    decimalValue_decimalDigits [] hi⟩
  case digit =>
    obtain ⟨k, hk, rfl⟩ := (mem_decimalDigits hd).resolve_left List.not_mem_nil
    rw [asciiDigit_toNat hk]
    omega
  case noLeadingZero =>
    obtain rfl : i = 0 := by_contra fun h => head?_decimalDigits_ne_zero h hi hzero
    rfl

/-! ### The rounds on bit strings (44_scheduler R162, R164) -/

/-- The bits of an encrypt round's result are its three steps on the bits of its input. -/
theorem encodeBytes_encRound (key : List Byte) (i : Nat) (m : List Byte) :
    encodeBytes (encRound key i m) = xorFrom (encodeBytes (roundKey key i)) 0
      (permuteBits (substGroups sboxFwd (encodeBytes m)) (generate (roundKey key i) (8 * m.length))) :=
  encodeBytes_packBytes _ (by simp)

/-- The bits of a decrypt round's result are its three steps on the bits of its input. -/
theorem encodeBytes_decRound (key : List Byte) (i : Nat) (c : List Byte) :
    encodeBytes (decRound key i c) = substGroups sboxInv
      (permuteBits (xorFrom (encodeBytes (roundKey key i)) 0 (encodeBytes c))
        (invert (generate (roundKey key i) (8 * c.length)))) :=
  encodeBytes_packBytes _ (by simp)

/-- `decrypt` of an encoding never fails. -/
theorem decrypt_encodeBytes (key c : List Byte) (n : Nat) :
    decrypt key (encodeBytes c) n = .ok (decRounds key n c) := by
  rw [decrypt_ok key (by simp), packBytes_encodeBytes]

/-- `decrypt` refuses a bit string with a partial byte, whatever the number of rounds. -/
theorem decrypt_partial (key : List Byte) {c : Bits} (h : c.length % 8 ≠ 0) (n : Nat) :
    decrypt key c n = .error .malformedBitLength := by
  rw [decrypt, decodeBits_partial h]
  rfl

/-- A bit string of whole bytes is an encoding. -/
theorem exists_eq_encodeBytes {b : Bits} (h : b.length % 8 = 0) : ∃ bytes, b = encodeBytes bytes :=
  ⟨packBytes b, (encodeBytes_packBytes b h).symm⟩

/-- Settles O39: `r + 1` rounds are round `r` after `r` rounds, and the bits of round `r`'s result are its three
steps. -/
theorem encryptRoundsCompose : Obligations.EncryptRoundsCompose := by
  refine fun key m r => ⟨encrypt_ok key m 0, fun c hc => ?_⟩
  obtain rfl : encodeBytes (encRounds key m r) = c := Except.ok.inj ((encrypt_ok key m r).symm.trans hc)
  refine ⟨_, _, _, substitute_ok (by simp; omega) _, applyPermutation_ok (by simp),
    xorBits_ok (roundKey_bits_ne key r) _, ?_⟩
  rw [encrypt_ok, encRounds, encodeBytes_encRound, substGroups_length, encodeBytes_length]

/-- Settles O40: a bit string of whole bytes is an encoding, and the bits of round `r`'s result, which the rounds below
decrypt, are its three steps. -/
theorem decryptRoundsCompose : Obligations.DecryptRoundsCompose := by
  refine fun key c r => ⟨bind_pure (decodeBits c), fun h => decrypt_partial key h r, fun hwhole => ?_⟩
  obtain ⟨bytes, rfl⟩ := exists_eq_encodeBytes hwhole
  refine ⟨_, _, _, xorBits_ok (roundKey_bits_ne key r) _, applyPermutation_ok (by simp),
    substitute_ok (by simp; omega) _, ?_⟩
  rw [xorFrom_length, encodeBytes_length, ← encodeBytes_decRound, decrypt_encodeBytes, decrypt_encodeBytes, decRounds]

/-! ### No error inside a round (44_scheduler R170) -/

/-- Settles O44: every step of a round gets an input of the right length, and only PERM_GEN sets WEAK. -/
theorem roundsNeverFail : Obligations.RoundsNeverFail := by
  refine ⟨fun key m r => ⟨_, encrypt_ok key m r, by simp⟩, fun key c r hwhole => ?decrypts, fun s t h => ?weak⟩
  case decrypts =>
    obtain ⟨bytes, rfl⟩ := exists_eq_encodeBytes hwhole
    exact ⟨_, decrypt_encodeBytes key bytes r, by simp⟩
  case weak =>
    rw [← Bool.not_eq_true]
    intro hweak
    rcases h with h | h
    · exact absurd (exec_weak h hweak).1 (by decide)
    · exact absurd (exec_weak h hweak).1 (by decide)

end Sys2Proof.Machine

namespace Sys2Proof.Machine

open Sys2Proof.Claims

/-! ### The checks and the operands of ENCRYPT and DECRYPT (44_scheduler R163, R165) -/

theorem schedChecks_dataTooLong {s : State} (hover : Config.dbufBits < s.lat.dlen.toNat) :
    firstError (schedChecks s) = some .lengthOutOfRange := by
  rw [schedChecks, overDbufBits_true.2 hover, firstError_cons_fails]

theorem schedChecks_keyTooLong {s : State} (hfits : s.lat.dlen.toNat ≤ Config.dbufBits)
    (hover : Config.kbufBytes < s.lat.klen.toNat) : firstError (schedChecks s) = some .lengthOutOfRange := by
  rw [schedChecks, overDbufBits_false.2 hfits, firstError_cons_passes, overKbufBytes_true.2 hover,
    firstError_cons_fails]

theorem schedChecks_negativeRounds {s : State} (hfits : s.lat.dlen.toNat ≤ Config.dbufBits)
    (hkey : s.lat.klen.toNat ≤ Config.kbufBytes) (hneg : negativeRounds s.lat.rounds = true) :
    firstError (schedChecks s) = some .invalidRoundsValue := by
  rw [schedChecks, overDbufBits_false.2 hfits, firstError_cons_passes, overKbufBytes_false.2 hkey,
    firstError_cons_passes, hneg, firstError_cons_fails]

theorem schedChecks_partial {s : State} (hfits : s.lat.dlen.toNat ≤ Config.dbufBits)
    (hkey : s.lat.klen.toNat ≤ Config.kbufBytes) (hrounds : negativeRounds s.lat.rounds = false)
    (hpartial : s.lat.dlen.toNat % 8 ≠ 0) : firstError (schedChecks s) = some .malformedBitLength := by
  rw [schedChecks, overDbufBits_false.2 hfits, firstError_cons_passes, overKbufBytes_false.2 hkey,
    firstError_cons_passes, hrounds, firstError_cons_passes, bne_iff_ne.2 hpartial, firstError_cons_fails]

/-- The commands of the round scheduler. -/
def runsRounds (i : Instr) : Prop := i = .encrypt ∨ i = .decrypt

/-- ENCRYPT and DECRYPT end with the first check that fails. -/
theorem execRounds_error {i : Instr} (hi : runsRounds i) {s : State} {e : ErrKind}
    (h : firstError (schedChecks s) = some e) : exec i s = .next (s.raise e) := by
  rcases hi with rfl | rfl
  · simp only [exec, execEncrypt, h]
  · simp only [exec, execDecrypt, h]

/-- ENCRYPT and DECRYPT whose checks pass stop on an unwritten key or data byte. -/
theorem execRounds_fault {i : Instr} (hi : runsRounds i) {s : State} (hc : firstError (schedChecks s) = none)
    (h : ¬(s.dataWritten ∧ s.keyWritten)) : exec i s = .fault .uninitialisedOperand := by
  by_cases hkey : s.keyWritten
  · obtain ⟨key, hk⟩ := State.keyWritten_iff.1 hkey
    have hdata := State.dataOperand_none fun hdata => h ⟨hdata, hkey⟩
    rcases hi with rfl | rfl
    · simp only [exec, execEncrypt, hc, hk, hdata]
    · simp only [exec, execDecrypt, hc, hk, hdata]
  · rcases hi with rfl | rfl
    · simp only [exec, execEncrypt, hc, State.keyOperand_none hkey]
    · simp only [exec, execDecrypt, hc, State.keyOperand_none hkey]

/-- The checks that the two commands share, in their order, and the stop. -/
theorem schedulerChecks_of_runsRounds {i : Instr} (hi : runsRounds i) : schedulerChecks i := by
  refine fun s => ⟨fun hover => ?_, fun hfits hover => ?_, fun hfits hkey hneg => ?_,
    fun hfits hkey hrounds hpartial => ?_, fun hfits hkey hrounds hwhole hunwritten => ?_⟩
  · exact execRounds_error hi (schedChecks_dataTooLong hover)
  · exact execRounds_error hi (schedChecks_keyTooLong hfits hover)
  · exact execRounds_error hi (schedChecks_negativeRounds hfits hkey hneg)
  · exact execRounds_error hi (schedChecks_partial hfits hkey hrounds hpartial)
  · exact execRounds_fault hi (schedChecks_none.2 ⟨hfits, hkey, negativeRounds_false.1 hrounds, hwhole⟩) hunwritten

/-- Operands that are in place pass the checks and are what the command reads. -/
theorem reads_of_schedulerOperands {s : State} {key bytes : List Byte} (h : schedulerOperands s key bytes) :
    firstError (schedChecks s) = none ∧ s.keyOperand = some key ∧ s.dataOperand = some bytes := by
  obtain ⟨hfits, hkfits, hrounds, hdlen, hklen, hdata, hkey⟩ := h
  exact ⟨schedChecks_none.2 ⟨hfits, hkfits, negativeRounds_false.1 hrounds, by omega⟩,
    State.keyOperand_of hklen hkey, State.dataOperand_of hdlen hdata⟩

/-- Checks that pass and written operands are operands in place. -/
theorem exists_schedulerOperands {s : State} (hc : firstError (schedChecks s) = none) (hdata : s.dataWritten)
    (hkey : s.keyWritten) : ∃ key bytes, schedulerOperands s key bytes := by
  obtain ⟨hfits, hkfits, hrounds, hwhole⟩ := schedChecks_none.1 hc
  obtain ⟨key, hk⟩ := State.keyWritten_iff.1 hkey
  obtain ⟨bytes, hb⟩ := State.dataWritten_iff.1 hdata
  obtain ⟨hklen, hkheld⟩ := State.keyOperand_eq_some.1 hk
  obtain ⟨hblen, hbheld⟩ := State.dataOperand_eq_some.1 hb
  rw [← hklen] at hkheld
  rw [← hblen] at hbheld
  exact ⟨key, bytes, hfits, hkfits, negativeRounds_false.2 hrounds, by omega, hklen.symm, hbheld, hkheld⟩

/-- A command of the round scheduler that ends with no error had its operands in place. -/
theorem schedulerOperands_of_exec {i : Instr} (hi : runsRounds i) {s t : State} (h : exec i s = .next t)
    (herr : t.status.err = false) : ∃ key bytes, schedulerOperands s key bytes := by
  cases hc : firstError (schedChecks s) with
  | some e =>
    obtain rfl : s.raise e = t := Host.Outcome.next.inj ((execRounds_error hi hc).symm.trans h)
    cases herr
  | none =>
    by_cases hw : s.dataWritten ∧ s.keyWritten
    · exact exists_schedulerOperands hc hw.1 hw.2
    · exact nomatch (execRounds_fault hi hc hw).symm.trans h

/-! ### What ENCRYPT and DECRYPT leave (44_scheduler R163, R165, R166) -/

/-- The state that the round loop leaves before the completion: the result `bytes` in DBUF and, unless ROUNDS is 0,
the last round's table, index and key. -/
def State.afterRounds (s : State) (bytes : List Byte) (T : Table) (i : Nat) (rk : List Byte) : State :=
  if s.lat.rounds.toNat = 0 then s.storeDbuf bytes else (s.storeDbuf bytes).leaveRound T i rk

/-- `t` is `s` completed with success with `bytes` in DBUF and, unless ROUNDS is 0, the table `T` of DLEN entries in
PTAB and the round index `i` in RIDX. -/
structure RoundsLeave (s t : State) (bytes : List Byte) (T : Table) (i : Nat) : Prop where
  /-- Everything but the results is as before. -/
  frame : schedulerFrame s t bytes
  /-- With no round the table and the index are as before. -/
  noRound : s.lat.rounds = 0 → t.ptab = s.ptab ∧ t.psize = s.psize ∧ t.ridx = s.ridx
  /-- With a round they are the last round's. -/
  lastRound : s.lat.rounds ≠ 0 → t.psize = s.lat.dlen ∧ t.ridx = BitVec.ofNat 32 i ∧ t.ptab.map BitVec.toNat = T

/-- Completing with the result in DBUF is in the frame, whatever becomes of the table, the index and the round key. -/
theorem schedulerFrame_of_storeDbuf {s u : State} {bytes : List Byte} (hmem : u.mem = (s.storeDbuf bytes).mem)
    (hrest : { u with mem := s.mem, ptab := s.ptab, psize := s.psize, ridx := s.ridx, rk := s.rk } = s) :
    schedulerFrame s (u.complete false) bytes := by
  refine ⟨congrArg (·.complete false) hrest, fun j hj => ?_, fun a ha => ?_⟩
  · rw [State.dbufByte, State.complete_mem, hmem]
    exact (s.storeDbuf_dbufByte bytes j).trans (if_pos hj)
  · rw [State.complete_mem, hmem]
    exact s.storeDbuf_read_other bytes ha

/-- What the rounds leave once the command completes. -/
theorem roundsLeave_afterRounds {s : State} (bytes : List Byte) {T : Table} (i : Nat) (rk : List Byte)
    (hT : isTable T = true) (hlen : T.length = s.lat.dlen.toNat) (hfits : s.lat.dlen.toNat ≤ Config.dbufBits) :
    RoundsLeave s ((s.afterRounds bytes T i rk).complete false) bytes T i := by
  by_cases h0 : s.lat.rounds = 0
  · have hno : s.afterRounds bytes T i rk = s.storeDbuf bytes := if_pos (by rw [h0]; rfl)
    rw [hno]
    exact ⟨schedulerFrame_of_storeDbuf rfl rfl, fun _ => ⟨rfl, rfl, rfl⟩, fun hne => absurd h0 hne⟩
  · have hrun : s.afterRounds bytes T i rk = (s.storeDbuf bytes).leaveRound T i rk :=
      if_neg fun h => h0 (BitVec.eq_of_toNat_eq h)
    rw [hrun]
    exact ⟨schedulerFrame_of_storeDbuf rfl rfl, fun h => absurd h h0,
      fun _ => ⟨rfl, rfl, stored_table hT (hlen ▸ hfits)⟩⟩

/-- ENCRYPT with its operands in place completes with the encryption and leaves the table and the index of the last
round. -/
theorem execEncrypt_roundsLeave {s : State} {key m : List Byte} (h : schedulerOperands s key m) :
    ∃ t, exec .encrypt s = .next t ∧ RoundsLeave s t (encRounds key m s.lat.rounds.toNat)
      (generate (roundKey key (s.lat.rounds.toNat - 1)) s.lat.dlen.toNat) (s.lat.rounds.toNat - 1) := by
  obtain ⟨hc, hk, hm⟩ := reads_of_schedulerOperands h
  exact ⟨_, execEncrypt_ok hc hk hm, roundsLeave_afterRounds _ _ (roundKey key (s.lat.rounds.toNat - 1))
    (isTable_generate _ _) (generate_length _ _) h.1⟩

/-- DECRYPT with its operands in place completes with the decryption and leaves the inverse of round 0's table and the
index 0. -/
theorem execDecrypt_roundsLeave {s : State} {key c : List Byte} (h : schedulerOperands s key c) :
    ∃ t, exec .decrypt s = .next t ∧ RoundsLeave s t (decRounds key s.lat.rounds.toNat c)
      (invert (generate (roundKey key 0) s.lat.dlen.toNat)) 0 := by
  obtain ⟨hc, hk, hm⟩ := reads_of_schedulerOperands h
  obtain ⟨hfits, -, -, hdlen, -⟩ := h
  exact ⟨_, execDecrypt_ok hc hdlen hk hm, roundsLeave_afterRounds _ _ (roundKey key 0)
    (isTable_invert (isTable_generate _ _)) ((invert_length _).trans (generate_length _ _)) hfits⟩

/-- The last round's index, one below the number of rounds, as a word. -/
theorem ofNat_toNat_sub_one {w : Word} (h : w ≠ 0) : BitVec.ofNat 32 (w.toNat - 1) = w - 1 := by
  have hpos : w.toNat ≠ 0 := fun h0 => h (BitVec.eq_of_toNat_eq h0)
  bv_omega

/-- Settles O41: the shared checks, and ENCRYPT's result with the last round's index ROUNDS - 1. -/
theorem encryptStoresEncryption : Obligations.EncryptStoresEncryption := by
  refine ⟨schedulerChecks_of_runsRounds (.inl rfl), fun s key m h => ?_⟩
  obtain ⟨t, ht, hframe, hno, hlast⟩ := execEncrypt_roundsLeave h
  refine ⟨t, _, ht, encrypt_ok key m _, encRounds_length key m _, hframe, hno, fun hne => ?_⟩
  rw [← ofNat_toNat_sub_one hne]
  exact hlast hne

/-- Settles O42: the shared checks, and DECRYPT's result with the last round's index 0. -/
theorem decryptStoresDecryption : Obligations.DecryptStoresDecryption := by
  refine ⟨schedulerChecks_of_runsRounds (.inr rfl), fun s key c h => ?_⟩
  obtain ⟨t, ht, hframe, hno, hlast⟩ := execDecrypt_roundsLeave h
  exact ⟨t, _, ht, decrypt_encodeBytes key c _, decRounds_length key _ c, hframe, hno, hlast⟩

/-! ### No rounds (44_scheduler R169) -/

/-- Storing the bytes that DBUF holds changes no byte. -/
theorem read_of_schedulerFrame_held {s t : State} {bytes : List Byte} (h : schedulerFrame s t bytes)
    (hheld : ∀ j < bytes.length, s.dbufByte j = bytes[j]?) (a : Nat) : Memory.read t.mem a = Memory.read s.mem a := by
  obtain ⟨-, hstored, hother⟩ := h
  by_cases ha : a < dbufBase ∨ dbufBase + bytes.length ≤ a
  · exact hother a ha
  · obtain ⟨j, rfl⟩ := Nat.exists_eq_add_of_le (show dbufBase ≤ a by omega)
    exact (hstored j (by omega)).trans (hheld j (by omega)).symm

/-- With ROUNDS = 0 a command of the round scheduler that has its operands leaves the data it found. -/
theorem execRounds_zero {i : Instr} (hi : runsRounds i) {s : State} {key bytes : List Byte}
    (h : schedulerOperands s key bytes) (h0 : s.lat.rounds = 0) :
    ∃ t T k, exec i s = .next t ∧ RoundsLeave s t bytes T k := by
  have hnat : s.lat.rounds.toNat = 0 := by rw [h0]; rfl
  rcases hi with rfl | rfl
  · obtain ⟨t, ht, hleave⟩ := execEncrypt_roundsLeave h
    rw [hnat, encRounds] at hleave
    exact ⟨t, _, _, ht, hleave⟩
  · obtain ⟨t, ht, hleave⟩ := execDecrypt_roundsLeave h
    rw [hnat, decRounds] at hleave
    exact ⟨t, _, _, ht, hleave⟩

/-- Settles O43: no round gives the data back, and DLEN = 7 is a partial byte. -/
theorem zeroRoundsChangeNothing : Obligations.ZeroRoundsChangeNothing := by
  refine ⟨fun i s t hi h0 ht => ⟨fun herr => ?unchanged, fun hdlen hkey => ?partialByte⟩, fun key m => ?functions⟩
  case unchanged =>
    obtain ⟨key, bytes, hops⟩ := schedulerOperands_of_exec hi ht herr
    have ⟨_, _, _, _, _, hheld, _⟩ := hops
    obtain ⟨t', T, k, ht', hframe, hno, -⟩ := execRounds_zero hi hops h0
    obtain rfl : t' = t := Host.Outcome.next.inj (ht'.symm.trans ht)
    exact ⟨read_of_schedulerFrame_held hframe hheld, hno h0⟩
  case partialByte =>
    have hc : firstError (schedChecks s) = some .malformedBitLength :=
      schedChecks_partial (by rw [hdlen]; decide) hkey (by rw [h0]; decide) (by rw [hdlen]; decide)
    exact Host.Outcome.next.inj (ht.symm.trans (execRounds_error hi hc))
  case functions => exact ⟨encrypt_ok key m 0, decrypt_encodeBytes key m 0⟩

end Sys2Proof.Machine

namespace Sys2Proof.Machine

open Sys2Proof.Claims

/-! ### Commands run from an idle block (60_exceptions R180, R181) -/

/-- A command that runs to a next state has answered it. -/
theorem exec_of_runCommand {i : Instr} {s t : State} (h : runCommand i s = some t) :
    exec i (s.accept (encodeInstr i)) = .next t := by
  unfold runCommand at h
  cases hexec : exec i (s.accept (encodeInstr i)) with
  | next u =>
    rw [hexec] at h
    exact congrArg Host.Outcome.next (Option.some.inj h)
  | fault f =>
    rw [hexec] at h
    cases h
  | refused r =>
    rw [hexec] at h
    cases h

/-- KBUF holds the key `key` of KLEN bytes, and DLEN and GSIZE are both `n`, all within capacity. -/
structure KeyLoaded (s : State) (key : List Byte) (n : Word) : Prop where
  /-- KLEN is the number of key bytes. -/
  klen : s.klen.toNat = key.length
  /-- They fit KBUF. -/
  keyFits : key.length ≤ Config.kbufBytes
  /-- KBUF holds them. -/
  held : ∀ j < key.length, s.kbufByte j = key[j]?
  /-- DBUF's bit string has `n` bits. -/
  dlen : s.dlen = n
  /-- A table to generate has `n` entries. -/
  gsize : s.gsize = n
  /-- They fit DBUF and PTAB. -/
  dataFits : n.toNat ≤ Config.dbufBits

/-- No command writes a KBUF byte (10_state R37). -/
theorem kbufByte_of_exec {i : Instr} {s t : State} (h : exec i s = .next t) {j : Nat} (hj : j < Config.kbufBytes) :
    t.kbufByte j = s.kbufByte j :=
  exec_read_below_dbuf h (by simp only [kbufBase, dbufBase, Config.kbufBytes] at *; omega)

/-- No command writes the key or an operand register. -/
theorem KeyLoaded.of_runCommand {i : Instr} {s t : State} {key : List Byte} {n : Word} (h : KeyLoaded s key n)
    (ht : runCommand i s = some t) : KeyLoaded t key n := by
  obtain ⟨hklen, hkfits, hheld, hdlen, hgsize, hdfits⟩ := h
  have hexec := exec_of_runCommand ht
  obtain ⟨-, -, hd, hk, -, hg, -⟩ := commandsWriteOnlyResults i _ t hexec
  exact ⟨hk ▸ hklen, hkfits, fun j hj => (kbufByte_of_exec hexec (by omega)).trans (hheld j hj), hd.trans hdlen,
    hg.trans hgsize, hdfits⟩

/-- PERM_GEN leaves the bit string in DBUF and the generated table of the key in PTAB. -/
theorem KeyLoaded.runCommand_permGen {s : State} {key : List Byte} {n : Word} {b : Bits} (h : KeyLoaded s key n)
    (hb : s.holdsBits b) (hlen : b.length = n.toNat) :
    ∃ t, runCommand .permGen s = some t ∧ PermLoaded t b (generate key n.toNat) := by
  obtain ⟨hklen, hkfits, hheld, hdlen, rfl, hgfits⟩ := h
  have hc : firstError (permGenChecks (s.accept (encodeInstr .permGen))) = none :=
    permGenChecks_none.2 ⟨hklen ▸ hkfits, hgfits⟩
  obtain ⟨hinv, htable⟩ := State.generated_table (s := s.accept (encodeInstr .permGen)) hgfits key
  exact ⟨_, runCommand_of_exec (execPermGen_ok hc (State.keyOperand_of hklen hheld)), hb, hdlen ▸ hlen, hinv,
    hdlen.symm, htable⟩

/-- A key that is not empty and a bit string in DBUF are ready for XOR. -/
theorem KeyLoaded.xorReady {s : State} {key : List Byte} {n : Word} {b : Bits} (h : KeyLoaded s key n)
    (hne : key ≠ []) (hb : s.holdsBits b) (hlen : b.length = n.toNat) : s.xorReady key b := by
  obtain ⟨hklen, hkfits, hheld, rfl, -, hdfits⟩ := h
  have hnonempty : s.klen ≠ 0 := by
    intro h0
    rw [h0] at hklen
    exact hne (List.length_eq_zero_iff.1 hklen.symm)
  exact ⟨xorChecks_none.2 ⟨hdfits, hklen ▸ hkfits, hnonempty⟩, State.keyOperand_of hklen hheld, hb, hlen⟩

/-- A command that is none of the four table commands leaves the table in PTAB (10_state R39). -/
theorem PermLoaded.table_of_runCommand {i : Instr} {s t : State} {b : Bits} {T : Table} (h : PermLoaded s b T)
    (hi : ¬(i = .permGen ∨ i = .permInv ∨ i = .encrypt ∨ i = .decrypt)) (ht : runCommand i s = some t) :
    t.psize = s.dlen ∧ t.ptab.map BitVec.toNat = T := by
  obtain ⟨hptab, hpsize⟩ := (exec_table (exec_of_runCommand ht)).resolve_right hi
  rw [hptab, hpsize]
  exact ⟨h.size, h.inv.table_eq.symm.trans h.table⟩

/-- The bytes in DBUF are those whose encoding it holds. -/
theorem State.holdsBits.dbufByte {s : State} {bytes : List Byte} (h : s.holdsBits (encodeBytes bytes)) {j : Nat}
    (hj : j < bytes.length) : s.dbufByte j = bytes[j]? := by
  have hbit (k : Nat) (hk : k < 8) :
      (s.dbufByte j).map (fun v => v.getLsbD (7 - k)) = some (bytes[j].getLsbD (7 - k)) := by
    have hin := h (8 * j + k) (by rw [encodeBytes_length]; omega)
    rw [encodeBytes_getElem?, State.dbufBit, show (8 * j + k) / 8 = j by omega, show (8 * j + k) % 8 = k by omega,
      List.getElem?_eq_getElem hj] at hin
    exact hin
  obtain ⟨v, hv, -⟩ := Option.map_eq_some_iff.1 (hbit 0 (by decide))
  rw [hv, List.getElem?_eq_getElem hj]
  refine congrArg some (BitVec.eq_of_getLsbD_eq fun k hk => ?_)
  have hkth := hbit (7 - k) (by omega)
  rw [hv, show 7 - (7 - k) = k by omega] at hkth
  exact Option.some.inj hkth

/-! ### DECRYPT undoes ENCRYPT (44_scheduler R168) -/

/-- A loaded block has its operands in place once a command is accepted. -/
theorem schedulerOperands_of_loaded {s : State} {key bytes : List Byte} (h : loaded s key bytes) (w : Word) :
    schedulerOperands (s.accept w) key bytes := h.2

/-- A block with a command of the round scheduler completed on it is loaded with the same key and the result. -/
theorem loaded_of_schedulerFrame {s u : State} {key bytes out : List Byte} {w : Word} (hs : loaded s key bytes)
    (hframe : schedulerFrame (s.accept w) u out) (hlen : out.length = bytes.length) :
    loaded u key out ∧ u.rounds = s.rounds := by
  obtain ⟨hidle, hdfits, hkfits, hrounds, hdlen, hklen, -, hkey⟩ := hs
  obtain ⟨hrest, hstored, hother⟩ := hframe
  have hd : u.dlen = s.dlen := congrArg (·.dlen) hrest
  have hk : u.klen = s.klen := congrArg (·.klen) hrest
  have hr : u.rounds = s.rounds := congrArg (·.rounds) hrest
  have hrst : u.rstN = s.rstN := congrArg (·.rstN) hrest
  have hbusy : u.status.busy = false := congrArg (·.status.busy) hrest
  have hkept (j : Nat) (hj : j < key.length) : u.kbufByte j = key[j]? :=
    (hother (kbufBase + j) (.inl (show 0x01000 + j < 0x02000 by omega))).trans (hkey j hj)
  exact ⟨⟨State.idle_iff.2 ⟨hrst.trans (State.idle_iff.1 hidle).1, hbusy⟩, hd ▸ hdfits, hk ▸ hkfits, hr ▸ hrounds,
    by rw [hd, hdlen, hlen], hk ▸ hklen, hstored, hkept⟩, hr⟩

/-- An idle block with the operands of a loaded one is loaded with the same bytes. -/
theorem loaded_congr {u v : State} {key bytes : List Byte} (hu : loaded u key bytes) (hidle : v.idle = true)
    (hd : v.dlen = u.dlen) (hk : v.klen = u.klen) (hr : v.rounds = u.rounds)
    (hdata : ∀ j < bytes.length, v.dbufByte j = u.dbufByte j) (hkey : ∀ j < key.length, v.kbufByte j = u.kbufByte j) :
    loaded v key bytes := by
  obtain ⟨-, hdfits, hkfits, hrounds, hdlen, hklen, hdheld, hkheld⟩ := hu
  exact ⟨hidle, hd ▸ hdfits, hk ▸ hkfits, hr ▸ hrounds, hd ▸ hdlen, hk ▸ hklen,
    fun j hj => (hdata j hj).trans (hdheld j hj), fun j hj => (hkey j hj).trans (hkheld j hj)⟩

/-- ENCRYPT and DECRYPT complete with no error. -/
theorem RoundsLeave.err {s t : State} {bytes : List Byte} {T : Table} {i : Nat} (h : RoundsLeave s t bytes T i) :
    t.status.err = false :=
  congrArg (·.status.err) h.frame.1

/-- Settles O45: ENCRYPT leaves its result and the operands in place, and all the rounds of DECRYPT undo all the rounds
of ENCRYPT. -/
theorem decryptUndoesEncrypt : Obligations.DecryptUndoesEncrypt := by
  refine ⟨fun key m r => ⟨_, encrypt_ok key m r, ?functions⟩, fun s key m hs => ?commands⟩
  case functions => rw [decrypt_encodeBytes, decRounds_encRounds]
  case commands =>
    obtain ⟨u, hu, hleft⟩ := execEncrypt_roundsLeave (schedulerOperands_of_loaded hs (encodeInstr .encrypt))
    have hlen := encRounds_length key m s.rounds.toNat
    obtain ⟨huload, hur⟩ := loaded_of_schedulerFrame hs hleft.frame hlen
    refine ⟨u, runCommand_of_exec hu, hleft.err, fun v hidle hd hk hr hdata hkey => ?_⟩
    have hvload : loaded v key (encRounds key m s.rounds.toNat) :=
      loaded_congr huload hidle hd hk hr (by rwa [hlen]) hkey
    obtain ⟨t, ht, hback⟩ := execDecrypt_roundsLeave (schedulerOperands_of_loaded hvload (encodeInstr .decrypt))
    rw [State.accept_lat, hr.trans hur, decRounds_encRounds] at hback
    exact ⟨t, runCommand_of_exec ht, hback.err, hback.frame.2.1⟩

/-! ### One round by the primitive commands (44_scheduler R167) -/

/-- A loaded block with GSIZE = DLEN has the key in place for the primitive commands, and the encoding of the bytes in
DBUF. -/
theorem primitiveOperands_of_loaded {s : State} {key bytes : List Byte} (h : loaded s key bytes)
    (hgsize : s.gsize = s.dlen) :
    KeyLoaded s key s.dlen ∧ s.holdsBits (encodeBytes bytes) ∧ s.dlen.toNat = 8 * bytes.length := by
  obtain ⟨-, hdfits, hkfits, -, hdlen, hklen, hdata, hkey⟩ := h
  refine ⟨⟨hklen, hklen ▸ hkfits, hkey, rfl, hgsize, hdfits⟩, fun i hi => ?_, hdlen⟩
  rw [encodeBytes_length] at hi
  exact (encodeBytes_eq_dbufBit hdata hi).symm

/-- A round key ends in a digit. -/
theorem roundKey_ne_nil (key : List Byte) (i : Nat) : roundKey key i ≠ [] :=
  List.ne_nil_of_length_pos (Nat.zero_lt_of_lt (roundKey_length key i).1)

/-- Settles O46: SUBST_FWD, PERM_GEN, PERM_APPLY and XOR make the round's three steps on the bits in DBUF, and XOR keeps
the table. -/
theorem primitiveCommandsMakeEncryptRound : Obligations.PrimitiveCommandsMakeEncryptRound := by
  intro s key m i hs hgsize
  obtain ⟨hkey, hbits, hsize⟩ := primitiveOperands_of_loaded hs hgsize
  have hlen : (encodeBytes m).length = s.dlen.toNat := by rw [encodeBytes_length, hsize]
  obtain ⟨t₁, hsubst, -, -, hbits₁⟩ := runCommand_subst (i := .substFwd) (fun _ => rfl) hbits hlen
    (hlen.trans_le hkey.dataFits) (by omega)
  have hkey₁ := hkey.of_runCommand hsubst
  obtain ⟨t₂, hgen, hperm₂⟩ := hkey₁.runCommand_permGen hbits₁ (by rw [substGroups_length, hlen])
  obtain ⟨t₃, happly, -, hperm₃⟩ := hperm₂.runCommand_permApply
  have hkey₃ := (hkey₁.of_runCommand hgen).of_runCommand happly
  obtain ⟨t₄, hxor, herr, hready⟩ := (hkey₃.xorReady (roundKey_ne_nil key i) hperm₃.bits
    (by rw [permuteBits_length, generate_length])).runCommand_xor
  have hround : t₄.holdsBits (encodeBytes (encRound key i m)) := by
    rw [encodeBytes_encRound, ← hsize]
    exact hready.bits
  obtain ⟨hpsize, htable⟩ := hperm₃.table_of_runCommand (by decide) hxor
  exact ⟨t₄, _, by simp only [runCommands, hsubst, hgen, happly, hxor], encryptRound_ok key i m, herr,
    fun j hj => hround.dbufByte (by rwa [encRound_length]), hpsize.trans hkey₃.dlen, htable⟩

/-- Settles O47: XOR, PERM_GEN, PERM_INV, PERM_APPLY and SUBST_INV make the round's three steps on the bits in DBUF, and
SUBST_INV keeps the table. -/
theorem primitiveCommandsMakeDecryptRound : Obligations.PrimitiveCommandsMakeDecryptRound := by
  intro s key c i hs hgsize
  obtain ⟨hkey, hbits, hsize⟩ := primitiveOperands_of_loaded hs hgsize
  have hlen : (encodeBytes c).length = s.dlen.toNat := by rw [encodeBytes_length, hsize]
  obtain ⟨t₁, hxor, -, hready⟩ := (hkey.xorReady (roundKey_ne_nil key i) hbits hlen).runCommand_xor
  have hkey₁ := hkey.of_runCommand hxor
  obtain ⟨t₂, hgen, hperm₂⟩ := hkey₁.runCommand_permGen hready.bits (by rw [xorFrom_length, hlen])
  obtain ⟨t₃, hinv, -, hperm₃⟩ := hperm₂.runCommand_permInv
  obtain ⟨t₄, happly, -, hperm₄⟩ := hperm₃.runCommand_permApply
  have hkey₄ := ((hkey₁.of_runCommand hgen).of_runCommand hinv).of_runCommand happly
  have hd₄ : t₄.dlen.toNat = s.dlen.toNat := by rw [hkey₄.dlen]
  obtain ⟨t₅, hsubst, herr, -, hbits₅⟩ := runCommand_subst (i := .substInv) (fun _ => rfl) hperm₄.bits hperm₄.length
    (hperm₄.length.trans_le (hd₄.trans_le hkey.dataFits)) (by rw [hperm₄.length]; omega)
  have hround : t₅.holdsBits (encodeBytes (decRound key i c)) := by
    rw [encodeBytes_decRound, ← hsize]
    exact hbits₅
  obtain ⟨hpsize, htable⟩ := hperm₄.table_of_runCommand (by decide) hsubst
  exact ⟨t₅, _, by simp only [runCommands, hxor, hgen, hinv, happly, hsubst], decryptRound_ok key i c, herr,
    fun j hj => hround.dbufByte (by rwa [decRound_length]), hpsize.trans hkey₄.dlen, htable⟩

end Sys2Proof.Machine

namespace Sys2Proof.Machine

open Sys2Proof.Claims

/-! ### The start of a command (60_exceptions R180) -/

/-- A write to CMD while idle is accepted, whatever the word. -/
theorem State.busWrite_cmd {s : State} {a : Offset} (v : Word) (ha : a.toNat / 4 = 4) (hidle : s.status.busy = false) :
    s.busWrite a v = s.accept v := by
  have hregion : regionOf a = .reg .cmd := regionOf_reg.2 (congrArg (· * 4) ha)
  rw [State.busWrite_idle a v hidle, hregion, State.writeRegion]

/-- Settles O7: while idle the write is the start, which clears DONE and so irq; while busy it is lost. -/
theorem commandStartLatchesAndClears : Obligations.CommandStartLatchesAndClears := by
  refine fun s a v ha => ⟨fun hidle => ?_, fun hbusy => ?_⟩
  · rw [State.busWrite_cmd v ha hidle]
    exact ⟨rfl, State.irq_of_not_done rfl⟩
  · exact State.busWrite_busy v hbusy (by omega) (by omega)

/-! ### The engine's turn with a command in progress (60_exceptions R181) -/

/-- With nothing scheduled there is no event to take off. -/
theorem State.popped_of_nil {s : State} (h : s.schedule = []) : s.popped = s := by
  rw [State.popped, h, List.tail_nil, ← h]

/-- Taking the first event off the schedule leaves the rest. -/
theorem State.popped_of_cons {s : State} {e : Event} {rest : List Event} (h : s.schedule = e :: rest) :
    s.popped = { s with schedule := rest } := by
  rw [State.popped, h, List.tail_cons]

/-- The engine's turn with a command in progress runs the command that the latched word encodes. -/
theorem step_of_decoded {s : State} {i : Instr} (hrst : s.rstN = true) (hbusy : s.status.busy = true)
    (hi : decodeWord s.lat.cmd = .ok i) (hturn : engineHasTurn s) : step s = exec i s.popped := by
  have hpopped : decodeWord s.popped.lat.cmd = .ok i := hi
  rw [step_of_engineHasTurn hturn, engineTurn_running (State.popped_running.2 ⟨hrst, hbusy⟩), hpopped]

/-- The engine's turn with an illegal word in progress completes with IllegalCommand (30_encoding R94). -/
theorem step_of_undecoded {s : State} {r : Reject} (hrst : s.rstN = true) (hbusy : s.status.busy = true)
    (hr : decodeWord s.lat.cmd = .error r) (hturn : engineHasTurn s) :
    step s = .next (s.popped.raise .illegalCommand) := by
  have hpopped : decodeWord s.popped.lat.cmd = .error r := hr
  rw [step_of_engineHasTurn hturn, engineTurn_running (State.popped_running.2 ⟨hrst, hbusy⟩), hpopped]

/-- All 32 bits of a word are the word. -/
theorem tableWord_toNat (w : Word) : tableWord 32 w.toNat = w := by
  rw [tableWord, Nat.mod_eq_of_lt w.isLt, BitVec.ofNat_toNat, BitVec.setWidth_eq]

/-- Settles O5: a placed word is latched with the engine's turn first in the schedule, so it runs as any latched word
does. -/
theorem stepRunsDecodedCommand : Obligations.StepRunsDecodedCommand := by
  refine ⟨fun s i hrst hbusy hi => ⟨fun hs => ?_, fun rest hs => ?_⟩, fun s i => ?_⟩
  · rw [step_of_decoded hrst hbusy hi (.inl hs), State.popped_of_nil hs]
  · rw [step_of_decoded hrst hbusy hi (.inr ⟨rest, hs⟩), State.popped_of_cons hs]
  · rw [State.withFetchWord, tableWord_toNat]
    exact step_of_decoded rfl rfl (decodeWord_encodeInstr i) (.inr ⟨s.schedule, rfl⟩)

/-! ### The completion of a command (60_exceptions R182 to R184) -/

/-- Settles O49: an error is the completion of its kind alone, and a success is a completion over the command's results,
which leave STATUS. -/
theorem everyCommandEndsInOneCompletion : Obligations.EveryCommandEndsInOneCompletion := by
  intro i s t h
  rcases exec_next h with ⟨e, rfl⟩ | ⟨u, w, rfl, hu, -⟩
  · exact ⟨rfl, rfl, rfl, fun _ => ⟨e, rfl, e.code_ne_zero⟩, fun hno => (nomatch hno)⟩
  · have hovr : u.status.ovr = s.status.ovr := by rw [hu.rest]
    exact ⟨rfl, rfl, hovr, fun herr => (nomatch herr), fun _ => rfl⟩

/-! ### What a command answers (20_memory R66, 60_exceptions R187, R197) -/

/-- An operand within its capacity has an unwritten byte. -/
def State.lacksOperand (s : State) : Prop :=
  (s.lat.dlen.toNat ≤ Config.dbufBits ∧ ¬s.dataWritten) ∨ (s.lat.klen.toNat ≤ Config.kbufBytes ∧ ¬s.keyWritten)

/-- A state that lacks an operand has an unwritten operand byte. -/
theorem State.lacksOperand.unwritten {s : State} (h : s.lacksOperand) : ¬(s.dataWritten ∧ s.keyWritten) := by
  rintro ⟨hdata, hkey⟩
  rcases h with ⟨-, hdata'⟩ | ⟨-, hkey'⟩
  · exact hdata' hdata
  · exact hkey' hkey

/-- Where both lengths are within capacity, an unwritten operand byte is one that is lacking. -/
theorem State.lacksOperand.of_unwritten {s : State} (hfits : s.lat.dlen.toNat ≤ Config.dbufBits)
    (hkey : s.lat.klen.toNat ≤ Config.kbufBytes) (h : ¬(s.dataWritten ∧ s.keyWritten)) : s.lacksOperand :=
  (not_and_or.1 h).imp (⟨hfits, ·⟩) (⟨hkey, ·⟩)

/-- An outcome of a command run from `s` as the spec allows it: a next state, or the stop on an unwritten operand
byte. -/
def Answers (s : State) (o : Host.Outcome State Fault Refusal) : Prop :=
  (∃ t, o = .next t) ∨ (o = .fault .uninitialisedOperand ∧ s.lacksOperand)

/-- A data command within DBUF's capacity answers whatever its function does. -/
theorem dataCommand_answers {s : State} (hfits : s.lat.dlen.toNat ≤ Config.dbufBits) (f : Bits → Except ErrKind Bits) :
    Answers s (dataCommand s f) := by
  by_cases hdata : s.dataWritten
  · obtain ⟨bytes, hbytes⟩ := State.dataWritten_iff.1 hdata
    simp only [dataCommand, hbytes]
    cases f (s.dataBits bytes) with
    | error e => exact .inl ⟨_, rfl⟩
    | ok bits => exact .inl ⟨_, rfl⟩
  · exact .inr ⟨dataCommand_fault hdata, .inl ⟨hfits, hdata⟩⟩

theorem execDecode_answers (s : State) : Answers s (execDecode s) := by
  cases hc : firstError (decodeChecks s) with
  | some e => exact .inl ⟨_, execDecode_error hc⟩
  | none => exact .inl ⟨_, execDecode_ok hc⟩

theorem substCommand_answers (T : List Nibble) (s : State) : Answers s (substCommand T s) := by
  cases hc : firstError (substChecks s) with
  | some e => exact .inl ⟨_, substCommand_error hc⟩
  | none =>
    rw [substCommand_of_checks T hc]
    exact dataCommand_answers (substChecks_none.1 hc).1 _

theorem execPermGen_answers (s : State) : Answers s (execPermGen s) := by
  cases hc : firstError (permGenChecks s) with
  | some e => exact .inl ⟨_, execPermGen_error hc⟩
  | none =>
    by_cases hkey : s.keyWritten
    · obtain ⟨key, hk⟩ := State.keyWritten_iff.1 hkey
      exact .inl ⟨_, execPermGen_ok hc hk⟩
    · exact .inr ⟨execPermGen_fault hc hkey, .inr ⟨(permGenChecks_none.1 hc).1, hkey⟩⟩

/-- PERM_INV answers where PTAB holds a table. -/
theorem execPermInv_answers {s : State} (h : s.TableInv) : Answers s (execPermInv s) := by
  obtain ⟨t, ht, -⟩ := execPermInv_table h
  exact .inl ⟨t, ht⟩

/-- PERM_APPLY answers where PTAB holds a table. -/
theorem execPermApply_answers {s : State} (h : s.TableInv) : Answers s (execPermApply s) := by
  cases hc : firstError (permApplyChecks s) with
  | some e => exact .inl ⟨_, execPermApply_error hc⟩
  | none =>
    obtain ⟨hfits, hsize⟩ := permApplyChecks_none.1 hc
    rw [execPermApply_of_table h hsize]
    exact dataCommand_answers hfits _

theorem execXor_answers (s : State) : Answers s (execXor s) := by
  cases hc : firstError (xorChecks s) with
  | some e => exact .inl ⟨_, execXor_error hc⟩
  | none =>
    obtain ⟨hfits, hkfits, -⟩ := xorChecks_none.1 hc
    by_cases hw : s.dataWritten ∧ s.keyWritten
    · obtain ⟨key, hk⟩ := State.keyWritten_iff.1 hw.2
      rw [execXor_of_key hc hk]
      exact dataCommand_answers hfits _
    · exact .inr ⟨execXor_fault hc hw, .of_unwritten hfits hkfits hw⟩

theorem execRounds_answers {i : Instr} (hi : runsRounds i) (s : State) : Answers s (exec i s) := by
  cases hc : firstError (schedChecks s) with
  | some e => exact .inl ⟨_, execRounds_error hi hc⟩
  | none =>
    obtain ⟨hfits, hkfits, -⟩ := schedChecks_none.1 hc
    by_cases hw : s.dataWritten ∧ s.keyWritten
    · obtain ⟨key, bytes, hops⟩ := exists_schedulerOperands hc hw.1 hw.2
      rcases hi with rfl | rfl
      · obtain ⟨t, ht, -⟩ := execEncrypt_roundsLeave hops
        exact .inl ⟨t, ht⟩
      · obtain ⟨t, ht, -⟩ := execDecrypt_roundsLeave hops
        exact .inl ⟨t, ht⟩
    · exact .inr ⟨execRounds_fault hi hc hw, .of_unwritten hfits hkfits hw⟩

/-- Where PTAB holds a table, every command gives a next state or stops on an unwritten operand byte. -/
theorem exec_answers (i : Instr) {s : State} (h : s.TableInv) : Answers s (exec i s) := by
  cases i with
  | nop => exact .inl ⟨_, rfl⟩
  | decode => exact execDecode_answers s
  | substFwd => exact substCommand_answers sboxFwd s
  | substInv => exact substCommand_answers sboxInv s
  | permGen => exact execPermGen_answers s
  | permInv => exact execPermInv_answers h
  | permApply => exact execPermApply_answers h
  | xor => exact execXor_answers s
  | encrypt => exact execRounds_answers (.inl rfl) s
  | decrypt => exact execRounds_answers (.inr rfl) s

/-- Settles O55: every command answers, and the one stop among the answers is for an unwritten operand byte. -/
theorem stopsOnlyOnUnwrittenOperand : Obligations.StopsOnlyOnUnwrittenOperand := by
  intro i s htable
  rcases exec_answers i htable with ⟨t, ht⟩ | ⟨hstop, hlacks⟩
  · rw [ht]
    exact ⟨fun _ hf => (nomatch hf), fun _ hr => (nomatch hr)⟩
  · rw [hstop]
    refine ⟨fun f hf => ?_, fun _ hr => (nomatch hr)⟩
    obtain rfl : Fault.uninitialisedOperand = f := Host.Outcome.fault.inj hf
    exact ⟨rfl, hlacks.unwritten⟩

/-- A command that lacks no operand gives a next state. -/
theorem exec_exists_next (i : Instr) {s : State} (htable : s.TableInv) (h : ¬s.lacksOperand) : ∃ t, exec i s = .next t :=
  (exec_answers i htable).resolve_right fun hstop => h hstop.2

/-- Settles O8: a legal word's command lacks no operand, so it gives a next state, and every next state of the engine's
turn with a command in progress is a completion. -/
theorem acceptedCommandCompletes : Obligations.AcceptedCommandCompletes := by
  intro s hinv hbusy hs hdata hkey
  obtain ⟨-, htable, hbusyInv, -, -⟩ := hinv
  have hrst : s.rstN = true := (hbusyInv hbusy).1
  cases hword : decodeWord s.lat.cmd with
  | error r =>
    exact ⟨_, step_of_undecoded hrst hbusy hword (.inl hs), rfl, rfl⟩
  | ok i =>
    have hstep : step s = exec i s := (stepRunsDecodedCommand.1 s i hrst hbusy hword).1 hs
    have hoperands : ¬s.lacksOperand := by
      rintro (⟨hfits, hunwritten⟩ | ⟨hfits, hunwritten⟩)
      · exact hunwritten (hdata hfits)
      · exact hunwritten (hkey hfits)
    obtain ⟨t, ht⟩ := exec_exists_next i htable hoperands
    obtain ⟨hidle, hdone, -⟩ := everyCommandEndsInOneCompletion i s t ht
    exact ⟨t, hstep.trans ht, hidle, hdone⟩

end Sys2Proof.Machine

namespace Sys2Proof.Machine

open Sys2Proof.Claims

/-! ### What clears OVR (70_reset_and_hazards R219) -/

/-- The event may clear OVR: a write of 1 to STATUS bit 4, a soft reset, or a change of `rst_n`. -/
def clearsOvr (e : Event) : Prop :=
  (∃ a v, e = .busWrite a v ∧
    (a.toNat / 4 = 3 ∧ v.getLsbD 4 = true ∨ a.toNat / 4 = 2 ∧ v.getLsbD 1 = true)) ∨ ∃ level, e = .rstN level

/-- A host write that takes OVR from 1 to 0 is a W1C of OVR or a soft reset. -/
theorem State.busWrite_clears_ovr {s : State} {a : Offset} {v : Word} (hset : s.status.ovr = true)
    (hclear : (s.busWrite a v).status.ovr = false) :
    a.toNat / 4 = 3 ∧ v.getLsbD 4 = true ∨ a.toNat / 4 = 2 ∧ v.getLsbD 1 = true := by
  have hkeeps {u : State} (e : s.busWrite a v = u) (hu : u.status.ovr = true) : False := by
    rw [e, hu] at hclear
    cases hclear
  rcases s.busWrite_cases a v with (e | e) | ⟨ha, e⟩ | ⟨ha, e⟩ | ⟨-, hw⟩
  · exact (hkeeps e hset).elim
  · exact (hkeeps e rfl).elim
  · rcases s.writeCtrl_cases v with ⟨hv, -⟩ | e'
    · exact .inr ⟨ha, hv⟩
    · exact (hkeeps (e.trans e') hset).elim
  · have hbit : (s.status.ovr && !v.getLsbD 4) = false := by rw [e] at hclear; exact hclear
    exact .inl ⟨ha, by simpa [hset] using hbit⟩
  · rcases hw with ⟨-, e⟩ | ⟨-, e⟩ | ⟨-, e⟩ | ⟨-, e⟩ | ⟨-, e⟩ | ⟨w, -, -, e⟩ | ⟨w, -, -, e⟩ <;>
      exact (hkeeps e hset).elim

/-- An event at the ports that takes OVR from 1 to 0 is one of those that may. -/
theorem State.portEvent_clears_ovr {s : State} {e : Event} (hset : s.status.ovr = true)
    (hclear : (s.portEvent e).status.ovr = false) : clearsOvr e := by
  rcases s.portEvent_cases e with he | ⟨a, he⟩ | ⟨a, v, rfl, -, he⟩ | ⟨level, rfl, -⟩
  · rw [he] at hclear
    exact absurd (hset.symm.trans hclear) (by decide)
  · rw [he, State.busRead_status] at hclear
    exact absurd (hset.symm.trans hclear) (by decide)
  · rw [he] at hclear
    exact .inl ⟨a, v, rfl, State.busWrite_clears_ovr hset hclear⟩
  · exact .inr ⟨level, rfl⟩

/-- No engine's turn changes OVR: a completion keeps it (60_exceptions R182, R183). -/
theorem engineTurn_ovr {s t : State} (h : engineTurn s = .next t) : t.status.ovr = s.status.ovr := by
  rcases engineTurn_next h with ⟨-, i, -, hexec⟩ | ⟨-, rfl⟩ | ⟨-, rfl⟩
  · obtain ⟨-, -, hovr, -⟩ := everyCommandEndsInOneCompletion i s t hexec
    exact hovr
  · rfl
  · rfl

/-- Settles O9: a busy write is lost, and of a step's two forms the engine's turn keeps OVR and an event at the ports
clears it only as R219 says. -/
theorem busyWriteIsLost : Obligations.BusyWriteIsLost := by
  refine ⟨fun s a v hbusy hctrl hstatus => State.busWrite_busy v hbusy hctrl hstatus, fun s t hset ht hclear => ?_⟩
  rcases step_next ht with ⟨-, hturn⟩ | ⟨e, rest, -, hs, rfl⟩
  · have hkept : t.status.ovr = s.popped.status.ovr := engineTurn_ovr hturn
    exact absurd (hset.symm.trans (hkept.symm.trans hclear)) (by decide)
  · rcases State.portEvent_clears_ovr (s := s.popped) hset hclear with ⟨a, v, rfl, hwrite⟩ | ⟨level, rfl⟩
    · exact ⟨rest, .inl ⟨a, v, hs, hwrite⟩⟩
    · exact ⟨rest, .inr ⟨level, hs⟩⟩

/-! ### Reads while a command runs (70_reset_and_hazards R218) -/

/-- `s` with BUSY = 0. -/
def State.withBusyClear (s : State) : State := { s with status := { s.status with busy := false } }

/-- A read of a word that is open while busy returns the free word. -/
theorem State.readWord_open {s : State} {a : Offset} (hbusy : s.status.busy = true) (ha : openWhileBusy a)
    (free : Word) : s.readWord a free = free := by
  rcases ha with ha | ha | ha | ha
  · have hregion : regionOf a = .dbuf (a.toNat / 4 - 0x800) := regionOf_dbuf.2 (by omega)
    simp [State.readWord, hregion, hbusy]
  · have hregion : regionOf a = .ptab (a.toNat / 4 - 0x10000) := regionOf_ptab.2 (by omega)
    simp [State.readWord, hregion, hbusy]
  · have hregion : regionOf a = .reg .psize := regionOf_reg.2 (congrArg (· * 4) ha)
    simp [State.readWord, hregion, hbusy, Reg.openWhileBusy]
  · have hregion : regionOf a = .reg .ridx := regionOf_reg.2 (congrArg (· * 4) ha)
    simp [State.readWord, hregion, hbusy, Reg.openWhileBusy]

/-- Every register but STATUS has the same value whether BUSY is 1 or 0. -/
theorem State.regValue_withBusyClear (s : State) {r : Reg} (hr : r ≠ .status) :
    s.withBusyClear.regValue r = s.regValue r := by
  cases r with
  | status => exact absurd rfl hr
  | id | version | ctrl | cmd | errcode | dlen | klen | rounds | gsize | psize | ridx | capDbuf | capKbuf => rfl

/-- A register that is open while busy stands at an open word. -/
theorem openWhileBusy_of_reg {a : Offset} {r : Reg} (ha : regionOf a = .reg r) (hr : r.openWhileBusy = true) :
    openWhileBusy a := by
  have hoffset := regionOf_reg.1 ha
  cases r with
  | psize | ridx => simp only [Reg.offset] at hoffset; unfold openWhileBusy; omega
  | id | version | ctrl | status | cmd | errcode | dlen | klen | rounds | gsize | capDbuf | capKbuf => cases hr

/-- A read of a word that is neither open while busy nor STATUS does not depend on BUSY. -/
theorem State.readWord_withBusyClear (s : State) {a : Offset} (hopen : ¬openWhileBusy a) (hstatus : a.toNat / 4 ≠ 3)
    (free : Word) : s.readWord a free = s.withBusyClear.readWord a free := by
  cases hregion : regionOf a with
  | reg r =>
    have hdefined : r.openWhileBusy = false := Bool.eq_false_iff.2 fun hr => hopen (openWhileBusy_of_reg hregion hr)
    have hne : r ≠ .status := by
      rintro rfl
      have hoffset := regionOf_reg.1 hregion
      simp only [Reg.offset] at hoffset
      omega
    rw [State.readWord_reg hregion (.inr hdefined), State.readWord_reg hregion (.inr hdefined),
      s.regValue_withBusyClear hne]
  | kbuf w => simp only [State.readWord, hregion]; rfl
  | dbuf w => exact absurd (.inl (by have := regionOf_dbuf.1 hregion; omega)) hopen
  | ptab k => exact absurd (.inr (.inl (by have := regionOf_ptab.1 hregion; omega))) hopen
  | reserved => simp only [State.readWord, hregion]

/-- BUSY is bit 0 of the word STATUS reads as (10_state R25). -/
theorem Status.toWord_busy {f : Status} (hbusy : f.busy = true) :
    f.toWord.getLsbD 0 = true ∧ f.toWord = 0x01 + Status.toWord { f with busy := false } := by
  obtain ⟨busy, done, err, weak, ovr⟩ := f
  obtain rfl : busy = true := hbusy
  revert done err weak ovr
  decide

/-- A read of a KBUF word returns that word, busy or not. -/
theorem State.readWord_kbuf {s : State} {a : Offset} {w : Nat} (ha : regionOf a = .kbuf w) (free : Word) :
    s.readWord a free = bufferWord s.mem kbufBase w free := by
  simp only [State.readWord, ha]

/-- Settles O21: an open word reads as the free word, and of the others only STATUS depends on BUSY, in its bit 0. -/
theorem busyReadsAreFreeOrNormal : Obligations.BusyReadsAreFreeOrNormal := by
  intro s a free hinv hbusy
  obtain ⟨-, -, -, -, herrcode, hlat⟩ := hinv hbusy
  have hreg (r : Reg) (ha : a.toNat / 4 * 4 = r.offset) (hr : r.openWhileBusy = false) :
      s.readWord a free = s.regValue r := State.readWord_reg (regionOf_reg.2 ha) (.inr hr) free
  refine ⟨fun ha => State.readWord_open hbusy ha free, fun ha hstatus => s.readWord_withBusyClear ha hstatus free,
    fun ha => ?_, fun ha => ?_, fun ha => ?_, fun ha => hreg .dlen (congrArg (· * 4) ha) rfl,
    fun ha => hreg .klen (congrArg (· * 4) ha) rfl, fun ha => hreg .rounds (congrArg (· * 4) ha) rfl,
    fun ha => hreg .gsize (congrArg (· * 4) ha) rfl, fun j hj hlow hhigh => ?_⟩
  · have hidle : s.withBusyClear.readWord a free = s.withBusyClear.status.toWord :=
      State.readWord_reg (r := .status) (regionOf_reg.2 (congrArg (· * 4) ha)) (.inl rfl) free
    obtain ⟨hbit, hword⟩ := Status.toWord_busy hbusy
    rw [hreg .status (congrArg (· * 4) ha) rfl]
    exact ⟨hbit, hword.trans (congrArg (0x01 + ·) hidle.symm)⟩
  · rw [hreg .cmd (congrArg (· * 4) ha) rfl, hlat]
    rfl
  · rw [hreg .errcode (congrArg (· * 4) ha) rfl, State.regValue, herrcode]
    rfl
  · have hregion : regionOf a = .kbuf (a.toNat / 4 - 0x400) := regionOf_kbuf.2 (by omega)
    have haddr : kbufBase + 4 * (a.toNat / 4 - 0x400) = 4 * (a.toNat / 4) := by simp only [kbufBase]; omega
    rw [State.readWord_kbuf hregion, ← haddr]
    exact lane_bufferWord s.mem kbufBase _ free hj

/-! ### Writes to CTRL and STATUS, and the two resets (70_reset_and_hazards R210, R211, R220) -/

/-- Settles O10: the two registers' own writes, which do not ask for BUSY. -/
theorem ctrlAndStatusWritesAct : Obligations.CtrlAndStatusWritesAct := by
  refine fun s a v => ⟨fun ha hv => ?_, fun ha hv => s.busWrite_softReset ha hv, fun ha => State.busWrite_status v ha⟩
  rw [State.busWrite_ctrl v ha, State.writeCtrl, hv]
  rfl

/-- Settles O11: both resets leave `toReset`, where CTRL reads as after any reset. -/
theorem softResetIsHardwareReset : Obligations.SoftResetIsHardwareReset := by
  intro s a v free _ ha hv
  have hctrl : regionOf a = .reg .ctrl := regionOf_reg.2 (congrArg (· * 4) ha)
  rw [s.busWrite_softReset ha hv]
  exact ⟨s.driveRstN_false_true.symm, State.toReset_readWord_reg hctrl free, rfl, State.irq_of_not_done rfl⟩

/-- While `rst_n` is 0 a host access or the engine's turn is dropped (70_reset_and_hazards R210). -/
theorem step_held {s : State} {e : Event} {rest : List Event} (hrst : s.rstN = false) (hs : s.schedule = e :: rest)
    (he : ∀ level, e ≠ .rstN level) : step s = .next { s with schedule := rest } := by
  cases e with
  | busRead a => simp [step, hs, State.portEvent, hrst]
  | busWrite a v => simp [step, hs, State.portEvent, hrst]
  | rstN level => exact absurd rfl (he level)
  | engine =>
    simp only [step, hs]
    exact engineTurn_idle (by simp [State.running, hrst])

/-- A change of `rst_n` at the head of the schedule is the next step. -/
theorem step_rstN {s : State} {level : Bool} {rest : List Event} (hs : s.schedule = .rstN level :: rest) :
    step s = .next (State.driveRstN { s with schedule := rest } level) := by
  simp only [step, hs, State.portEvent]

/-- `rst_n` returning to 1 leaves the reset state (70_reset_and_hazards R210). -/
theorem State.driveRstN_true_of_held {s : State} (hrst : s.rstN = false) : s.driveRstN true = s.toReset := by
  simp only [State.driveRstN, hrst]
  rfl

/-- Settles O12: a held block drops every event but `rst_n`'s, whose two levels leave the reset state. -/
theorem hardwareResetHoldsTheBlock : Obligations.HardwareResetHoldsTheBlock := by
  refine fun s rest => ⟨fun hrst a v hs => ?_, fun hrst hs => ?_, fun hs => ?_⟩
  · rcases hs with hs | hs | hs
    · exact step_held hrst hs (fun _ he => nomatch he)
    · exact step_held hrst hs (fun _ he => nomatch he)
    · exact step_held hrst hs (fun _ he => nomatch he)
  · have hrelease : State.driveRstN { s with schedule := rest } true = State.toReset { s with schedule := rest } :=
      State.driveRstN_true_of_held hrst
    exact ⟨_, (step_rstN hs).trans (congrArg _ hrelease), rfl, State.irq_of_not_done rfl, rfl, rfl,
      fun _ => ⟨rfl, rfl⟩⟩
  · exact ⟨_, step_rstN hs, rfl, State.irq_of_not_done rfl, rfl, rfl⟩

end Sys2Proof.Machine
